-- ==== Sys2Proof/Word.lean ====
section
/-! DEFINITION. The word types: a bus byte, a timer word, the combined time (spec/00_scope.md R5). -/

namespace Sys2Proof

/-- A byte of the bus, of the serial line or of an address: `ADDR_BITS = DATA_BITS = 8` (R5). -/
abbrev Byte := BitVec 8

/-- A timer word: `TLO_BITS = THI_BITS = 16` (R5). -/
abbrev Word16 := BitVec 16

/-- The combined logical time, 32 bits (R41, R225). -/
abbrev Word32 := BitVec 32

end Sys2Proof
end

