-- ==== Sys2Proof/Config.lean ====
section
/-! DEFINITION. What an implementation fixes: the FIFO's capacity, and the OPEN parameters of spec/00_scope.md R5 as
constants without a body. The parameters with a value of their own that no type needs (addresses, marker bytes,
`HEX_DIGIT`) stand in Machine/Params.lean. -/

namespace Sys2Proof.Config

/-- `FIFO_CAP`: capacity of the serial input buffer, and (R34) the number of its slots. -/
abbrev fifoCap : Nat := 255

/-- The named busy-waits of R5 and R308. `rdHoldHalf` is each half of `Delay(RD_HOLD)` around the sample (R124). -/
inductive DelayName where
  | wrHold
  | rdHoldHalf
  | settle
  | debounce
  | wakeHold
  deriving DecidableEq, Repr

/-- An electrical level. R6, R101: the wake line and RDY idle high and are asserted low. -/
inductive Line where
  | high
  | low
  deriving DecidableEq, Repr, Inhabited

/-- OPEN (D21): how long each busy-wait lasts. No rule depends on it (R308). -/
opaque duration : DelayName → Nat

/-- OPEN (D20): time per increment of the hardware counter. No rule depends on it (R230). -/
opaque tickPeriod : Nat

/-- OPEN: the serial line's fixed bit rate (R97). No rule depends on it. -/
opaque bitRate : Nat

/-- OPEN (D29): the electrical level that means "asserted" on bus-enable (R101). -/
opaque polBusen : Line

/-- OPEN (D29): the electrical level that means "asserted" on the write strobe (R101). -/
opaque polWr : Line

/-- OPEN (D29): the electrical level that means "asserted" on the read strobe (R101). -/
opaque polRd : Line

end Sys2Proof.Config
end

