-- ==== Sys2Proof/Syntax.lean ====
section
/-! DEFINITION. The commands: one constructor per row of spec/opcode_table.json (spec/30_encoding.md R90, R91, R100). -/

namespace Sys2Proof

/-- A command, the block's counterpart of an instruction. The seven UNKNOWN rows partition the codes 0x05 to 0xFF
(R100); the argument `c` of such a row is the number its free bits spell. -/
inductive Instr where
  /-- 00000000: emit 0x19, stop the command loop (R171). -/
  | exit
  /-- 00000001: next input byte to the argument register (R172). -/
  | getch
  /-- 00000010: transmit the argument byte (R173). -/
  | putch
  /-- 00000011: the 32-bit time to the four argument bytes (R174). -/
  | gettime
  /-- 00000100: print the time as 8 hex characters and a carriage return (R175). -/
  | prtime
  /-- 00000101: unknown (R176), code 0x05. -/
  | unknown05
  /-- 0000011c: unknown (R176), codes 0x06 to 0x07. -/
  | unknown06 (c : Nat)
  /-- 00001ccc: unknown (R176), codes 0x08 to 0x0F. -/
  | unknown08 (c : Nat)
  /-- 0001cccc: unknown (R176), codes 0x10 to 0x1F. -/
  | unknown10 (c : Nat)
  /-- 001ccccc: unknown (R176), codes 0x20 to 0x3F. -/
  | unknown20 (c : Nat)
  /-- 01cccccc: unknown (R176), codes 0x40 to 0x7F. -/
  | unknown40 (c : Nat)
  /-- 1ccccccc: unknown (R176), codes 0x80 to 0xFF. -/
  | unknown80 (c : Nat)
  deriving DecidableEq, Repr

end Sys2Proof
end

