-- ==== Sys2Proof/Machine/State.lean ====
section
/-! DEFINITION. Everything the spec gives the machine (spec/10_state.md R20), grouped by sub-block, and the model's own
plain data: whose turn it is, what the environment has still to do, and the observation logs. -/

namespace Sys2Proof.Machine

open Sys2Proof.Config (Line fifoCap)

/-- A logical signal (R6). -/
inductive Signal where
  | deasserted
  | asserted
  deriving DecidableEq, Repr, Inhabited

/-- One of the two low-only drivers of the RDY line (R23). -/
inductive Drive where
  | released
  | low
  deriving DecidableEq, Repr, Inhabited

/-- Direction latch of a line driver (R26, R27): `input` is the high-impedance, pulled-up state. -/
inductive Dir where
  | input
  | output
  deriving DecidableEq, Repr, Inhabited

/-- The bus owner, derived from `BUSEN` (R21). -/
inductive Owner where
  | target
  | controller
  deriving DecidableEq, Repr

/-- The state of the Handshake State Machine (R31). -/
inductive Fsm where
  | idle
  | confirmRequest
  | servicing
  deriving DecidableEq, Repr, Inhabited

/-- One micro-step CTRL has still to make, one for each pseudocode line that writes state (R8), within a command body or
SerialPoll (part of the `position` of R48). The bytes and addresses are the pseudocode's local variables. -/
inductive MicroOp where
  /-- `SerialTx(b)` (R11). -/
  | tx (b : Byte)
  /-- `BusWrite(a, v)`, result ignored (R120, R130). -/
  | busWrite (a v : Byte)
  /-- `b <- SerialRxRaw()` of a GETCH that found the FIFO empty; `BusWrite(CMD_ARG, b)` follows (R172, R205). -/
  | recvArg
  /-- `run <- 0` (R171). -/
  | clearRun
  /-- `buf[wr] <- b` (R200). -/
  | bufStore (b : Byte)
  /-- `wr <- (wr + 1) mod 255` (R200). -/
  | wrAdvance
  /-- `count <- count + 1` (R200). -/
  | countUp
  /-- `count <- count - 1` (R204). -/
  | countDown
  deriving DecidableEq, Repr

/-- Where CTRL stands between two of its steps: the `position` of R48, the counterpart of a program counter. -/
inductive Position where
  /-- Head of the command loop, before the loop test and the case on `fsm` (R140). -/
  | loopHead
  /-- In `IdleStep`, within `SerialPoll`, before the first of the micro-steps left of it (R141, R200). -/
  | polling (left : List MicroOp)
  /-- In `IdleStep`, after `SerialPoll`, before the RDY sample (R141). -/
  | idleSample
  /-- In `ServiceStep`, after Acquire, before the command fetch (R145, R147). -/
  | fetch
  /-- In `ServiceStep`, after the command fetch, before the first micro-step of Dispatch (R148). -/
  | dispatch
  /-- In Dispatch, before the first of the micro-steps left of the command body (R148, R170). -/
  | command (left : List MicroOp)
  /-- In `ServiceStep`, after Dispatch, before Release (R149). -/
  | release
  /-- In `WakePulse`, before `WAKE <- low` (R150). -/
  | wakeLow
  /-- In `WakePulse`, before `WAKE <- high` (R150). -/
  | wakeHigh
  /-- In `ServiceStep`, before `fsm <- Idle`, transition T4 (R151). -/
  | passEnd
  /-- The loop has returned to the shell (R152). -/
  | returned
  deriving DecidableEq, Repr, Inhabited

/-- The controller's output latches (R21, R24 to R29). -/
structure Lines where
  /-- `BUSEN`, bus-enable (R21). -/
  busen : Signal
  /-- `RDY_c`, the controller's drive of RDY (R23, R24). -/
  rdyC : Drive
  /-- `WAKE`, idle high (R25). -/
  wake : Line
  /-- `A_dir` (R26). -/
  aDir : Dir
  /-- `A_out` (R26). -/
  aOut : Byte
  /-- `D_dir` (R27). -/
  dDir : Dir
  /-- `D_out` (R27). -/
  dOut : Byte
  /-- `WR`, the write strobe (R28). -/
  wr : Signal
  /-- `RD`, the read strobe (R29). -/
  rd : Signal
  deriving DecidableEq, Repr

/-- The serial input buffer (R34). -/
structure Fifo where
  /-- `buf[0..254]`. -/
  buf : Vector Byte fifoCap
  /-- `wr`, the write cursor, 0..254. -/
  wr : Fin fifoCap
  /-- `rd`, the read cursor, 0..254. -/
  rd : Fin fifoCap
  /-- `count`, 0..255 (R35 keeps the bound). -/
  count : Nat
  deriving DecidableEq, Repr

/-- The serial port's interface (R37, R38). -/
structure Serial where
  /-- `rx_avail`. -/
  rxAvail : Bool
  /-- `rx_data`. -/
  rxData : Byte
  /-- `tx_ready`. -/
  txReady : Bool
  /-- `tx_log`, the bytes handed to the transmitter since the loop was entered, oldest first. -/
  txLog : List Byte
  deriving DecidableEq, Repr

/-- The clock service (R39 to R44). -/
structure Clock where
  /-- `tlo`, the hardware-counted low word (R39). -/
  tlo : Word16
  /-- `thi`, the overflow count (R40). -/
  thi : Word16
  /-- `ovf_pending` (R42). -/
  ovfPending : Bool
  /-- `ien`, the interrupt enable (R43). -/
  ien : Bool
  /-- `snap_lo` (R44). -/
  snapLo : Word16
  /-- `snap_hi` (R44). -/
  snapHi : Word16
  deriving DecidableEq, Repr

/-- The bus memory `M` (R45, R60): the listed bytes by rising address. -/
abbrev Memory := List Host.Cell

/-- One level change the controller makes at its pins (R9, R122, R126, R146, R149, R150). -/
inductive PinEvent where
  | busen (l : Signal)
  | rdyC (d : Drive)
  | wake (l : Line)
  /-- `A_dir <- out ; A_out <- a`. -/
  | addrOut (a : Byte)
  /-- `A_dir <- in`. -/
  | addrIn
  /-- `D_dir <- out ; D_out <- v`. -/
  | dataOut (v : Byte)
  /-- `D_dir <- in`. -/
  | dataIn
  | wr (l : Signal)
  | rd (l : Signal)
  deriving DecidableEq, Repr

/-- The agents that take steps (R7). -/
inductive Agent where
  /-- CTRL, the controller's main control flow. -/
  | ctrl
  /-- TMR, the hardware counter and its overflow interrupt. -/
  | tmr
  /-- TGT, the target. -/
  | tgt
  /-- HOSTRX, the host's serial sender. -/
  | hostRx
  /-- HOSTTX, the serial transmitter's drain. -/
  | hostTx
  /-- SHELL, which enters the command loop. -/
  | shell
  deriving DecidableEq, Repr

/-- One thing the target does (R99's script, R156, R300). -/
inductive TgtAct where
  /-- `ST a, v`. -/
  | store (a v : Byte)
  /-- `LD a`. -/
  | load (a : Byte)
  /-- Assert a request, or begin a glitch: `RDY_t <- low`. -/
  | rdyLow
  /-- Stop requesting, or end a glitch: `RDY_t <- released`. -/
  | rdyRelease
  /-- Drive the bus whether or not the contract of R156 allows it (R300, U21). -/
  | driveBus
  deriving DecidableEq, Repr

/-- The environment: the order in which agents move and what they have still to do. The model's own fields. -/
structure Env where
  /-- Whose turn it is, next first. When it is empty, CTRL moves. -/
  turns : List Agent
  /-- Bytes the host has still to send, next first. -/
  hostIn : List Byte
  /-- What the target has still to do, next first. -/
  script : List TgtAct
  /-- What the target's loads have read, oldest first (R9: `M` as the target reads it). -/
  seen : List (Byte × Byte)
  deriving DecidableEq, Repr

/-- The machine. -/
structure State where
  /-- The controller's output latches. -/
  lines : Lines
  /-- `RDY_t`, the target's drive of RDY (ENV, R23). -/
  rdyT : Drive
  /-- `fsm` (R31). -/
  fsm : Fsm
  /-- `position` (R48). -/
  pos : Position
  /-- `cmd`, the command latch (R32). -/
  cmd : Byte
  /-- `run` (R33). -/
  run : Bool
  /-- The serial input buffer. -/
  fifo : Fifo
  /-- The serial port's interface. -/
  serial : Serial
  /-- The clock service. -/
  clock : Clock
  /-- `M` (ENV, R45). -/
  mem : Memory
  /-- Every level change at the controller's pins, oldest first (R9). The model's own field. -/
  pins : List PinEvent
  /-- The environment. -/
  env : Env
  deriving DecidableEq, Repr

/-- Why the machine stops. Neither is raised by a command: only the target's own script can lead here. -/
inductive Fault where
  /-- The target drove the bus while `BUSEN` was asserted: contention (R300, U21). Raised by the target's turn on
  `driveBus`. Safe: the spec says nothing of what follows. -/
  | busContention
  /-- The target drove the bus while it had to be suspended, with `BUSEN` deasserted (R156 items 1 to 3: outside every
  rule of the spec). Raised by the target's turn on `driveBus`. Safe. -/
  | targetContract
  deriving DecidableEq, Repr

/-- Why a command has no meaning. -/
inductive Refusal where
  /-- A command not modelled yet; raised by exec's arms only, and by none of them now. Safe. -/
  | notModelled (mnemonic : String)
  deriving DecidableEq, Repr

/-- The elements R50 leaves open at loop entry ("any", "unspecified", OPEN), as arguments (D13, D14, D16). -/
structure EntryParams where
  /-- `T0_LO`. -/
  t0Lo : Word16
  /-- `T0_HI`. -/
  t0Hi : Word16
  /-- `M0`. -/
  m0 : Memory
  rdyT : Drive
  aOut : Byte
  dOut : Byte
  cmd : Byte
  buf : Vector Byte fifoCap
  rxAvail : Bool
  rxData : Byte
  txReady : Bool
  snapLo : Word16
  snapHi : Word16
  turns : List Agent
  hostIn : List Byte
  script : List TgtAct

/-- The state at the first entry of the command loop after controller reset: the table of R50. -/
def State.entry (p : EntryParams) : State where
  lines :=
    { busen := .deasserted, rdyC := .released, wake := .high, aDir := .input, aOut := p.aOut,
      dDir := .input, dOut := p.dOut, wr := .deasserted, rd := .deasserted }
  rdyT := p.rdyT
  fsm := .idle
  pos := .loopHead
  cmd := p.cmd
  run := true
  fifo := { buf := p.buf, wr := 0, rd := 0, count := 0 }
  serial := { rxAvail := p.rxAvail, rxData := p.rxData, txReady := p.txReady, txLog := [] }
  clock :=
    { tlo := p.t0Lo, thi := p.t0Hi, ovfPending := false, ien := true,
      snapLo := p.snapLo, snapHi := p.snapHi }
  mem := p.m0
  pins := []
  env := { turns := p.turns, hostIn := p.hostIn, script := p.script, seen := [] }

/-- DESIGN CHOICE (notes/assumptions/6.md, 7.md): one value for each element R50 leaves open. -/
def EntryParams.atReset : EntryParams where
  t0Lo := 0
  t0Hi := 0
  m0 := []
  rdyT := .released
  aOut := 0
  dOut := 0
  cmd := 0
  buf := Vector.replicate fifoCap 0
  rxAvail := false
  rxData := 0
  txReady := true
  snapLo := 0
  snapHi := 0
  turns := []
  hostIn := []
  script := []

/-- The machine right after reset (R50, R51, R290). -/
def State.reset : State := State.entry EntryParams.atReset

end Sys2Proof.Machine
end

