-- ==== Sys2Proof/Machine/Flags.lean ====
section
/-! DEFINITION. The derived conditions and modes rules test (spec/10_state.md R21, R23, R41, R49; 60_exceptions.md
R257, R264, R266), and the electrical view of the outputs (30_encoding.md R101). -/

namespace Sys2Proof.Machine

open Sys2Proof.Config (Line)

/-- `owner`, derived from `BUSEN` (R21). -/
def State.owner (s : State) : Owner :=
  match s.lines.busen with
  | .asserted => .controller
  | .deasserted => .target

/-- The level of the RDY line: low if either driver is low (R23). This is what `sample RDY` returns. -/
def State.rdyLine (s : State) : Line :=
  if s.rdyT = .low ∨ s.lines.rdyC = .low then .low else .high

/-- FIFO empty, tested by getch (R49). -/
def Fifo.isEmpty (f : Fifo) : Bool := f.count == 0

/-- FIFO full, `count = FIFO_CAP`, tested by SerialPoll as `count < FIFO_CAP` (R49, R200). -/
def Fifo.isFull (f : Fifo) : Bool := !decide (f.count < Config.fifoCap)

/-- The FIFO as a sequence of bytes, oldest first: `q` of R36. -/
def Fifo.contents (f : Fifo) : List Byte :=
  (List.range f.count).map (fun i => f.buf.toList.getD ((f.rd.val + i) % Config.fifoCap) 0)

/-- The overflow interrupt is pending and enabled (R257). -/
def Clock.interruptDue (c : Clock) : Bool := c.ovfPending && c.ien

/-- The logical time `T` (R41, R225): `{thi, tlo}`, with the increment still owed while an overflow is pending. -/
def Clock.time (c : Clock) : Word32 :=
  if c.ovfPending then (c.thi + 1) ++ c.tlo else c.thi ++ c.tlo

/-- The target has not been woken from the request being served: from T3 to the end of the wake pulse (R156 item 3,
R271; DEDUCED, notes/assumptions/12.md). -/
def State.targetHeld (s : State) : Bool := s.fsm == .servicing && s.pos != .passEnd

/-- The target may access the bus: it owns it, the RDY line is high, and it is not suspended (R8(b), R62, R156, R266).
-/
def State.targetMayAccess (s : State) : Bool :=
  s.lines.busen == .deasserted && s.rdyLine == .high && !s.targetHeld

/-- The target may make a request: it owns the bus (R156 item 2) and no request is being serviced (R263; DEDUCED,
notes/assumptions/12.md). -/
def State.targetMayRequest (s : State) : Bool := s.lines.busen == .deasserted && s.fsm != .servicing

/-- The electrical level of a signal, given the level that means "asserted" (R101). -/
def Signal.level (pol : Line) : Signal → Line
  | .asserted => pol
  | .deasserted =>
    match pol with
    | .high => .low
    | .low => .high

/-- The electrical level of bus-enable (R101; its polarity is OPEN). -/
def State.busenLevel (s : State) : Line := s.lines.busen.level Config.polBusen

/-- The electrical level of the write strobe (R101; its polarity is OPEN). -/
def State.wrLevel (s : State) : Line := s.lines.wr.level Config.polWr

/-- The electrical level of the read strobe (R101; its polarity is OPEN). -/
def State.rdLevel (s : State) : Line := s.lines.rd.level Config.polRd

end Sys2Proof.Machine
end

