-- ==== Sys2Proof/Machine/Memory.lean ====
section
/-! DEFINITION. The bus memory (spec/20_memory.md R60, R63, R65): 256 bytes, one byte an access, held as the list of
the bytes that differ from what an unlisted address reads as. -/

namespace Sys2Proof.Machine

/-- What an address that the list does not name reads as. DESIGN CHOICE (notes/assumptions/5.md): every content of
the 256 bytes is some list, so this fixes the representation and the reset contents, nothing more. -/
def Memory.unlisted : Byte := 0

/-- Read the byte at an address: `MemRead(a, 1)`. -/
def Memory.read : Memory → Nat → Byte
  | [], _ => Memory.unlisted
  | (k, v) :: rest, a => if k = a then v else Memory.read rest a

/-- The list without its entries at an address. -/
def Memory.erase (m : Memory) (a : Nat) : Memory := m.filter (fun c => c.1 ≠ a)

/-- Put an entry in its place by address. -/
def Memory.insert : Memory → Nat → Byte → Memory
  | [], a, v => [(a, v)]
  | (k, w) :: rest, a, v =>
    if k < a then (k, w) :: Memory.insert rest a v else (a, v) :: (k, w) :: rest

/-- Write the byte at an address: `MemWrite(a, 1, v)`. -/
def Memory.write (m : Memory) (a : Nat) (v : Byte) : Memory :=
  if v = Memory.unlisted then m.erase a else (m.erase a).insert a v

/-- The canonical form, from an address on: addresses strictly rising and below 256, no entry at the unlisted value. -/
def Memory.wfFrom : Nat → Memory → Bool
  | _, [] => true
  | lo, (k, v) :: rest =>
    decide (lo ≤ k) && decide (k < 256) && decide (v ≠ Memory.unlisted) && Memory.wfFrom (k + 1) rest

/-- The canonical form of the memory. -/
def Memory.wf (m : Memory) : Bool := Memory.wfFrom 0 m

end Sys2Proof.Machine
end

