-- ==== Sys2Proof/Machine/Params.lean ====
section
/-! DEFINITION. The parameters of spec/00_scope.md R5 that have a value: the source's literals, unaudited (D28), and
`HEX_DIGIT` (D9). -/

namespace Sys2Proof.Machine.Param

/-- `COMMAND`: bus address of the command register (R61). -/
def command : Byte := 0xF0

/-- `CMD_ARG`: bus address of the first argument or result byte (R61). -/
def cmdArg : Byte := 0xF1

/-- `EXIT_BYTE` (R95, R171). -/
def exitByte : Byte := 0x19

/-- `CR_BYTE` (R95, R175). -/
def crByte : Byte := 0x0D

/-- `GUARD_MARK`, the character `!` (R95, R251). -/
def guardMark : Byte := 0x21

/-- `UNKNOWN_MARK`, the character `?` (R95, R252). -/
def unknownMark : Byte := 0x3F

/-- `HEX_DIGIT[n]` (R96): the character a nibble is printed as, upper case by decision D9. -/
def hexDigit (n : BitVec 4) : Byte :=
  if n.toNat ≤ 9 then BitVec.ofNat 8 (0x30 + n.toNat) else BitVec.ofNat 8 (0x41 + (n.toNat - 10))

end Sys2Proof.Machine.Param
end

