-- ==== Sys2Proof/Machine/Ops.lean ====
section
/-! DEFINITION. The named operations every command and every step of the loop is made of: pins, the serial port, the
guarded bus (spec/40_bus_transport.md), the FIFO (43_serial_input_fifo.md), the clock and its interrupt
(44_clock_service.md), and the error conditions (60_exceptions.md). -/

namespace Sys2Proof.Machine

open Sys2Proof.Config (DelayName)

/-! ### Pins and delays -/

/-- The latches after one level change. -/
def Lines.apply (l : Lines) : PinEvent → Lines
  | .busen v => { l with busen := v }
  | .rdyC v => { l with rdyC := v }
  | .wake v => { l with wake := v }
  | .addrOut a => { l with aDir := .output, aOut := a }
  | .addrIn => { l with aDir := .input }
  | .dataOut v => { l with dDir := .output, dOut := v }
  | .dataIn => { l with dDir := .input }
  | .wr v => { l with wr := v }
  | .rd v => { l with rd := v }

/-- Make one level change and record it (R9). -/
def State.pin (e : PinEvent) (s : State) : State :=
  { s with lines := s.lines.apply e, pins := s.pins ++ [e] }

/-- Make level changes in order. -/
def State.pinAll (es : List PinEvent) (s : State) : State :=
  es.foldl (fun t e => t.pin e) s

/-- `Delay(p)` changes no state of the block (R10, R308). -/
def State.delay (_ : DelayName) (s : State) : State := s

/-- `BUSEN = asserted`, the guard of every bus access (R121, R125, R130). -/
def State.owns (s : State) : Bool := s.lines.busen == .asserted

/-! ### Serial port -/

/-- The one micro-step of `SerialTx` once the transmitter is ready (R11). -/
def State.send (b : Byte) (s : State) : State :=
  { s with serial := { s.serial with txLog := s.serial.txLog ++ [b], txReady := false } }

/-- `SerialTx(b)` (R11): send if the transmitter is ready, otherwise the send is left to do. -/
def serialTx (b : Byte) (s : State) : State × List MicroOp :=
  if s.serial.txReady then (s.send b, []) else (s, [.tx b])

/-- Take the byte out of the receiver (R37). -/
def State.takeRx (s : State) : State :=
  { s with serial := { s.serial with rxAvail := false } }

/-- `SerialRxRaw()` (R12): the waiting byte, or none while there is nothing to take. -/
def serialRxRaw (s : State) : Option (Byte × State) :=
  if s.serial.rxAvail then some (s.serial.rxData, s.takeRx) else none

/-! ### Error conditions -/

/-- The block's three error conditions (R250). -/
inductive Condition where
  | guardViolation
  | unknownCommand
  | requestGlitch
  deriving DecidableEq, Repr

/-- The marker each condition reports with (R250's table; the glitch is silent, R253). -/
def Condition.marker : Condition → List Byte
  | .guardViolation => [Param.guardMark]
  | .unknownCommand => [Param.unknownMark]
  | .requestGlitch => []

/-- Raise a condition: what it leaves to transmit (R251, R252, R253). It has no other effect, is recorded nowhere and
vectors nowhere (R250). -/
def raise (c : Condition) : List MicroOp := c.marker.map .tx

/-! ### The guarded bus -/

/-- What a bus operation gives: the state, its result, and what of a refusal's marker is still to be sent. -/
structure BusOut (α : Type) where
  state : State
  result : α
  left : List MicroOp

/-- Result of `BusWrite` (R120). -/
inductive WriteResult where
  | success
  | guardFailure
  deriving DecidableEq, Repr

/-- `M[a] <- v`: `MemWrite(a, 1, v)`. -/
def State.memWrite (a v : Byte) (s : State) : State :=
  { s with mem := s.mem.write a.toNat v }

/-- `M[a]`: `MemRead(a, 1)`. -/
def State.memRead (a : Byte) (s : State) : Byte := s.mem.read a.toNat

/-- A BusWrite whose guard has passed, line by line (R120, R122, R123). -/
def State.driveWrite (a v : Byte) (s : State) : State :=
  ((((((((((s.pin (.addrOut a)).pin (.dataOut v)).pin (.wr .asserted)).delay .wrHold).memWrite a v).pin
    (.wr .deasserted)).delay .settle).pin .addrIn).pin .dataIn))

/-- The pin part of a BusRead whose guard has passed, up to the sample (R124, R126). -/
def State.driveReadUp (a : Byte) (s : State) : State :=
  ((s.pin (.addrOut a)).pin (.rd .asserted)).delay .rdHoldHalf

/-- The pin part of a BusRead after the sample (R124, R126). -/
def State.driveReadDown (s : State) : State :=
  (((s.delay .rdHoldHalf).pin (.rd .deasserted)).delay .settle).pin .addrIn

/-- The marker of a refused access: `raise GuardViolation` (R121, R125, R251). Nothing but the serial port is touched.
-/
def refuseAccess (s : State) : State × List MicroOp := serialTx Param.guardMark s

/-- `BusWrite(a, v)` (R120, R121). -/
def busWrite (a v : Byte) (s : State) : BusOut WriteResult :=
  if s.owns then ⟨s.driveWrite a v, .success, []⟩
  else ⟨(refuseAccess s).1, .guardFailure, (refuseAccess s).2⟩

/-- `BusRead(a)` (R124, R125, R127): the byte is sampled mid-pulse; a refused read gives 0x00. -/
def busRead (a : Byte) (s : State) : BusOut Byte :=
  if s.owns then ⟨(s.driveReadUp a).driveReadDown, (s.driveReadUp a).memRead a, []⟩
  else ⟨(refuseAccess s).1, 0x00, (refuseAccess s).2⟩

/-! ### FIFO -/

/-- `buf[wr] <- b` (R200). -/
def Fifo.store (b : Byte) (f : Fifo) : Fifo := { f with buf := f.buf.set f.wr.val b f.wr.isLt }

/-- `wr <- (wr + 1) mod 255` (R200). -/
def Fifo.advanceWr (f : Fifo) : Fifo := { f with wr := f.wr + 1 }

/-- `count <- count + 1` (R200). -/
def Fifo.countUp (f : Fifo) : Fifo := { f with count := f.count + 1 }

/-- `rd <- (rd + 1) mod 255` (R204). -/
def Fifo.advanceRd (f : Fifo) : Fifo := { f with rd := f.rd + 1 }

/-- `count <- count - 1` (R204). -/
def Fifo.countDown (f : Fifo) : Fifo := { f with count := f.count - 1 }

/-- The three writes of an append (R200, R201). -/
def Fifo.push (b : Byte) (f : Fifo) : Fifo := ((f.store b).advanceWr).countUp

/-- `buf[rd]` (R204). -/
def Fifo.front (f : Fifo) : Byte := f.buf.get f.rd

/-- The two writes of a removal (R204). -/
def Fifo.pop (f : Fifo) : Fifo := f.advanceRd.countDown

/-- What an operation with several micro-steps gives at its first: the state, its result, and the micro-steps left. -/
structure Begun (α : Type) where
  state : State
  result : α
  left : List MicroOp

/-- The first micro-step of `SerialPoll()` (R200 to R203): take a waiting byte out of the receiver; it is returned
either way, and the three writes of the append are left to do if there is room. -/
def pollBegin (s : State) : Begun (Option Byte) :=
  if s.serial.rxAvail then
    ⟨s.takeRx, some s.serial.rxData,
      if s.fifo.isFull then [] else [.bufStore s.serial.rxData, .wrAdvance, .countUp]⟩
  else ⟨s, none, []⟩

/-- The first micro-step of `getch()` (R204, R205): past the oldest buffered byte, or the raw receive; none while it has
to wait. -/
def getchBegin (s : State) : Option (Begun Byte) :=
  if s.fifo.isEmpty then (serialRxRaw s).map fun r => ⟨r.2, r.1, []⟩
  else some ⟨{ s with fifo := s.fifo.advanceRd }, s.fifo.front, [.countDown]⟩

/-! ### Clock and its interrupt -/

/-- `OverflowISR()` (R222). -/
def Clock.overflowISR (c : Clock) : Clock := { c with thi := c.thi + 1, ovfPending := false }

/-- Take the overflow interrupt if it is pending and enabled, and return from it (R221, R258, R259, R260). Entry saves
and return restores nothing that the spec names: the handler touches only `thi` and `ovf_pending`. -/
def Clock.takeInterrupt (c : Clock) : Clock := if c.interruptDue then c.overflowISR else c

/-- `Tick()` (R220, R221, R229). -/
def Clock.tick (c : Clock) : Clock :=
  let counted : Clock :=
    if c.tlo = 0xFFFF then { c with tlo := 0, ovfPending := true } else { c with tlo := c.tlo + 1 }
  counted.takeInterrupt

/-- `ien <- v`; a pending interrupt is served as soon as it is enabled (R229). -/
def Clock.setIen (v : Bool) (c : Clock) : Clock := Clock.takeInterrupt { c with ien := v }

/-- `get_time()` (R223, R224), one atomic step (R227): the pair it returns stands in `snapLo`, `snapHi`. -/
def Clock.getTime (c : Clock) : Clock :=
  let critical := c.setIen false
  Clock.setIen true { critical with snapLo := critical.tlo, snapHi := critical.thi }

/-- `get_time()` on the machine. -/
def State.getTime (s : State) : State := { s with clock := s.clock.getTime }

/-! ### Micro-steps -/

/-- One micro-step (R8): the state after it, and what is to be done in its place before what follows it, which is the
micro-step itself while it has to wait (R11, R12, R272). -/
def runOp (op : MicroOp) (s : State) : State × List MicroOp :=
  match op with
  | .tx b => serialTx b s
  | .busWrite a v => ((busWrite a v s).state, (busWrite a v s).left)
  | .recvArg =>
    match serialRxRaw s with
    | some (b, s') => (s', [.busWrite Param.cmdArg b])
    | none => (s, [.recvArg])
  | .clearRun => ({ s with run := false }, [])
  | .bufStore b => ({ s with fifo := s.fifo.store b }, [])
  | .wrAdvance => ({ s with fifo := s.fifo.advanceWr }, [])
  | .countUp => ({ s with fifo := s.fifo.countUp }, [])
  | .countDown => ({ s with fifo := s.fifo.countDown }, [])

/-- Where CTRL stands with these micro-steps left of a command body: before Release when none are (R148, R149). -/
def Position.inBody : List MicroOp → Position
  | [] => .release
  | op :: ops => .command (op :: ops)

/-- Where CTRL stands with these micro-steps left of SerialPoll: before the RDY sample when none are (R141). -/
def Position.inPoll : List MicroOp → Position
  | [] => .idleSample
  | op :: ops => .polling (op :: ops)

/-- `s`, with these micro-steps left of the command body. -/
def State.bodyLeft (ops : List MicroOp) (s : State) : State := { s with pos := .inBody ops }

/-- `s`, with these micro-steps left of SerialPoll. -/
def State.pollLeft (ops : List MicroOp) (s : State) : State := { s with pos := .inPoll ops }

/-- Make the first of the micro-steps: the state, and the micro-steps then left. -/
def runFirst : List MicroOp → State → State × List MicroOp
  | [], s => (s, [])
  | op :: ops, s => ((runOp op s).1, (runOp op s).2 ++ ops)

/-- One micro-step of a command body. -/
def stepBody (ops : List MicroOp) (s : State) : State := (runFirst ops s).1.bodyLeft (runFirst ops s).2

/-- One micro-step of SerialPoll. -/
def stepPoll (ops : List MicroOp) (s : State) : State := (runFirst ops s).1.pollLeft (runFirst ops s).2

/-- Micro-steps none of which waits, one after another. -/
def runAll (ops : List MicroOp) (s : State) : State := ops.foldl (fun t op => (runOp op t).1) s

/-- `SerialPoll()` as a whole (R200 to R203). -/
def serialPoll (s : State) : State × Option Byte :=
  (runAll (pollBegin s).left (pollBegin s).state, (pollBegin s).result)

/-- `getch()` as a whole (R204, R205); none while it has to wait. -/
def getch (s : State) : Option (Byte × State) :=
  (getchBegin s).map fun r => (r.result, runAll r.left r.state)

end Sys2Proof.Machine
end

