-- ==== Sys2Proof/Machine/Operands.lean ====
section
/-! DEFINITION. The operand forms: the mailbox bytes (spec/20_memory.md R61, R64, R75), the GETTIME result's four bytes
(30_encoding.md R93, R94), and the characters of a printed word (30_encoding.md R96, 42_command_dispatch.md R178). -/

namespace Sys2Proof.Machine

/-- The address `CMD_ARG + i` (R75). -/
def argAddr (i : Nat) : Byte := Param.cmdArg + BitVec.ofNat 8 i

/-- Bits 7 to 0 of a timer word. -/
def lowByte (w : Word16) : Byte := w.extractLsb' 0 8

/-- Bits 15 to 8 of a timer word. -/
def highByte (w : Word16) : Byte := w.extractLsb' 8 8

/-- The four writes of GETTIME, ascending (R64, R174). -/
def timeWrites (lo hi : Word16) : List MicroOp :=
  [.busWrite (argAddr 0) (lowByte lo), .busWrite (argAddr 1) (highByte lo),
   .busWrite (argAddr 2) (lowByte hi), .busWrite (argAddr 3) (highByte hi)]

/-- Nibble `i` of a word, nibble 0 the least significant. -/
def nibble (w : Word16) (i : Nat) : BitVec 4 := w.extractLsb' (4 * i) 4

/-- The characters `PrintHex16(w)` transmits, most significant nibble first (R178). -/
def hex16 (w : Word16) : List Byte :=
  [Param.hexDigit (nibble w 3), Param.hexDigit (nibble w 2), Param.hexDigit (nibble w 1), Param.hexDigit (nibble w 0)]

/-- The nine bytes of PRTIME: high word, low word, carriage return (R175). -/
def timeText (lo hi : Word16) : List Byte := hex16 hi ++ hex16 lo ++ [Param.crByte]

end Sys2Proof.Machine
end

