-- ==== Sys2Proof/Machine/Console.lean ====
section
/-! DEFINITION. GETCH and PUTCH (spec/42_command_dispatch.md R172, R173). -/

namespace Sys2Proof.Machine

/-- GETCH (R172): the next input byte to `M[CMD_ARG]`; with nothing to read it waits in the raw receive (R205). -/
def execGetch (s : State) : Host.Outcome State Fault Refusal :=
  match getchBegin s with
  | some r => .next (r.state.bodyLeft (r.left ++ [.busWrite (argAddr 0) r.result]))
  | none => .next (s.bodyLeft [.recvArg])

/-- PUTCH (R173): read `M[CMD_ARG]`, then transmit it. -/
def execPutch (s : State) : Host.Outcome State Fault Refusal :=
  let r := busRead (argAddr 0) s
  .next (r.state.bodyLeft (r.left ++ [.tx r.result]))

end Sys2Proof.Machine
end

