-- ==== Sys2Proof/Machine/Control.lean ====
section
/-! DEFINITION. EXIT (spec/42_command_dispatch.md R171). -/

namespace Sys2Proof.Machine

/-- EXIT (R171): hand 0x19 to the transmitter, then clear `run`. The pass around it goes on to Release. Like every
meaning, this is the command's first micro-step, with the others left in `pos` (R8). -/
def execExit (s : State) : Host.Outcome State Fault Refusal :=
  .next (stepBody [.tx Param.exitByte, .clearRun] s)

end Sys2Proof.Machine
end

