-- ==== Sys2Proof/Machine/Time.lean ====
section
/-! DEFINITION. GETTIME and PRTIME (spec/42_command_dispatch.md R174, R175). -/

namespace Sys2Proof.Machine

/-- GETTIME (R174): one `get_time`, then its four bytes to `M[CMD_ARG..CMD_ARG+3]`. -/
def execGettime (s : State) : Host.Outcome State Fault Refusal :=
  let t := s.getTime
  .next (t.bodyLeft (timeWrites t.clock.snapLo t.clock.snapHi))

/-- PRTIME (R175): one `get_time`, then nine transmissions. -/
def execPrtime (s : State) : Host.Outcome State Fault Refusal :=
  let t := s.getTime
  .next (t.bodyLeft ((timeText t.clock.snapLo t.clock.snapHi).map .tx))

end Sys2Proof.Machine
end

