-- ==== Sys2Proof/Machine/Unknown.lean ====
section
/-! DEFINITION. The unknown codes 0x05 to 0xFF (spec/42_command_dispatch.md R176, 60_exceptions.md R252): each row of
the opcode table raises UnknownCommand and nothing else. -/

namespace Sys2Proof.Machine

/-- `DoUnknown()` (R176): raise UnknownCommand. -/
def doUnknown (s : State) : State := stepBody (raise .unknownCommand) s

/-- Code 0x05. -/
def execUnknown05 (s : State) : Host.Outcome State Fault Refusal := .next (doUnknown s)

/-- Codes 0x06 to 0x07. -/
def execUnknown06 (_c : Nat) (s : State) : Host.Outcome State Fault Refusal := .next (doUnknown s)

/-- Codes 0x08 to 0x0F. -/
def execUnknown08 (_c : Nat) (s : State) : Host.Outcome State Fault Refusal := .next (doUnknown s)

/-- Codes 0x10 to 0x1F. -/
def execUnknown10 (_c : Nat) (s : State) : Host.Outcome State Fault Refusal := .next (doUnknown s)

/-- Codes 0x20 to 0x3F. -/
def execUnknown20 (_c : Nat) (s : State) : Host.Outcome State Fault Refusal := .next (doUnknown s)

/-- Codes 0x40 to 0x7F. -/
def execUnknown40 (_c : Nat) (s : State) : Host.Outcome State Fault Refusal := .next (doUnknown s)

/-- Codes 0x80 to 0xFF. -/
def execUnknown80 (_c : Nat) (s : State) : Host.Outcome State Fault Refusal := .next (doUnknown s)

end Sys2Proof.Machine
end

