-- ==== Sys2Proof/Machine/Dispatch.lean ====
section
/-! DEFINITION. Dispatch(c), one arm per command (spec/42_command_dispatch.md R170). -/

namespace Sys2Proof.Machine

/-- Run a command (R170): the first micro-step of its behaviour, what is left of it standing in `pos` (R8). -/
def exec (i : Instr) (s : State) : Host.Outcome State Fault Refusal :=
  match i with
  | .exit => Sys2Proof.Machine.execExit s
  | .getch => Sys2Proof.Machine.execGetch s
  | .putch => Sys2Proof.Machine.execPutch s
  | .gettime => Sys2Proof.Machine.execGettime s
  | .prtime => Sys2Proof.Machine.execPrtime s
  | .unknown05 => Sys2Proof.Machine.execUnknown05 s
  | .unknown06 c => Sys2Proof.Machine.execUnknown06 c s
  | .unknown08 c => Sys2Proof.Machine.execUnknown08 c s
  | .unknown10 c => Sys2Proof.Machine.execUnknown10 c s
  | .unknown20 c => Sys2Proof.Machine.execUnknown20 c s
  | .unknown40 c => Sys2Proof.Machine.execUnknown40 c s
  | .unknown80 c => Sys2Proof.Machine.execUnknown80 c s

end Sys2Proof.Machine
end

