-- ==== Sys2Proof/WellFormed.lean ====
section
/-! DEFINITION. Which terms of `Instr` stand for a command byte: the free bits of an UNKNOWN row fit the row's field
(spec/30_encoding.md R100, spec/opcode_table.json). -/

namespace Sys2Proof

/-- How many free bits the opcode-table row of a constructor has. -/
def Instr.freeBits : Instr → Nat
  | .exit => 0
  | .getch => 0
  | .putch => 0
  | .gettime => 0
  | .prtime => 0
  | .unknown05 => 0
  | .unknown06 _ => 1
  | .unknown08 _ => 3
  | .unknown10 _ => 4
  | .unknown20 _ => 5
  | .unknown40 _ => 6
  | .unknown80 _ => 7

/-- The number the free bits spell (0 where the row has none). -/
def Instr.freeValue : Instr → Nat
  | .exit => 0
  | .getch => 0
  | .putch => 0
  | .gettime => 0
  | .prtime => 0
  | .unknown05 => 0
  | .unknown06 c => c
  | .unknown08 c => c
  | .unknown10 c => c
  | .unknown20 c => c
  | .unknown40 c => c
  | .unknown80 c => c

/-- The free bits fit their field. -/
abbrev Instr.WellFormed (i : Instr) : Prop := i.freeValue < 2 ^ i.freeBits

end Sys2Proof
end

