-- ==== Sys2Proof/Decode.lean ====
section
/-! DEFINITION. The decoder and the encoder of the one command format CMD8 (spec/30_encoding.md R90, R91, R92, R100).
Decoding a byte is total: every value 0x00 to 0xFF is one of the commands or unknown. The only thing a decoder can
reject is that there is no byte, and it says so by name. -/

namespace Sys2Proof

/-- Why bytes are no command. -/
inductive DecodeError where
  /-- There is no byte to decode: a command is exactly one byte (R90). -/
  | noByte
  deriving DecidableEq, Repr

/-- The low `n` bits of a command byte, as a number. -/
def lowBits (n : Nat) (b : Byte) : Nat := b.toNat % 2 ^ n

/-- The command a byte selects (R91, R170): the whole byte is compared, unsigned. From bit 7 down, the highest set bit
names the UNKNOWN row; below 0x08 the value itself names the row. -/
def decodeByte (b : Byte) : Instr :=
  if b.getLsbD 7 then .unknown80 (lowBits 7 b)
  else if b.getLsbD 6 then .unknown40 (lowBits 6 b)
  else if b.getLsbD 5 then .unknown20 (lowBits 5 b)
  else if b.getLsbD 4 then .unknown10 (lowBits 4 b)
  else if b.getLsbD 3 then .unknown08 (lowBits 3 b)
  else if b = 0x00 then .exit
  else if b = 0x01 then .getch
  else if b = 0x02 then .putch
  else if b = 0x03 then .gettime
  else if b = 0x04 then .prtime
  else if b = 0x05 then .unknown05
  else .unknown06 (lowBits 1 b)

/-- Decode the first command of a byte string and give the rest back. -/
def decode : List Byte → Except DecodeError (Instr × List Byte)
  | [] => .error .noByte
  | b :: rest => .ok (decodeByte b, rest)

/-- The fixed bits of a constructor's row, `match` of spec/opcode_table.json. -/
def Instr.rowMatch : Instr → Byte
  | .exit => 0x00
  | .getch => 0x01
  | .putch => 0x02
  | .gettime => 0x03
  | .prtime => 0x04
  | .unknown05 => 0x05
  | .unknown06 _ => 0x06
  | .unknown08 _ => 0x08
  | .unknown10 _ => 0x10
  | .unknown20 _ => 0x20
  | .unknown40 _ => 0x40
  | .unknown80 _ => 0x80

/-- Which bits the row fixes, `mask` of spec/opcode_table.json. -/
def Instr.rowMask : Instr → Byte
  | .exit => 0xFF
  | .getch => 0xFF
  | .putch => 0xFF
  | .gettime => 0xFF
  | .prtime => 0xFF
  | .unknown05 => 0xFF
  | .unknown06 _ => 0xFE
  | .unknown08 _ => 0xF8
  | .unknown10 _ => 0xF0
  | .unknown20 _ => 0xE0
  | .unknown40 _ => 0xC0
  | .unknown80 _ => 0x80

/-- The (match, mask) pairs of spec/opcode_table.json, in the table's order. -/
def opcodeRows : List (Byte × Byte) :=
  [(0x00, 0xFF), (0x01, 0xFF), (0x02, 0xFF), (0x03, 0xFF), (0x04, 0xFF), (0x05, 0xFF),
   (0x06, 0xFE), (0x08, 0xF8), (0x10, 0xF0), (0x20, 0xE0), (0x40, 0xC0), (0x80, 0x80)]

/-- A byte fits a row of the table. -/
def fitsRow (b : Byte) (row : Byte × Byte) : Bool := b &&& row.2 == row.1

/-- The one byte of a well-formed command: the row's fixed bits with the free bits below them. -/
def encodeByte (i : Instr) : Byte := i.rowMatch ||| BitVec.ofNat 8 i.freeValue

/-- The bytes of a well-formed command. -/
def encode (i : Instr) : List Byte := [encodeByte i]

/-- The command this decoder reads from an opcode-table word of `nbits` bits: the word is one byte, bit 0 its least
significant bit, and every bit above `nbits` is 0. -/
def decodeTableWord (nbits w : Nat) : Option Instr :=
  match decode [BitVec.ofNat 8 (w % 2 ^ nbits)] with
  | .ok (i, _) => some i
  | .error _ => none

end Sys2Proof
end

