-- ==== Sys2Proof/Machine/Handshake.lean ====
section
/-! DEFINITION. The steps of the command loop other than Dispatch (spec/41_handshake_fsm.md R140 to R155). -/

namespace Sys2Proof.Machine

/-- `IdleStep` up to the RDY sample begins: the first micro-step of one SerialPoll, its byte discarded (R141, R154). -/
def idlePoll (s : State) : State := (pollBegin s).state.pollLeft (pollBegin s).left

/-- `IdleStep` from the RDY sample on: transition T1 if the line is low (R141, R142). -/
def idleSampleStep (s : State) : State :=
  if s.rdyLine = .low then { s with fsm := .confirmRequest, pos := .loopHead }
  else { s with pos := .loopHead }

/-- `ConfirmStep` (R143): after the delay, T3 if RDY is still low (R145), otherwise the request was a glitch and T2
goes back to Idle, silently (R144, R253). -/
def confirmStep (s : State) : State :=
  let t := s.delay .debounce
  if t.rdyLine = .low then { t with fsm := .servicing, pos := .loopHead }
  else { t with fsm := .idle, pos := .loopHead }

/-- `Acquire()` (R146). -/
def acquire (s : State) : State := (s.pin (.rdyC .low)).pin (.busen .asserted)

/-- Acquire, the first step of a Servicing pass (R145). -/
def acquireStep (s : State) : State := { acquire s with pos := .fetch }

/-- The command byte has been read into `cmd`, and Dispatch is next (R147, R148). -/
def fetched (r : BusOut Byte) : State := { r.state with cmd := r.result, pos := .dispatch }

/-- The command fetch (R147): `cmd <- BusRead(COMMAND)`. Without ownership (outside the core) the refused read's marker
has first to be sent; then `cmd` is 0x00 (R125). -/
def fetchStep (s : State) : State :=
  let r := busRead Param.command s
  match r.left with
  | [] => fetched r
  | _ :: _ => r.state

/-- `Release()` (R149). -/
def releaseStep (s : State) : State :=
  { (s.pin (.busen .deasserted)).pin (.rdyC .released) with pos := .wakeLow }

/-- `WAKE <- low` (R150). -/
def wakeLowStep (s : State) : State := { s.pin (.wake .low) with pos := .wakeHigh }

/-- `Delay(WAKE_HOLD) ; WAKE <- high` (R150). -/
def wakeHighStep (s : State) : State := { (s.delay .wakeHold).pin (.wake .high) with pos := .passEnd }

/-- Transition T4 (R151). -/
def passEndStep (s : State) : State := { s with fsm := .idle, pos := .loopHead }

/-- The step at the head of the loop (R140): the loop test, then the case on `fsm`. With `run = 0` the loop returns
(R152). -/
def loopHeadStep (s : State) : State :=
  if s.run then
    match s.fsm with
    | .idle => idlePoll s
    | .confirmRequest => confirmStep s
    | .servicing => acquireStep s
  else { s with pos := .returned }

/-- `CommandLoop()` entered by the shell (R140, R292): `run <- 1`, `fsm <- Idle`, and `tx_log` begins anew (R38). -/
def enterLoop (s : State) : State :=
  { s with run := true, fsm := .idle, pos := .loopHead, serial := { s.serial with txLog := [] } }

end Sys2Proof.Machine
end

