-- ==== Sys2Proof/Machine/Environment.lean ====
section
/-! DEFINITION. The turns of the agents other than CTRL: TMR, TGT, HOSTRX, HOSTTX, SHELL (spec/00_scope.md R7, R8, R11,
R12; 41_handshake_fsm.md R156). An agent whose step is not enabled lets its turn pass and keeps what it had to do. -/

namespace Sys2Proof.Machine

/-- TMR: one Tick (R220). -/
def tmrTurn (s : State) : State := { s with clock := s.clock.tick }

/-- HOSTRX: deliver the host's next byte if the receiver is empty (R12, R37). -/
def hostRxTurn (s : State) : State :=
  match s.env.hostIn with
  | [] => s
  | v :: rest =>
    if s.serial.rxAvail then s
    else
      { s with
        serial := { s.serial with rxData := v, rxAvail := true }
        env := { s.env with hostIn := rest } }

/-- HOSTTX: the transmitter becomes ready (R11). -/
def hostTxTurn (s : State) : State := { s with serial := { s.serial with txReady := true } }

/-- SHELL: enter the command loop again once it has returned (R292, R294). -/
def shellTurn (s : State) : State := if s.pos = .returned then enterLoop s else s

/-- TGT: the next act of the target's script (R156). Accesses wait while the target may not access the bus; a request
waits while the controller owns it or is servicing (R156 item 2, R263); driving the bus where the contract forbids it is
a fault (R300). -/
def tgtTurn (s : State) : Host.Outcome State Fault Refusal :=
  match s.env.script with
  | [] => .next s
  | .store a v :: rest =>
    if s.targetMayAccess then .next { s.memWrite a v with env := { s.env with script := rest } } else .next s
  | .load a :: rest =>
    if s.targetMayAccess then
      .next { s with env := { s.env with script := rest, seen := s.env.seen ++ [(a, s.memRead a)] } }
    else .next s
  | .rdyLow :: rest =>
    if s.targetMayRequest then .next { s with rdyT := .low, env := { s.env with script := rest } } else .next s
  | .rdyRelease :: rest => .next { s with rdyT := .released, env := { s.env with script := rest } }
  | .driveBus :: rest =>
    if s.owner = .controller then .fault .busContention
    else if s.targetMayAccess then .next { s with env := { s.env with script := rest } }
    else .fault .targetContract

end Sys2Proof.Machine
end

