-- ==== Sys2Proof/Machine/Loop.lean ====
section
/-! DEFINITION. CTRL's step at each position of the command loop, and an agent's turn (spec/00_scope.md R7, R8;
41_handshake_fsm.md R140, R145, R148). -/

namespace Sys2Proof.Machine

/-- CTRL's next micro-step, by its position; at `dispatch` it is `exec` of the command `cmd` holds (R148, R170). After
the loop has returned CTRL has none (R152). -/
def ctrlStep (s : State) : Host.Outcome State Fault Refusal :=
  match s.pos with
  | .loopHead => .next (loopHeadStep s)
  | .polling ops => .next (stepPoll ops s)
  | .idleSample => .next (idleSampleStep s)
  | .fetch => .next (fetchStep s)
  | .dispatch => exec (decodeByte s.cmd) s
  | .command ops => .next (stepBody ops s)
  | .release => .next (releaseStep s)
  | .wakeLow => .next (wakeLowStep s)
  | .wakeHigh => .next (wakeHighStep s)
  | .passEnd => .next (passEndStep s)
  | .returned => .next s

/-- The step of the agent whose turn it is. -/
def agentStep (a : Agent) (s : State) : Host.Outcome State Fault Refusal :=
  match a with
  | .ctrl => ctrlStep s
  | .tmr => .next (tmrTurn s)
  | .tgt => tgtTurn s
  | .hostRx => .next (hostRxTurn s)
  | .hostTx => .next (hostTxTurn s)
  | .shell => .next (shellTurn s)

/-- The machine with the next turn taken off the list. -/
def State.popTurn (s : State) : State := { s with env := { s.env with turns := s.env.turns.tail } }

/-- Whose turn it is: the next agent of the list, CTRL when it is empty. -/
def State.nextAgent (s : State) : Agent := s.env.turns.headD .ctrl

/-- Take the pending overflow interrupt (R258, R260). -/
def State.takeInterrupt (s : State) : State := { s with clock := s.clock.takeInterrupt }

/-- One step of the machine: a pending enabled interrupt first (R260), then the agent whose turn it is. -/
def machineStep (s : State) : Host.Outcome State Fault Refusal :=
  if s.clock.interruptDue then .next s.takeInterrupt else agentStep s.nextAgent s.popTurn

/-- `s` with the bus acquired, a command byte at the command register, fetched from there, and Dispatch CTRL's very next
step: no turn listed before it and no interrupt due. -/
def State.placeCommand (s : State) (b : Byte) : State :=
  fetchStep
    { (acquire s).memWrite Param.command b with
      fsm := .servicing
      clock := { s.clock with ovfPending := false }
      env := { s.env with turns := [] } }

end Sys2Proof.Machine
end

