-- ==== Sys2Proof/Machine/Step.lean ====
section
/-! DEFINITION. The machine's step, and a machine made ready to run a given command next. -/

namespace Sys2Proof.Machine

/-- One step of the machine (spec/00_scope.md R8). -/
def step (s : State) : Host.Outcome State Fault Refusal := machineStep s

/-- `s` about to run the opcode-table word `w`, fetched from the command register, as its next command
(notes/assumptions/17.md). -/
def State.withFetchWord (s : State) (nbits w : Nat) : State :=
  s.placeCommand (BitVec.ofNat 8 (w % 2 ^ nbits))

end Sys2Proof.Machine
end

