-- ==== Sys2Proof/Safety.lean ====
section
/-! DEFINITION. The terms claims use: a legal pin trace, the invariant of the machine, the launch premise CleanEntry,
and the iterated operations (many polls, many ticks) the laws of spec/43 and spec/44 speak of. -/

namespace Sys2Proof.Machine

open Sys2Proof.Config (Line)

/-! ### Pin traces -/

/-- What a pin trace has led to: the lines, whether the window's command fetch is still to come, and whether a wake
pulse is owed to the target. -/
structure BusView where
  busen : Signal
  rdyC : Drive
  wake : Line
  /-- The address driven, none while the address drivers are off. -/
  addr : Option Byte
  /-- The data driven, none while the data drivers are off. -/
  data : Option Byte
  wr : Signal
  rd : Signal
  /-- A window is open and 0xF0 has not been read in it (R147). -/
  fetchDue : Bool
  /-- A window has closed and its wake pulse is not over (R150, R262). -/
  wakeDue : Bool
  deriving DecidableEq, Repr

/-- Nothing driven, the target owns the bus, no pulse owed (R141's invariant). -/
def BusView.idle : BusView where
  busen := .deasserted
  rdyC := .released
  wake := .high
  addr := none
  data := none
  wr := .deasserted
  rd := .deasserted
  fetchDue := false
  wakeDue := false

/-- Inside a window, between two transactions. -/
def BusView.window (fetchDue : Bool) : BusView :=
  { BusView.idle with busen := .asserted, rdyC := .low, fetchDue := fetchDue }

/-- An argument or result byte of the mailbox (R61). -/
def isArgAddr (a : Byte) : Bool := a == argAddr 0 || a == argAddr 1 || a == argAddr 2 || a == argAddr 3

/-- The addresses a transaction may name: COMMAND for the window's first (R147, R70), argument bytes afterwards. -/
def BusView.mayAddress (v : BusView) (a : Byte) : Bool :=
  if v.fetchDue then a == Param.command else isArgAddr a

/-- Both strobes are off. -/
def BusView.strobesOff (v : BusView) : Bool := v.wr == .deasserted && v.rd == .deasserted

/-- No driver is on and no strobe asserted (R129). -/
def BusView.undriven (v : BusView) : Bool := v.addr.isNone && v.data.isNone && v.strobesOff

/-- The view after a level change that is legal; none where it is not. The order is that of Acquire (R146), the read
and write sequences (R122, R126), Release (R149) and WakePulse (R150), each driver and strobe only with the bus owned
(R30), the first transaction a read of COMMAND (R147), one wake pulse after every window (R150, R262). -/
def BusView.after (v : BusView) : PinEvent → Option BusView
  | .rdyC .low =>
    if v.rdyC == .released && v.busen == .deasserted && !v.wakeDue then some { v with rdyC := .low } else none
  | .busen .asserted =>
    if v.rdyC == .low && v.busen == .deasserted && !v.wakeDue then
      some { v with busen := .asserted, fetchDue := true } else none
  | .busen .deasserted =>
    if v.busen == .asserted && v.undriven && !v.fetchDue then
      some { v with busen := .deasserted, wakeDue := true } else none
  | .rdyC .released =>
    if v.rdyC == .low && v.busen == .deasserted then some { v with rdyC := .released } else none
  | .wake .low =>
    if v.wakeDue && v.rdyC == .released && v.busen == .deasserted && v.wake == .high then
      some { v with wake := .low } else none
  | .wake .high => if v.wake == .low then some { v with wake := .high, wakeDue := false } else none
  | .addrOut a =>
    if v.busen == .asserted && v.addr.isNone && v.strobesOff && v.mayAddress a then
      some { v with addr := some a } else none
  | .dataOut d =>
    if v.busen == .asserted && v.addr.isSome && v.data.isNone && v.strobesOff && !v.fetchDue then
      some { v with data := some d } else none
  | .wr .asserted =>
    if v.busen == .asserted && v.addr.isSome && v.data.isSome && v.strobesOff then
      some { v with wr := .asserted } else none
  | .wr .deasserted => if v.wr == .asserted then some { v with wr := .deasserted } else none
  | .rd .asserted =>
    if v.busen == .asserted && v.addr.isSome && v.data.isNone && v.strobesOff then
      some { v with rd := .asserted } else none
  | .rd .deasserted => if v.rd == .asserted then some { v with rd := .deasserted } else none
  | .addrIn => if v.addr.isSome && v.strobesOff then some { v with addr := none, fetchDue := false } else none
  | .dataIn => if v.data.isSome && v.strobesOff then some { v with data := none } else none

/-- Follow a pin trace; none as soon as a change is not legal. -/
def replay : BusView → List PinEvent → Option BusView
  | v, [] => some v
  | v, e :: es =>
    match v.after e with
    | some w => replay w es
    | none => none

/-- The level changes of a BusWrite, in order (R122). -/
def writePins (a v : Byte) : List PinEvent :=
  [.addrOut a, .dataOut v, .wr .asserted, .wr .deasserted, .addrIn, .dataIn]

/-- The level changes of a BusRead, in order (R126). -/
def readPins (a : Byte) : List PinEvent := [.addrOut a, .rd .asserted, .rd .deasserted, .addrIn]

/-- The latches after a BusWrite: drivers off, strobe off, the output values last driven. -/
def Lines.afterWrite (l : Lines) (a v : Byte) : Lines :=
  { l with aDir := .input, aOut := a, dDir := .input, dOut := v, wr := .deasserted }

/-- The latches after a BusRead. -/
def Lines.afterRead (l : Lines) (a : Byte) : Lines := { l with aDir := .input, aOut := a, rd := .deasserted }

/-! ### The invariant -/

/-- What the pins show at a position of the loop. -/
def Position.busView : Position → BusView
  | .loopHead => BusView.idle
  | .polling _ => BusView.idle
  | .idleSample => BusView.idle
  | .fetch => BusView.window true
  | .dispatch => BusView.window false
  | .command _ => BusView.window false
  | .release => BusView.window false
  | .wakeLow => { BusView.idle with wakeDue := true }
  | .wakeHigh => { BusView.idle with wakeDue := true, wake := .low }
  | .passEnd => BusView.idle
  | .returned => BusView.idle

/-- A window has been opened whose wake pulse is not over (R150, R262). -/
def Position.owesPulse (p : Position) : Bool := p.busView.busen == .asserted || p.busView.wakeDue

/-- The latches agree with a view: same levels, a driver is on exactly where the view says what it drives. -/
def Lines.Shows (l : Lines) (v : BusView) : Prop :=
  l.busen = v.busen ∧ l.rdyC = v.rdyC ∧ l.wake = v.wake ∧ l.wr = v.wr ∧ l.rd = v.rd ∧
    v.addr = (if l.aDir = .output then some l.aOut else none) ∧
    v.data = (if l.dDir = .output then some l.dOut else none)

/-- The `fsm` and `run` values a position of the loop goes with (R140, R145, R152). -/
def Position.allows : Position → Fsm → Bool → Prop
  | .loopHead, f, run => run = true ∨ f = .idle
  | .polling _, f, run => f = .idle ∧ run = true
  | .idleSample, f, run => f = .idle ∧ run = true
  | .fetch, f, run => f = .servicing ∧ run = true
  | .dispatch, f, run => f = .servicing ∧ run = true
  | .command _, f, run => f = .servicing ∧ run = true
  | .release, f, _ => f = .servicing
  | .wakeLow, f, _ => f = .servicing
  | .wakeHigh, f, _ => f = .servicing
  | .passEnd, f, _ => f = .servicing
  | .returned, f, run => f = .idle ∧ run = false

/-- The command byte has been fetched in the window that is open (R147). -/
def Position.afterFetch : Position → Bool
  | .dispatch => true
  | .command _ => true
  | .release => true
  | _ => false

/-- The micro-steps left at a position. -/
def Position.left : Position → List MicroOp
  | .polling ops => ops
  | .command ops => ops
  | _ => []

/-- What a micro-step does to the FIFO. -/
def MicroOp.onFifo : MicroOp → Fifo → Fifo
  | .bufStore b, f => f.store b
  | .wrAdvance, f => f.advanceWr
  | .countUp, f => f.countUp
  | .countDown, f => f.countDown
  | .tx _, f => f
  | .busWrite _ _, f => f
  | .recvArg, f => f
  | .clearRun, f => f

/-- The FIFO with what is left of the operation in progress carried out. -/
def State.settledFifo (s : State) : Fifo := s.pos.left.foldl (fun f op => op.onFifo f) s.fifo

/-- FIFO invariants (R35). -/
def Fifo.Inv (f : Fifo) : Prop :=
  f.count ≤ Config.fifoCap ∧ f.wr.val = (f.rd.val + f.count) % Config.fifoCap

/-- The time the last `get_time` took (R94). -/
def Clock.snapshot (c : Clock) : Word32 := c.snapHi ++ c.snapLo

/-- Byte `i` of the time the last `get_time` took, byte 0 the least significant (R64). -/
def Clock.snapByte (c : Clock) (i : Nat) : Byte := c.snapshot.extractLsb' (8 * i) 8

/-- The nine bytes PRTIME sends for that time (R175). -/
def Clock.snapText (c : Clock) : List Byte := timeText c.snapLo c.snapHi

/-- What a command has done when the micro-steps `ops` are left of it, whatever the other agents have done meanwhile
(R171 to R176): the bytes it has sent are the last of the serial output, and the bytes it has stored stand. Of GETCH's
byte, which it took from the FIFO or the receiver, the latches of its write tell. -/
def HasLeft (i : Instr) (ops : List MicroOp) (s : State) : Prop :=
  match i with
  | .exit =>
    ops = [.tx Param.exitByte, .clearRun] ∨ (ops = [.clearRun] ∧ [Param.exitByte] <:+ s.serial.txLog) ∨
      (ops = [] ∧ [Param.exitByte] <:+ s.serial.txLog ∧ s.run = false)
  | .getch =>
    (ops = [.recvArg] ∧ s.fifo.count = 0) ∨ (∃ b, ops = [.countDown, .busWrite (argAddr 0) b] ∧ 0 < s.fifo.count) ∨
      (∃ b, ops = [.busWrite (argAddr 0) b]) ∨
      (ops = [] ∧ s.lines.aOut = argAddr 0 ∧ s.memRead (argAddr 0) = s.lines.dOut)
  | .putch =>
    ops = [.tx (s.memRead (argAddr 0))] ∨ (ops = [] ∧ [s.memRead (argAddr 0)] <:+ s.serial.txLog)
  | .gettime =>
    ∃ n ≤ 4, ops = (timeWrites s.clock.snapLo s.clock.snapHi).drop n ∧
      ∀ i < n, s.memRead (argAddr i) = s.clock.snapByte i
  | .prtime => ∃ n ≤ 9, ops = (s.clock.snapText.drop n).map .tx ∧ s.clock.snapText.take n <:+ s.serial.txLog
  | .unknown05 => ops = [.tx Param.unknownMark] ∨ (ops = [] ∧ [Param.unknownMark] <:+ s.serial.txLog)
  | .unknown06 _ => ops = [.tx Param.unknownMark] ∨ (ops = [] ∧ [Param.unknownMark] <:+ s.serial.txLog)
  | .unknown08 _ => ops = [.tx Param.unknownMark] ∨ (ops = [] ∧ [Param.unknownMark] <:+ s.serial.txLog)
  | .unknown10 _ => ops = [.tx Param.unknownMark] ∨ (ops = [] ∧ [Param.unknownMark] <:+ s.serial.txLog)
  | .unknown20 _ => ops = [.tx Param.unknownMark] ∨ (ops = [] ∧ [Param.unknownMark] <:+ s.serial.txLog)
  | .unknown40 _ => ops = [.tx Param.unknownMark] ∨ (ops = [] ∧ [Param.unknownMark] <:+ s.serial.txLog)
  | .unknown80 _ => ops = [.tx Param.unknownMark] ∨ (ops = [] ∧ [Param.unknownMark] <:+ s.serial.txLog)

/-- The micro-steps left fit the operation the position stands in: of SerialPoll while polling, of the command in `cmd`
while it runs, none of it before Release. -/
def State.LeftFits (s : State) : Prop :=
  match s.pos with
  | .polling ops => ops ≠ [] ∧ ∃ b, ops <:+ [.bufStore b, .wrAdvance, .countUp]
  | .command ops => ops ≠ [] ∧ HasLeft (decodeByte s.cmd) ops s
  | .release => HasLeft (decodeByte s.cmd) [] s
  | _ => True

/-- What every reachable state meets: the pin trace is legal and has led to what the position says, the latches show
it, control state and micro-steps left fit the position, `cmd` holds the command register while its window is open,
`run` is 0 only after an EXIT, interrupts are enabled and none is pending (R42, R43), the FIFO meets its invariants
once the operation in progress is done (R35), and the memory is in its canonical form. -/
structure State.Inv (s : State) : Prop where
  trace : replay BusView.idle s.pins = some s.pos.busView
  lines : s.lines.Shows s.pos.busView
  control : s.pos.allows s.fsm s.run
  left : s.LeftFits
  latched : s.pos.afterFetch = true → s.cmd = s.memRead Param.command
  halted : s.run = false → s.cmd = 0x00
  enabled : s.clock.ien = true
  noneDue : s.clock.ovfPending = false
  fifo : s.settledFifo.Inv
  cap : s.fifo.count ≤ Config.fifoCap
  mem : s.mem.wf = true

/-- A command takes a micro-step from `s` to `t`: its first, made by Dispatch in any state, or a later one, from a state
of the invariant. -/
def Takes (i : Instr) (s t : State) : Prop :=
  exec i s = .next t ∨
    (s.Inv ∧ decodeByte s.cmd = i ∧ (∃ ops, s.pos = .command ops) ∧ ctrlStep s = .next t)

/-- `CleanEntry`, the launch premise of the command loop (R291). -/
structure State.CleanEntry (s : State) : Prop where
  busen : s.lines.busen = .deasserted
  rdyC : s.lines.rdyC = .released
  wake : s.lines.wake = .high
  aDir : s.lines.aDir = .input
  dDir : s.lines.dDir = .input
  wr : s.lines.wr = .deasserted
  rd : s.lines.rd = .deasserted
  ien : s.clock.ien = true
  noneDue : s.clock.ovfPending = false
  fifo : s.fifo.Inv
  txLog : s.serial.txLog = []

/-! ### Iterated operations -/

/-- A byte arrives in the empty receiver and one SerialPoll takes it (spec/95_test_vectors.md, "poll b"). -/
def State.receive (s : State) (b : Byte) : State :=
  (serialPoll { s with serial := { s.serial with rxAvail := true, rxData := b } }).1

/-- Bytes arrive one after another, each polled before the next. -/
def State.receiveAll (s : State) (bs : List Byte) : State := bs.foldl State.receive s

/-- `n` getch calls one after another: the bytes they give, in order, and the state they leave; none if one of them
would have to wait (R204). -/
def getchCalls : Nat → State → Option (List Byte × State)
  | 0, s => some ([], s)
  | n + 1, s =>
    match getch s with
    | none => none
    | some (b, t) =>
      match getchCalls n t with
      | none => none
      | some (bs, u) => some (b :: bs, u)

/-- `n` Ticks. -/
def Clock.ticks : Nat → Clock → Clock
  | 0, c => c
  | n + 1, c => Clock.ticks n c.tick

/-- The environment lets CTRL move until further notice: no turn is listed and no interrupt is due. -/
def State.Quiet (s : State) : Prop := s.env.turns = [] ∧ s.clock.interruptDue = false

end Sys2Proof.Machine
end

