-- ==== Sys2Proof/Certificates/Slice0/Obligations.lean ====
section
/-! DEFINITION. The statements for the provers. Each docstring names the rule of spec/ it formalises; where a clause
rests on a decision of the spec (D<n> of 92_eei_decisions.md) or on a choice of the model, it says so. -/

open Sys2Proof Sys2Proof.Machine

/-! ### Encoding -/

/-- Words written out from the code table of R91: one for each row. A sanity statement. -/
def Obligations.TableWordsDecodeToTheirCommands : Prop :=
  decode [0b00000000#8] = .ok (.exit, []) ∧ decode [0b00000001#8] = .ok (.getch, []) ∧
  decode [0b00000010#8] = .ok (.putch, []) ∧ decode [0b00000011#8] = .ok (.gettime, []) ∧
  decode [0b00000100#8] = .ok (.prtime, []) ∧ decode [0b00000101#8] = .ok (.unknown05, []) ∧
  decode [0b00000111#8] = .ok (.unknown06 1, []) ∧ decode [0b00001110#8] = .ok (.unknown08 6, []) ∧
  decode [0b00011001#8] = .ok (.unknown10 9, []) ∧ decode [0b00110010#8] = .ok (.unknown20 18, []) ∧
  decode [0b01100011#8] = .ok (.unknown40 35, []) ∧ decode [0b10000001#8] = .ok (.unknown80 1, []) ∧
  decode [] = .error .noByte

/-- Decoding is total and unambiguous (R100): every byte lies in exactly one row of the table, the decoder gives a
well-formed command of that row, and encoding it gives the byte back. -/
def Obligations.EveryByteIsExactlyOneCommand : Prop :=
  ∀ b : Byte, (opcodeRows.filter (fitsRow b)).length = 1 ∧ (decodeByte b).WellFormed ∧
    ((decodeByte b).rowMatch, (decodeByte b).rowMask) ∈ opcodeRows ∧
    fitsRow b ((decodeByte b).rowMatch, (decodeByte b).rowMask) = true ∧ encode (decodeByte b) = [b]

/-- Decode and encode agree for every well-formed command (R90, R91, R100), whatever bytes follow. -/
def Obligations.EncodeThenDecodeGivesCommandBack : Prop :=
  ∀ (i : Instr), i.WellFormed → ∀ rest : List Byte, decode (encode i ++ rest) = .ok (i, rest)

/-! ### A step runs the decoded command -/

/-- The command fetch and Dispatch (R147, R148, R170). On CTRL's turn, with the bus owned, the step at the fetch reads
the byte at 0xF0 into `cmd` and nothing else; and the step at Dispatch, on CTRL's turn, is `exec` of the command that
byte decodes to, with only the turn taken off the list. -/
def Obligations.StepRunsTheFetchedCommand : Prop :=
  ∀ s : State, s.clock.interruptDue = false → s.nextAgent = .ctrl →
    (s.pos = .fetch → s.lines.busen = .asserted →
      step s =
        .next { s with
          lines := { s.lines with aDir := .input, aOut := 0xF0, rd := .deasserted }
          pins := s.pins ++ [.addrOut 0xF0, .rd .asserted, .rd .deasserted, .addrIn]
          cmd := s.mem.read 0xF0
          pos := .dispatch
          env := { s.env with turns := s.env.turns.tail } }) ∧
    (s.pos = .dispatch →
      step s = exec (decodeByte s.cmd) { s with env := { s.env with turns := s.env.turns.tail } })

/-- The model's own loading convention (notes/assumptions/17.md): a byte placed by `withFetchWord` stands at 0xF0, has
been fetched into `cmd`, and is the command the very next step runs. -/
def Obligations.PlacedByteIsTheNextCommand : Prop :=
  ∀ (s : State) (w : Nat), w < 256 → ∃ i, decodeTableWord 8 w = some i ∧ i.WellFormed ∧
    step (s.withFetchWord 8 w) = exec i (s.withFetchWord 8 w) ∧
    (s.withFetchWord 8 w).cmd = BitVec.ofNat 8 w ∧ (s.withFetchWord 8 w).mem.read 0xF0 = BitVec.ofNat 8 w ∧
    (∀ a, a ≠ 0xF0 → (s.withFetchWord 8 w).mem.read a = s.mem.read a) ∧
    (s.withFetchWord 8 w).serial = s.serial ∧ (s.withFetchWord 8 w).fifo = s.fifo

/-! ### The commands

`exec` makes a command's first micro-step (R8), and `pos` keeps the others. A statement about a command's result says
what `exec` answers, in any state it names, and what the whole command comes to when CTRL alone goes on from there
(`Quiet`). `CommandsLeaveTheirResults` says what it has come to whatever the other agents have done meanwhile. -/

/-- EXIT (R171; the flag `run` and the order are decisions D5, D27): 0x19 is handed to the transmitter, then `run` is
cleared, and nothing else happens; while the transmitter is not ready the command waits with both still to do. -/
def Obligations.ExitTransmitsAckThenClearsRun : Prop :=
  ∀ s : State,
    (s.serial.txReady = true →
      ∃ t, exec .exit s = .next t ∧
        t = { s with
          serial := { s.serial with txLog := s.serial.txLog ++ [0x19], txReady := false }
          pos := .command [.clearRun] } ∧
        (s.Quiet → core.run 1 t = .next { t with run := false, pos := .release })) ∧
    (s.serial.txReady = false → exec .exit s = .next { s with pos := .command [.tx 0x19, .clearRun] })

/-- GETCH with a buffered byte (R172, R204): the oldest buffered byte leaves the FIFO and is stored at 0xF1; the
receiver is not looked at (D26). The pin order, address before data, is decision D15 (R122, notes/assumptions/20.md).
-/
def Obligations.GetchDeliversTheOldestBufferedByte : Prop :=
  ∀ s : State, s.lines.busen = .asserted → 0 < s.fifo.count →
    ∃ b rest t, s.fifo.contents = b :: rest ∧ exec .getch s = .next t ∧
      t = { s with
        fifo := { s.fifo with rd := s.fifo.rd + 1 }
        pos := .command [.countDown, .busWrite 0xF1 b] } ∧
      (s.Quiet → ∃ u, core.run 2 t = .next u ∧
        u = { s with
          fifo := { s.fifo with rd := s.fifo.rd + 1, count := s.fifo.count - 1 }
          lines := { s.lines with aDir := .input, aOut := 0xF1, dDir := .input, dOut := b, wr := .deasserted }
          mem := s.mem.write 0xF1 b
          pins := s.pins ++ [.addrOut 0xF1, .dataOut b, .wr .asserted, .wr .deasserted, .addrIn, .dataIn]
          pos := .release } ∧
        u.fifo.contents = rest ∧ u.mem.read 0xF1 = b ∧ ∀ a, a ≠ 0xF1 → u.mem.read a = s.mem.read a)

/-- GETCH with an empty FIFO (R172, R205): it takes the receiver's byte, past the FIFO, and stores it at 0xF1; with no
byte there it waits, the bus still held, and takes the byte at the first of its steps that finds one. The pin order,
address before data, is decision D15 (R122, notes/assumptions/20.md). -/
def Obligations.GetchFallsBackToTheRawReceiver : Prop :=
  ∀ s : State, s.lines.busen = .asserted → s.fifo.count = 0 →
    (s.serial.rxAvail = true →
      ∃ t, exec .getch s = .next t ∧
        t = { s with
          serial := { s.serial with rxAvail := false }
          pos := .command [.busWrite 0xF1 s.serial.rxData] } ∧
        (s.Quiet → ∃ u, core.run 1 t = .next u ∧
          u = { s with
            serial := { s.serial with rxAvail := false }
            lines :=
              { s.lines with aDir := .input, aOut := 0xF1, dDir := .input, dOut := s.serial.rxData, wr := .deasserted }
            mem := s.mem.write 0xF1 s.serial.rxData
            pins := s.pins ++
              [.addrOut 0xF1, .dataOut s.serial.rxData, .wr .asserted, .wr .deasserted, .addrIn, .dataIn]
            pos := .release } ∧
          u.mem.read 0xF1 = s.serial.rxData ∧ ∀ a, a ≠ 0xF1 → u.mem.read a = s.mem.read a)) ∧
    (s.serial.rxAvail = false →
      exec .getch s = .next { s with pos := .command [.recvArg] } ∧
      ctrlStep { s with pos := .command [.recvArg] } = .next { s with pos := .command [.recvArg] } ∧
      ∀ b : Byte, ctrlStep
          { s with pos := .command [.recvArg], serial := { s.serial with rxAvail := true, rxData := b } } =
        exec .getch { s with serial := { s.serial with rxAvail := true, rxData := b } })

/-- PUTCH (R173): the byte at 0xF1 is read (the pins are R126) and handed to the transmitter unchanged, whatever its
value; memory is not modified. While the transmitter is not ready the byte read is still to send. -/
def Obligations.PutchTransmitsTheArgumentByte : Prop :=
  ∀ s : State, s.lines.busen = .asserted →
    ∃ t, exec .putch s = .next t ∧
      t = { s with
        lines := { s.lines with aDir := .input, aOut := 0xF1, rd := .deasserted }
        pins := s.pins ++ [.addrOut 0xF1, .rd .asserted, .rd .deasserted, .addrIn]
        pos := .command [.tx (s.mem.read 0xF1)] } ∧
      (s.Quiet → s.serial.txReady = true →
        core.run 1 t =
          .next { t with
            serial := { s.serial with txLog := s.serial.txLog ++ [s.mem.read 0xF1], txReady := false }
            pos := .release }) ∧
      (s.Quiet → s.serial.txReady = false → core.run 1 t = .next t)

/-- GETTIME (R174, R64): the four bytes of the time at the one instant of `get_time` are stored at 0xF1 to 0xF4, least
significant first; every other byte of memory, the serial port, the FIFO and the counter are as before. That get_time is
one instant is decision D11 (R227, notes/assumptions/9.md); the pin order, address before data, is decision D15 (R122,
notes/assumptions/20.md). -/
def Obligations.GettimeStoresTheTimeLittleEndian : Prop :=
  ∀ s : State, s.lines.busen = .asserted → s.clock.ien = true → s.clock.ovfPending = false →
    ∃ t, exec .gettime s = .next t ∧
      t = { s with
        clock := { s.clock with snapLo := s.clock.tlo, snapHi := s.clock.thi }
        pos := .command
          [.busWrite 0xF1 (s.clock.tlo.extractLsb' 0 8), .busWrite 0xF2 (s.clock.tlo.extractLsb' 8 8),
           .busWrite 0xF3 (s.clock.thi.extractLsb' 0 8), .busWrite 0xF4 (s.clock.thi.extractLsb' 8 8)] } ∧
      (s.Quiet → ∃ u, core.run 4 t = .next u ∧ u.pos = .release ∧
        (∀ i < 4, u.mem.read (0xF1 + i) = s.clock.time.extractLsb' (8 * i) 8) ∧
        (∀ a, a < 0xF1 ∨ 0xF4 < a → u.mem.read a = s.mem.read a) ∧
        u.clock = t.clock ∧ u.serial = s.serial ∧ u.fifo = s.fifo ∧ u.fsm = s.fsm ∧ u.cmd = s.cmd ∧ u.run = s.run ∧
        u.env = s.env ∧ u.rdyT = s.rdyT ∧
        u.lines =
          { s.lines with
            aDir := .input, aOut := 0xF4, dDir := .input, dOut := s.clock.thi.extractLsb' 8 8, wr := .deasserted } ∧
        u.pins = s.pins ++ writePins 0xF1 (s.clock.tlo.extractLsb' 0 8) ++
          writePins 0xF2 (s.clock.tlo.extractLsb' 8 8) ++ writePins 0xF3 (s.clock.thi.extractLsb' 0 8) ++
          writePins 0xF4 (s.clock.thi.extractLsb' 8 8))

/-- PRTIME (R175, R178; the digit characters are HEX_DIGIT, decision D9): the command takes the time once and has nine
bytes to send, eight hex characters and 0x0D; with the transmitter made ready before each of CTRL's next nine steps,
exactly these nine bytes are sent and the command is over. That get_time is one instant is decision D11 (R227,
notes/assumptions/9.md). -/
def Obligations.PrtimePrintsTheTimeInHex : Prop :=
  ∀ (s : State) (rest : List Agent) (text : List Byte), s.clock.ien = true → s.clock.ovfPending = false →
    text =
      [Param.hexDigit (s.clock.thi.extractLsb' 12 4), Param.hexDigit (s.clock.thi.extractLsb' 8 4),
       Param.hexDigit (s.clock.thi.extractLsb' 4 4), Param.hexDigit (s.clock.thi.extractLsb' 0 4),
       Param.hexDigit (s.clock.tlo.extractLsb' 12 4), Param.hexDigit (s.clock.tlo.extractLsb' 8 4),
       Param.hexDigit (s.clock.tlo.extractLsb' 4 4), Param.hexDigit (s.clock.tlo.extractLsb' 0 4), 0x0D] →
    ∃ t, exec .prtime s = .next t ∧
      t = { s with
        clock := { s.clock with snapLo := s.clock.tlo, snapHi := s.clock.thi }
        pos := .command (text.map .tx) } ∧
      core.run 18 { t with env := { s.env with turns := (List.replicate 9 [Agent.hostTx, .ctrl]).flatten ++ rest } } =
        .next { t with
          serial := { s.serial with txReady := false, txLog := s.serial.txLog ++ text }
          pos := .release
          env := { s.env with turns := rest } }

/-- The unknown codes (R176, R252), every row and every value of its free bits: one `?` is handed to the transmitter
and nothing else changes; while the transmitter is not ready the command waits with the `?` still to send. -/
def Obligations.UnknownTransmitsTheMarkerOnly : Prop :=
  ∀ (s : State) (c : Nat) (i : Instr),
    i ∈ [Instr.unknown05, .unknown06 c, .unknown08 c, .unknown10 c, .unknown20 c, .unknown40 c, .unknown80 c] →
    (s.serial.txReady = true →
      exec i s =
        .next { s with
          serial := { s.serial with txLog := s.serial.txLog ++ [0x3F], txReady := false }
          pos := .release }) ∧
    (s.serial.txReady = false → exec i s = .next { s with pos := .command [.tx 0x3F] })

/-- The pass of an unknown code (R92, R176, R252): every byte 0x05 to 0xFF at the command register, from the fetch on,
sends one `?`, writes nothing, closes the window, pulses wake once and is back in Idle with `run` still as it was;
with the transmitter not ready it waits inside the window with the `?` to send. The end of the pass is R149 to R151,
and `BUSEN` before `RDY_c` before the pulse is decision D4 (notes/assumptions/20.md). -/
def Obligations.UnknownCodePassEndsLikeAnyOther : Prop :=
  ∀ s : State, s.Quiet → s.pos = .fetch → s.lines.busen = .asserted → 5 ≤ (s.mem.read 0xF0).toNat →
    (s.serial.txReady = true →
      core.run 6 s =
        .next { s with
          lines :=
            { s.lines with
              aDir := .input, aOut := 0xF0, rd := .deasserted, busen := .deasserted, rdyC := .released, wake := .high }
          cmd := s.mem.read 0xF0
          serial := { s.serial with txLog := s.serial.txLog ++ [0x3F], txReady := false }
          pins := s.pins ++
            [.addrOut 0xF0, .rd .asserted, .rd .deasserted, .addrIn, .busen .deasserted, .rdyC .released, .wake .low,
             .wake .high]
          fsm := .idle
          pos := .loopHead }) ∧
    (s.serial.txReady = false →
      core.run 2 s =
        .next { s with
          lines := { s.lines with aDir := .input, aOut := 0xF0, rd := .deasserted }
          cmd := s.mem.read 0xF0
          pins := s.pins ++ [.addrOut 0xF0, .rd .asserted, .rd .deasserted, .addrIn]
          pos := .command [.tx 0x3F] })

/-- What every command has come to at its end, whatever the other agents did between its micro-steps (R171 to R176):
from any state of the invariant, a step that leads to Release leaves the acknowledgement of an EXIT, the argument byte
of a PUTCH, the nine characters of a PRTIME and the `?` of an unknown code last on the serial output, the byte a GETCH
had to write at 0xF1, the four bytes of a GETTIME's time at 0xF1 to 0xF4, and `run` cleared by an EXIT. That a GETCH
has the byte it took to write is `GetchCarriesItsByteToTheMailbox`. -/
def Obligations.CommandsLeaveTheirResults : Prop :=
  ∀ s t : State, s.Inv → step s = .next t → t.pos = .release →
    (t.mem.read 0xF0 = 0x00 → [0x19] <:+ t.serial.txLog ∧ t.run = false) ∧
    (t.mem.read 0xF0 = 0x01 →
      t.lines.aOut = 0xF1 ∧ t.mem.read 0xF1 = t.lines.dOut ∧
      ∀ b, s.pos = .command [.busWrite 0xF1 b] → t.mem.read 0xF1 = b) ∧
    (t.mem.read 0xF0 = 0x02 → [t.mem.read 0xF1] <:+ t.serial.txLog) ∧
    (t.mem.read 0xF0 = 0x03 →
      ∀ i < 4, t.mem.read (0xF1 + i) = (t.clock.snapHi ++ t.clock.snapLo).extractLsb' (8 * i) 8) ∧
    (t.mem.read 0xF0 = 0x04 → timeText t.clock.snapLo t.clock.snapHi <:+ t.serial.txLog) ∧
    (5 ≤ (t.mem.read 0xF0).toNat → [0x3F] <:+ t.serial.txLog)

/-- R177: no micro-step of a command, of whatever form, writes `BUSEN`, `RDY_c`, `WAKE` or `fsm`; nor the target's
drive, the command latch or what the environment has to do. -/
def Obligations.CommandsNeverTouchTheHandshake : Prop :=
  ∀ (i : Instr) (s t : State), Takes i s t →
    t.lines.busen = s.lines.busen ∧ t.lines.rdyC = s.lines.rdyC ∧ t.lines.wake = s.lines.wake ∧ t.fsm = s.fsm ∧
    t.rdyT = s.rdyT ∧ t.cmd = s.cmd ∧ t.env = s.env

/-- Frame of the commands that store nothing (R179), at each of their micro-steps: EXIT, PUTCH, PRTIME and the unknown
codes leave every byte of memory, the FIFO and the receiver alone, and the transmit log but for bytes behind it; all
but PRTIME leave the clock alone, and PRTIME its counter (with interrupts enabled and none pending); all but EXIT
leave `run` alone; all but PUTCH leave every line and pin alone. -/
def Obligations.NonStoringCommandsFrame : Prop :=
  ∀ (i : Instr) (s t : State), i ≠ .getch → i ≠ .gettime → Takes i s t →
    (∀ a, t.mem.read a = s.mem.read a) ∧ t.fifo = s.fifo ∧ t.serial.rxAvail = s.serial.rxAvail ∧
    t.serial.rxData = s.serial.rxData ∧ (i ≠ .prtime → t.clock = s.clock) ∧
    (s.clock.ien = true → s.clock.ovfPending = false → t.clock.tlo = s.clock.tlo ∧ t.clock.thi = s.clock.thi ∧
      t.clock.ien = true ∧ t.clock.ovfPending = false) ∧
    (i ≠ .exit → t.run = s.run) ∧ (i ≠ .putch → t.lines = s.lines ∧ t.pins = s.pins) ∧
    t.lines.dDir = s.lines.dDir ∧ t.lines.dOut = s.lines.dOut ∧ t.lines.wr = s.lines.wr ∧
    s.serial.txLog <+: t.serial.txLog

/-- Frame of the commands that store (R172, R174, R179), at each of their micro-steps: GETCH changes no byte but the
one at `CMD_ARG`, GETTIME none but the four from `CMD_ARG` on; neither clears `run`, touches `RD`, or takes anything
out of the transmit log, and with the bus owned neither touches the transmitter at all; GETTIME leaves the FIFO and
the receiver alone, GETCH the clock. -/
def Obligations.StoringCommandsFrame : Prop :=
  ∀ s t : State,
    (Takes .getch s t →
      (∀ a : Byte, a ≠ argAddr 0 → t.memRead a = s.memRead a) ∧ t.run = s.run ∧ t.clock = s.clock ∧
      t.lines.rd = s.lines.rd ∧ t.serial.rxData = s.serial.rxData ∧ s.serial.txLog <+: t.serial.txLog ∧
      (s.lines.busen = .asserted → t.serial.txLog = s.serial.txLog ∧ t.serial.txReady = s.serial.txReady)) ∧
    (Takes .gettime s t →
      (∀ a : Byte, (∀ i < 4, a ≠ argAddr i) → t.memRead a = s.memRead a) ∧ t.run = s.run ∧ t.fifo = s.fifo ∧
      t.serial.rxAvail = s.serial.rxAvail ∧ t.serial.rxData = s.serial.rxData ∧ t.lines.rd = s.lines.rd ∧
      s.serial.txLog <+: t.serial.txLog ∧
      (s.lines.busen = .asserted → t.serial.txLog = s.serial.txLog ∧ t.serial.txReady = s.serial.txReady))

/-- The guard seen from the commands (R132, R251): run without ownership, no command and no micro-step left of one
changes a line, a strobe, a pin or a byte of memory. -/
def Obligations.CommandsWithoutOwnershipNeverReachTheBus : Prop :=
  ∀ (i : Instr) (ops : List MicroOp) (s t : State), s.lines.busen = .deasserted →
    exec i s = .next t ∨ (s.pos = .command ops ∧ ctrlStep s = .next t) →
    t.lines = s.lines ∧ t.pins = s.pins ∧ t.mem = s.mem

/-- `SerialTx` waits (R11, D19): a command with a byte to send makes no step while the transmitter is not ready. -/
def Obligations.TransmissionWaitsForTheTransmitter : Prop :=
  ∀ (s : State) (b : Byte) (ops : List MicroOp), s.Quiet → s.pos = .command (.tx b :: ops) →
    s.serial.txReady = false → step s = .next s

/-- Bytes left to send go out in order, one for each time the transmitter becomes ready (R11, D19), and then the
command is over: for any number of bytes. -/
def Obligations.PendingBytesAreSentInOrder : Prop :=
  ∀ (bs : List Byte) (s : State) (rest : List Agent), bs ≠ [] → s.pos = .command (bs.map .tx) →
    s.clock.interruptDue = false →
    s.env.turns = (List.replicate bs.length [Agent.hostTx, .ctrl]).flatten ++ rest →
    core.run (2 * bs.length) s =
      .next { s with
        serial := { s.serial with txLog := s.serial.txLog ++ bs, txReady := false }
        pos := .release
        env := { s.env with turns := rest } }

/-! ### Bus transport -/

/-- The round-trip law (R131, R65): while ownership is held, a read gives the byte just written, and reads of every
other address give what they gave before the write. -/
def Obligations.WriteThenReadRoundTrips : Prop :=
  ∀ (s : State) (a v : Byte), s.lines.busen = .asserted →
    (busRead a (busWrite a v s).state).result = v ∧
    ∀ b, b ≠ a → (busRead b (busWrite a v s).state).result = (busRead b s).result

/-- The no-perturbation law and the two guards (R121, R125, R132): a refused access sends one `!` and touches nothing
else; a write reports the failure, a read gives 0. While the transmitter is not ready the marker is still to send. -/
def Obligations.RefusedAccessOnlySendsTheMarker : Prop :=
  ∀ (s : State) (a v : Byte), s.lines.busen = .deasserted →
    (busWrite a v s).result = .guardFailure ∧ (busRead a s).result = 0x00 ∧
    (s.serial.txReady = true →
      (busWrite a v s).left = [] ∧ (busRead a s).left = [] ∧
      (busWrite a v s).state =
        { s with serial := { s.serial with txLog := s.serial.txLog ++ [0x21], txReady := false } } ∧
      (busRead a s).state =
        { s with serial := { s.serial with txLog := s.serial.txLog ++ [0x21], txReady := false } }) ∧
    (s.serial.txReady = false →
      (busWrite a v s).left = [.tx 0x21] ∧ (busRead a s).left = [.tx 0x21] ∧ (busWrite a v s).state = s ∧
      (busRead a s).state = s)

/-- The write pin sequence (R122, R123; the address before the data is decision D15, notes/assumptions/20.md): address
and data are driven, `WR` is pulsed, both drivers are turned off. The addressed byte is stored, and nothing else
changes besides. -/
def Obligations.WritesFollowThePinSequence : Prop :=
  ∀ (s : State) (a v : Byte), s.lines.busen = .asserted →
    (busWrite a v s).result = .success ∧ (busWrite a v s).left = [] ∧
    (busWrite a v s).state =
      { s with
        lines := { s.lines with aDir := .input, aOut := a, dDir := .input, dOut := v, wr := .deasserted }
        mem := s.mem.write a.toNat v
        pins := s.pins ++ [.addrOut a, .dataOut v, .wr .asserted, .wr .deasserted, .addrIn, .dataIn] }

/-- The read pin sequence (R126): only the address is driven, `RD` is pulsed, the address driver is turned off; the data
drivers are not touched. The result is the byte at the address (R127), and memory does not change (R124). -/
def Obligations.ReadsFollowThePinSequence : Prop :=
  ∀ (s : State) (a : Byte), s.lines.busen = .asserted →
    (busRead a s).result = s.mem.read a.toNat ∧ (busRead a s).left = [] ∧
    (busRead a s).state =
      { s with
        lines := { s.lines with aDir := .input, aOut := a, rd := .deasserted }
        pins := s.pins ++ [.addrOut a, .rd .asserted, .rd .deasserted, .addrIn] }

/-- The drive invariant (R30), in every state of the invariant and at every moment of its pin history: a driver is on or
a strobe asserted only with the bus owned. A strobe is asserted only with the address driven, the write strobe only
with data driven, the read strobe never with data driven. -/
def Obligations.NothingIsDrivenWithoutOwnership : Prop :=
  ∀ s : State, s.Inv →
    ((s.lines.aDir = .output ∨ s.lines.dDir = .output ∨ s.lines.wr = .asserted ∨ s.lines.rd = .asserted) →
      s.lines.busen = .asserted) ∧
    ∀ es : List PinEvent, es <+: s.pins → ∃ v, replay BusView.idle es = some v ∧
      ((v.addr ≠ none ∨ v.data ≠ none ∨ v.wr = .asserted ∨ v.rd = .asserted) →
        v.busen = .asserted ∧ v.rdyC = .low) ∧
      (v.wr = .asserted → v.addr ≠ none ∧ v.data ≠ none) ∧ (v.rd = .asserted → v.addr ≠ none ∧ v.data = none)

/-- R150, R262, R149 over the machine's pin history, in every state of the invariant and after every step from one: as
many wake pulses have begun and ended as windows were opened, but for the window open or the pulse owed where CTRL
stands; a pulse is under way exactly at `wakeHigh`; every window opened has been closed but the one open. -/
def Obligations.OneWakePulseForEachWindow : Prop :=
  ∀ s t : State, s.Inv → (t = s ∨ step s = .next t) →
    t.pins.count (.busen .asserted) = t.pins.count (.wake .high) + (if t.pos.owesPulse then 1 else 0) ∧
    t.pins.count (.wake .low) = t.pins.count (.wake .high) + (if t.pos = .wakeHigh then 1 else 0) ∧
    t.pins.count (.busen .asserted) =
      t.pins.count (.busen .deasserted) + (if t.lines.busen = .asserted then 1 else 0)

/-! ### Handshake -/

/-- The Idle step (R141; the poll's place is decision D6): one SerialPoll, then the RDY sample. A poll that has
nothing to store is one micro-step, one that stores a byte is four, the byte out of the receiver first. -/
def Obligations.IdlePollsOnceThenSamples : Prop :=
  ∀ s u : State, s.Quiet → s.run = true → s.fsm = .idle → s.pos = .loopHead → s.fifo.count ≤ 255 →
    u = { (serialPoll s).1 with
      fsm := if s.rdyT = .low ∨ s.lines.rdyC = .low then .confirmRequest else .idle
      pos := .loopHead } →
    ((s.serial.rxAvail = false ∨ s.fifo.count = 255) →
      step s = .next { (serialPoll s).1 with pos := .idleSample } ∧ core.run 2 s = .next u) ∧
    (s.serial.rxAvail = true → s.fifo.count < 255 →
      step s =
        .next { s with
          serial := { s.serial with rxAvail := false }
          pos := .polling [.bufStore s.serial.rxData, .wrAdvance, .countUp] } ∧
      core.run 4 s = .next { (serialPoll s).1 with pos := .idleSample } ∧ core.run 5 s = .next u)

/-- Transition T1 (R142): the first low sample makes a candidate and does nothing else. -/
def Obligations.FirstLowSampleOnlyMakesACandidate : Prop :=
  ∀ s : State, s.Quiet → s.pos = .idleSample → s.rdyLine = .low →
    step s = .next { s with fsm := .confirmRequest, pos := .loopHead }

/-- Transition T2 (R144): a request gone at the second sample leaves no trace but `fsm` back in Idle. -/
def Obligations.GlitchHasNoSideEffect : Prop :=
  ∀ s : State, s.Quiet → s.run = true → s.pos = .loopHead → s.fsm = .confirmRequest → s.rdyLine = .high →
    step s = .next { s with fsm := .idle }

/-- Transition T3 and Acquire (R145; the order in Acquire is decision D3, notes/assumptions/20.md): a request
confirmed low takes the bus. -/
def Obligations.ConfirmedRequestTakesTheBus : Prop :=
  ∀ s : State, s.Quiet → s.run = true → s.pos = .loopHead → s.fsm = .confirmRequest → s.rdyLine = .low →
    core.run 2 s =
      .next { s with
        fsm := .servicing
        pos := .fetch
        lines := { s.lines with rdyC := .low, busen := .asserted }
        pins := s.pins ++ [.rdyC .low, .busen .asserted] }

/-- The end of a pass (R149, R150, R151; RDY released before the pulse is decision D4,
notes/assumptions/20.md): Release, one wake pulse, T4. -/
def Obligations.PassEndsWithReleaseThenOneWakePulse : Prop :=
  ∀ s : State, s.Quiet → s.pos = .release →
    core.run 4 s =
      .next { s with
        lines := { s.lines with busen := .deasserted, rdyC := .released, wake := .high }
        pins := s.pins ++ [.busen .deasserted, .rdyC .released, .wake .low, .wake .high]
        fsm := .idle
        pos := .loopHead }

/-- A whole pass, the worked example of R145 (spec/95 V3.2) for any argument byte: a confirmed PUTCH request, from the
confirm sample to Idle, with exactly these level changes at the pins and this byte on the serial output; with the
transmitter not ready it waits inside the window with the byte to send. `RDY_c` before `BUSEN` in Acquire is decision
D3, after it in Release decision D4 (notes/assumptions/20.md). -/
def Obligations.PutchPassMakesExactlyTheseMoves : Prop :=
  ∀ s : State, s.Quiet → s.run = true → s.pos = .loopHead → s.fsm = .confirmRequest → s.rdyT = .low →
    s.mem.read 0xF0 = 0x02 →
    (s.serial.txReady = true →
      core.run 9 s =
        .next { s with
          lines :=
            { s.lines with
              rdyC := .released, busen := .deasserted, wake := .high, aDir := .input, aOut := 0xF1, rd := .deasserted }
          pins := s.pins ++
            [.rdyC .low, .busen .asserted,
             .addrOut 0xF0, .rd .asserted, .rd .deasserted, .addrIn,
             .addrOut 0xF1, .rd .asserted, .rd .deasserted, .addrIn,
             .busen .deasserted, .rdyC .released, .wake .low, .wake .high]
          cmd := 0x02
          serial := { s.serial with txLog := s.serial.txLog ++ [s.mem.read 0xF1], txReady := false }
          fsm := .idle }) ∧
    (s.serial.txReady = false →
      core.run 4 s =
        .next { s with
          lines :=
            { s.lines with rdyC := .low, busen := .asserted, aDir := .input, aOut := 0xF1, rd := .deasserted }
          pins := s.pins ++
            [.rdyC .low, .busen .asserted,
             .addrOut 0xF0, .rd .asserted, .rd .deasserted, .addrIn,
             .addrOut 0xF1, .rd .asserted, .rd .deasserted, .addrIn]
          cmd := 0x02
          fsm := .servicing
          pos := .command [.tx (s.mem.read 0xF1)] })

/-- The EXIT pass (R152, R294; decision D5): it releases the bus and wakes the target like any pass, and then the loop
returns, in CleanEntry but for the transmit log ending in 0x19. The Release order is decision D4
(notes/assumptions/20.md), and that CTRL's turn then changes nothing is the model's choice (notes/assumptions/14.md).
-/
def Obligations.ExitPassReturnsToTheShell : Prop :=
  ∀ s : State, s.Inv → s.Quiet → s.pos = .fetch → s.serial.txReady = true → s.mem.read 0xF0 = 0x00 →
    ∃ t, core.run 8 s = .next t ∧ t.pos = .returned ∧ t.run = false ∧ t.fsm = .idle ∧
      t.serial.txLog = s.serial.txLog ++ [0x19] ∧
      ({ t with serial := { t.serial with txLog := [] } } : State).CleanEntry ∧
      t.pins = s.pins ++
        [.addrOut 0xF0, .rd .asserted, .rd .deasserted, .addrIn, .busen .deasserted, .rdyC .released, .wake .low,
         .wake .high] ∧
      t.mem = s.mem ∧ t.fifo = s.fifo ∧ t.clock = s.clock ∧ step t = .next t

/-- The sole termination (R152, R33): the step that clears `run` is CTRL's last of an EXIT, fetched from the command
register in the window that is open, with the acknowledgement sent. -/
def Obligations.OnlyExitStopsTheLoop : Prop :=
  ∀ s t : State, s.Inv → step s = .next t → s.run = true → t.run = false →
    s.nextAgent = .ctrl ∧ s.pos = .command [.clearRun] ∧ s.cmd = 0x00 ∧ s.mem.read 0xF0 = 0x00 ∧
    [0x19] <:+ s.serial.txLog

/-- Mode changes (R265, R21): the bus goes to the controller only by Acquire after a confirmed request, and back only
by Release; Servicing is entered only from ConfirmRequest with RDY low. What `RDY_c` is beside them is R146 and R149
(D3, D4); that interrupts are enabled before and after every step rests on get_time being one step (decision D11,
R227, notes/assumptions/9.md). -/
def Obligations.ModesChangeOnlyByAcquireAndRelease : Prop :=
  ∀ s t : State, s.Inv → step s = .next t →
    (s.owner = .target → t.owner = .controller →
      s.nextAgent = .ctrl ∧ s.pos = .loopHead ∧ s.fsm = .servicing ∧ t.pos = .fetch ∧ t.lines.rdyC = .low) ∧
    (s.owner = .controller → t.owner = .target →
      s.nextAgent = .ctrl ∧ s.pos = .release ∧ t.pos = .wakeLow ∧ t.lines.rdyC = .released) ∧
    (s.fsm ≠ .servicing → t.fsm = .servicing →
      s.nextAgent = .ctrl ∧ s.pos = .loopHead ∧ s.fsm = .confirmRequest ∧ s.rdyLine = .low) ∧
    s.clock.ien = true ∧ t.clock.ien = true

/-- A request still held after the wake pulse is served again (R157; decision D34): from the end of a pass with the
target still low, CTRL alone comes back to the fetch of the same, unchanged command byte, after polling the byte that
waits in the receiver, if one does. `RDY_c` before `BUSEN` in Acquire is decision D3 (R146, notes/assumptions/20.md).
-/
def Obligations.HeldRequestIsServedAgain : Prop :=
  ∀ s u : State, s.Quiet → s.run = true → s.pos = .passEnd → s.rdyT = .low → s.fifo.count ≤ 255 →
    u = { (serialPoll s).1 with
      fsm := .servicing
      pos := .fetch
      lines := { s.lines with rdyC := .low, busen := .asserted }
      pins := s.pins ++ [.rdyC .low, .busen .asserted] } →
    u.mem = s.mem ∧ ((s.serial.rxAvail = false ∨ s.fifo.count = 255) → core.run 5 s = .next u) ∧
    (s.serial.rxAvail = true → s.fifo.count < 255 → core.run 8 s = .next u)

/-- A waiting GETCH holds the bus (R205, R304): it makes no step, and the bus stays owned with RDY held low. -/
def Obligations.WaitingGetchHoldsTheBus : Prop :=
  ∀ (s : State) (ops : List MicroOp), s.Inv → s.Quiet → s.pos = .command (.recvArg :: ops) →
    s.serial.rxAvail = false → step s = .next s ∧ s.owner = .controller ∧ s.rdyLine = .low

/-! ### Whole-machine rules -/

/-- Every state the command loop can first be entered in (R50: any value of what R50 leaves open, the memory in
canonical form) meets the invariant and CleanEntry (R291), and so do the reset state and, from a state of the invariant,
the state in which the shell enters a loop that has returned (R294; what the shell does is notes/assumptions/13.md). -/
def Obligations.EntryStatesMeetTheInvariant : Prop :=
  (∀ p : EntryParams, p.m0.wf = true →
    (State.entry p).Inv ∧ (State.entry p).CleanEntry ∧ (State.entry p).fsm = .idle ∧ (State.entry p).run = true) ∧
  State.reset.Inv ∧ State.reset.CleanEntry ∧
  ∀ s t : State, s.Inv → s.pos = .returned → s.nextAgent = .shell → step s = .next t →
    t.Inv ∧ t.CleanEntry ∧ t.fsm = .idle ∧ t.run = true

/-- The invariant is kept by every step, of whatever agent: legal pin trace, bracketed ownership, drivers off between
transactions, micro-steps left that fit the command fetched and what it has done, `run` cleared by an EXIT alone,
interrupts enabled with none pending, FIFO and memory invariants (R22, R24, R30, R35, R43, R48, R129). -/
def Obligations.EveryStepKeepsTheInvariant : Prop :=
  ∀ s t : State, s.Inv → step s = .next t → t.Inv

/-- R62 over all agents: memory changes only by CTRL while the controller owns the bus, or by the target while the
target owns it, the RDY line is high and it is not suspended (R156 item 3, R271; how long it is suspended is the model's
reading, decision D17, notes/assumptions/12.md). -/
def Obligations.MemoryChangesOnlyThroughTheOwner : Prop :=
  ∀ s t : State, step s = .next t → t.mem ≠ s.mem →
    (s.nextAgent = .ctrl ∧ s.owner = .controller) ∨
    (s.nextAgent = .tgt ∧ s.owner = .target ∧ s.rdyLine = .high ∧ s.targetHeld = false)

/-- R61, R66 over every step of the controller: it never writes the command register, nor any byte but the four
argument bytes. -/
def Obligations.ControllerWritesOnlyArgumentBytes : Prop :=
  ∀ s t : State, s.Inv → s.nextAgent ≠ .tgt → step s = .next t →
    ∀ a : Byte, (∀ i < 4, a ≠ argAddr i) → t.memRead a = s.memRead a

/-- Suspension (R62, R156, R271, R300): while the controller owns the bus, the target's turn changes no memory, reads
none, and makes no request; a target that drives the bus all the same is bus contention. -/
def Obligations.TargetIsSuspendedWhileTheControllerOwns : Prop :=
  ∀ s : State, s.clock.interruptDue = false → s.nextAgent = .tgt → s.owner = .controller →
    (∀ t, step s = .next t → t.mem = s.mem ∧ t.env.seen = s.env.seen ∧ t.pos = s.pos ∧ t.lines = s.lines ∧
      (t.rdyT = s.rdyT ∨ t.rdyT = .released)) ∧
    ((∃ rest, s.env.script = .driveBus :: rest) ↔ step s = .fault .busContention)

/-- What the target's turn does (R156, R62, R263, R300; decision D17, notes/assumptions/12.md), act by act. While it may
access the bus a store writes that byte and no other and a load records what it reads; otherwise they wait. It pulls RDY
low only while it owns the bus and no request is being serviced, and releases it at any time. Driving the bus is a fault
where it may not access it: contention while the controller owns the bus, a broken contract otherwise. -/
def Obligations.TargetActsByItsContract : Prop :=
  ∀ (s p : State) (a v : Byte) (rest : List TgtAct), s.clock.interruptDue = false → s.nextAgent = .tgt →
    p = { s with env := { s.env with turns := s.env.turns.tail } } →
    (s.targetMayAccess = true ↔
      s.lines.busen = .deasserted ∧ s.rdyT = .released ∧ s.lines.rdyC = .released ∧
        (s.fsm ≠ .servicing ∨ s.pos = .passEnd)) ∧
    (s.env.script = .store a v :: rest →
      step s =
        .next (if s.targetMayAccess then
          { p with mem := s.mem.write a.toNat v, env := { p.env with script := rest } } else p)) ∧
    ((s.mem.write a.toNat v).read a.toNat = v ∧ ∀ b, b ≠ a.toNat → (s.mem.write a.toNat v).read b = s.mem.read b) ∧
    (s.env.script = .load a :: rest →
      step s =
        .next (if s.targetMayAccess then
          { p with env := { p.env with script := rest, seen := s.env.seen ++ [(a, s.mem.read a.toNat)] } } else p)) ∧
    (s.env.script = .rdyLow :: rest →
      step s =
        .next (if s.lines.busen = .deasserted ∧ s.fsm ≠ .servicing then
          { p with rdyT := .low, env := { p.env with script := rest } } else p)) ∧
    (s.env.script = .rdyRelease :: rest →
      step s = .next { p with rdyT := .released, env := { p.env with script := rest } }) ∧
    (s.env.script = .driveBus :: rest →
      step s =
        (if s.lines.busen = .asserted then .fault .busContention
        else if s.targetMayAccess then .next { p with env := { p.env with script := rest } }
        else .fault .targetContract)) ∧
    (s.env.script = [] → step s = .next p)

/-- R263 (a derived rule; notes/assumptions/12.md): while a request is being serviced the target makes none: no step then
pulls `RDY_t` low. -/
def Obligations.NoRequestWhileServicing : Prop :=
  ∀ s t : State, step s = .next t → s.rdyT = .released → t.rdyT = .low →
    s.nextAgent = .tgt ∧ s.owner = .target ∧ s.fsm ≠ .servicing

/-- R154, R303, R210, R204: the FIFO is written only by the micro-steps of the one SerialPoll of an Idle step and of
the getch of a GETCH; seen once the operation in progress is done, it gains a byte, from the receiver and only while
there is room, at the start of that poll, and loses its oldest at the start of that getch. -/
def Obligations.FifoMovesOnlyInIdleAndGetch : Prop :=
  ∀ s t : State, s.Inv → step s = .next t →
    (t.fifo ≠ s.fifo →
      s.nextAgent = .ctrl ∧
      ((s.fsm = .idle ∧ ∃ ops, s.pos = .polling ops) ∨
       (s.cmd = 0x01 ∧ s.mem.read 0xF0 = 0x01 ∧ s.pos = .dispatch ∧ 0 < s.fifo.count) ∨
       (s.cmd = 0x01 ∧ s.mem.read 0xF0 = 0x01 ∧ ∃ b, s.pos = .command [.countDown, .busWrite 0xF1 b]))) ∧
    (t.settledFifo ≠ s.settledFifo →
      s.nextAgent = .ctrl ∧
      ((s.pos = .loopHead ∧ s.run = true ∧ s.fsm = .idle ∧ s.serial.rxAvail = true ∧ s.fifo.count < 255 ∧
          t.settledFifo = s.fifo.push s.serial.rxData) ∨
       (s.pos = .dispatch ∧ s.cmd = 0x01 ∧ s.mem.read 0xF0 = 0x01 ∧ 0 < s.fifo.count ∧
          t.settledFifo = s.fifo.pop)))

/-- R267, R228 over all agents: the logical time moves only by the counter's own turn, by exactly one, modulo 2^32. -/
def Obligations.TimeMovesOnlyByTicks : Prop :=
  ∀ s t : State, s.Inv → step s = .next t →
    (s.nextAgent = .tmr → t.clock.time = s.clock.time + 1) ∧ (s.nextAgent ≠ .tmr → t.clock.time = s.clock.time)

/-- R38, R11 over all agents: the transmit log only grows, only by CTRL's steps, and by one byte to a step, which needs
the transmitter ready and leaves it not ready; the shell's turn alone begins the log anew. -/
def Obligations.TransmitLogOnlyGrows : Prop :=
  ∀ s t : State, step s = .next t →
    (s.nextAgent ≠ .shell → s.serial.txLog <+: t.serial.txLog) ∧
    (s.nextAgent ≠ .ctrl → s.nextAgent ≠ .shell → t.serial.txLog = s.serial.txLog) ∧
    (s.nextAgent = .ctrl → t.serial.txLog ≠ s.serial.txLog →
      s.serial.txReady = true ∧ t.serial.txReady = false ∧ ∃ b, t.serial.txLog = s.serial.txLog ++ [b])

/-! ### Serial input buffer -/

/-- SerialPoll with room (R200, R201): the waiting byte leaves the receiver, becomes the newest of the FIFO and is
returned; with nothing waiting it changes nothing and returns none. -/
def Obligations.PollKeepsAByteWhileThereIsRoom : Prop :=
  ∀ s : State, s.fifo.Inv →
    (s.serial.rxAvail = true → s.fifo.count < 255 →
      (serialPoll s).2 = some s.serial.rxData ∧
      (serialPoll s).1.fifo.contents = s.fifo.contents ++ [s.serial.rxData] ∧ (serialPoll s).1.fifo.Inv ∧
      (serialPoll s).1.fifo.count = s.fifo.count + 1 ∧
      (serialPoll s).1 =
        { s with serial := { s.serial with rxAvail := false }, fifo := (serialPoll s).1.fifo }) ∧
    (s.serial.rxAvail = false → serialPoll s = (s, none))

/-- SerialPoll on a full FIFO (R202, R203): the byte is taken from the receiver and returned, and nothing else
changes. -/
def Obligations.PollDropsAByteWhenFull : Prop :=
  ∀ s : State, s.fifo.count = 255 → s.serial.rxAvail = true →
    serialPoll s = ({ s with serial := { s.serial with rxAvail := false } }, some s.serial.rxData)

/-- getch (R204): with bytes buffered it takes the oldest, touching nothing else, and keeps the FIFO's invariants
(R35, whose cursors modulo 255 are decision D8); with none it is the raw receive. -/
def Obligations.GetchTakesTheOldestByte : Prop :=
  ∀ s : State, s.fifo.Inv →
    (∀ b rest, s.fifo.contents = b :: rest →
      ∃ t, getch s = some (b, t) ∧ t.fifo.contents = rest ∧ t.fifo.Inv ∧ t.fifo.count + 1 = s.fifo.count ∧
        t = { s with fifo := t.fifo }) ∧
    (s.fifo.count = 0 → getch s = serialRxRaw s)

/-- The order law (R206) over calls of getch: as many as there are buffered bytes give them in receive order; and bytes
polled one after another into an empty FIFO, no more than fit, are given back in exactly that order. -/
def Obligations.GetchCallsReturnReceiveOrder : Prop :=
  ∀ (n : Nat) (s : State), s.fifo.Inv →
    (n ≤ s.fifo.count → ∃ t, getchCalls n s = some (s.fifo.contents.take n, t) ∧
      t.fifo.contents = s.fifo.contents.drop n ∧ t.fifo.Inv ∧ t = { s with fifo := t.fifo }) ∧
    (s.fifo.count = 0 → ∀ bs : List Byte, bs.length ≤ 255 → n ≤ bs.length →
      ∃ t, getchCalls n (s.receiveAll bs) = some (bs.take n, t))

/-- The overflow law (R207, R201, R202): of any bytes received one after another, those that fit into 255 are retained
in order behind the ones already there, and the rest are dropped. -/
def Obligations.FirstBytesUpToCapacityAreRetained : Prop :=
  ∀ (bs : List Byte) (s : State), s.fifo.Inv →
    (s.receiveAll bs).fifo.contents = (s.fifo.contents ++ bs).take 255 ∧ (s.receiveAll bs).fifo.Inv ∧
    (s.receiveAll bs).serial.txLog = s.serial.txLog ∧ (s.receiveAll bs).mem = s.mem

/-! ### Clock service -/

/-- Tick (R220, R221, R222): with interrupts enabled and none pending, the counter counts, a wrap and the handler's
increment are one step, and the combined time goes up by one modulo 2^32 (R226). -/
def Obligations.TickAdvancesTheTimeByOne : Prop :=
  ∀ c : Clock, c.ien = true → c.ovfPending = false →
    c.tick.time = c.time + 1 ∧ c.tick.tlo = c.tlo + 1 ∧ c.tick.thi = (if c.tlo = 0xFFFF then c.thi + 1 else c.thi) ∧
    c.tick.ovfPending = false ∧ c.tick.ien = true ∧ c.tick.snapLo = c.snapLo ∧ c.tick.snapHi = c.snapHi

/-- The monotonicity law (R228): two reads with `n` Ticks between them differ by `n` modulo 2^32. That get_time
is one instant is decision D11 (R227, notes/assumptions/9.md). -/
def Obligations.ReadsDifferByTheTicksBetween : Prop :=
  ∀ (n : Nat) (c : Clock), c.ien = true → c.ovfPending = false →
    (c.getTime.ticks n).getTime.snapshot = c.getTime.snapshot + BitVec.ofNat 32 n ∧
    c.getTime.snapshot = c.time

/-- `get_time` (R223, R225, R94): the pair is that of one instant, the combined value is the logical time, interrupts
are enabled on return, and neither timer word moves. That the four lines are one step is decision D11 (R227,
notes/assumptions/9.md); that interrupts are enabled on return also where they were not on entry follows the pseudocode,
and inside the core they always were. -/
def Obligations.GetTimeReadsOneInstant : Prop :=
  ∀ c : Clock, c.ovfPending = false →
    c.getTime = { c with ien := true, snapLo := c.tlo, snapHi := c.thi } ∧
    c.getTime.snapshot.toNat = c.thi.toNat * 65536 + c.tlo.toNat ∧ c.getTime.snapshot = c.time

/-- A wrap with interrupts disabled (R229; decision D12): it is held pending, the logical time still goes up by one,
and enabling serves it at once. -/
def Obligations.OverflowWaitsWhileDisabled : Prop :=
  ∀ c : Clock, c.ien = false → c.ovfPending = false → c.tlo = 0xFFFF →
    c.tick = { c with tlo := 0, ovfPending := true } ∧ c.tick.time = c.time + 1 ∧
    c.tick.setIen true = { c with tlo := 0, thi := c.thi + 1, ien := true } ∧ (c.tick.setIen true).time = c.time + 1

/-- The overflow interrupt (R222, R258, R259, R260; decisions D12, D23): a pending enabled interrupt is the machine's
next step, and it changes `thi` and `ovf_pending` and nothing else of the machine. -/
def Obligations.InterruptTouchesOnlyTheOverflowCount : Prop :=
  ∀ s : State, s.clock.ovfPending = true → s.clock.ien = true →
    step s = .next { s with clock := { s.clock with thi := s.clock.thi + 1, ovfPending := false } }

/-! ### Environment -/

/-- HOSTRX (R12, R37; decision D18): the host's next byte enters the receiver only when it is empty; otherwise it
stays with the host. -/
def Obligations.HostByteEntersOnlyAnEmptyReceiver : Prop :=
  ∀ (s : State) (b : Byte) (bs : List Byte) (rest : List Agent), s.clock.interruptDue = false →
    s.env.turns = .hostRx :: rest → s.env.hostIn = b :: bs →
    step s =
      .next (if s.serial.rxAvail then { s with env := { s.env with turns := rest } }
        else { s with
          serial := { s.serial with rxAvail := true, rxData := b }
          env := { s.env with turns := rest, hostIn := bs } })

/-- The shell (R140, R292, R294, R38): it can enter the loop again only after it has returned, and then the transmit
log begins anew. That memory is also as the last loop left it, though R292 has the shell load an image and R50 leaves
`M` open at an entry, is the model's choice (notes/assumptions/13.md), and so is that its turn passes otherwise
(notes/assumptions/1.md). -/
def Obligations.ShellEntersOnlyAReturnedLoop : Prop :=
  ∀ (s : State) (rest : List Agent), s.clock.interruptDue = false → s.env.turns = .shell :: rest →
    (s.pos = .returned →
      step s = .next { s with
        run := true
        fsm := .idle
        pos := .loopHead
        serial := { s.serial with txLog := [] }
        env := { s.env with turns := rest } }) ∧
    (s.pos ≠ .returned → step s = .next { s with env := { s.env with turns := rest } })

/-! ### GETCH, whatever comes between -/

/-- A GETCH between its first micro-step and its last, whatever the other agents do meanwhile (R172, R204, R205): at
every step of the machine from a state of the invariant, the GETCH stands where it stood only if the turn is another
agent's or it waits for a byte; else it takes the oldest buffered byte, or with an empty FIFO the receiver's byte (or
begins to wait for one), or carries the byte it took one micro-step further, at last to 0xF1. -/
def Obligations.GetchCarriesItsByteToTheMailbox : Prop :=
  ∀ s t : State, s.Inv → s.mem.read 0xF0 = 0x01 → step s = .next t →
    (s.pos = .dispatch →
      (s.nextAgent ≠ .ctrl ∧ t.pos = .dispatch ∧ t.fifo = s.fifo) ∨
      (∃ b rest, s.fifo.contents = b :: rest ∧ t.pos = .command [.countDown, .busWrite 0xF1 b] ∧
        t.fifo = { s.fifo with rd := s.fifo.rd + 1 } ∧ t.serial = s.serial) ∨
      (s.fifo.count = 0 ∧ t.fifo = s.fifo ∧
        if s.serial.rxAvail then
          t.pos = .command [.busWrite 0xF1 s.serial.rxData] ∧ t.serial = { s.serial with rxAvail := false }
        else t.pos = .command [.recvArg] ∧ t.serial = s.serial)) ∧
    (∀ ops, s.pos = .command ops →
      (t.pos = .command ops ∧ t.fifo = s.fifo ∧
        (s.nextAgent ≠ .ctrl ∨ ops = [.recvArg] ∧ s.serial.rxAvail = false)) ∨
      (ops = [.recvArg] ∧ s.fifo.count = 0 ∧ s.serial.rxAvail = true ∧ t.fifo = s.fifo ∧
        t.pos = .command [.busWrite 0xF1 s.serial.rxData] ∧ t.serial = { s.serial with rxAvail := false }) ∨
      (∃ b, ops = [.countDown, .busWrite 0xF1 b] ∧ t.pos = .command [.busWrite 0xF1 b] ∧
        t.fifo = { s.fifo with count := s.fifo.count - 1 }) ∨
      (∃ b, ops = [.busWrite 0xF1 b] ∧ t.pos = .release ∧ t.fifo = s.fifo ∧ t.mem.read 0xF1 = b))
end

