-- ==== Sys2Proof/Laws/Clock.lean ====
section
/-! SUPPORT. What the clock's operations do, by cases (spec/44_clock_service.md R220 to R229). -/

namespace Sys2Proof.Machine

variable (c : Clock)

@[simp] theorem Clock.overflowISR_tlo : c.overflowISR.tlo = c.tlo := rfl
@[simp] theorem Clock.overflowISR_thi : c.overflowISR.thi = c.thi + 1#16 := rfl
@[simp] theorem Clock.overflowISR_ovfPending : c.overflowISR.ovfPending = false := rfl
@[simp] theorem Clock.overflowISR_ien : c.overflowISR.ien = c.ien := rfl
@[simp] theorem Clock.overflowISR_snapLo : c.overflowISR.snapLo = c.snapLo := rfl
@[simp] theorem Clock.overflowISR_snapHi : c.overflowISR.snapHi = c.snapHi := rfl

theorem Clock.takeInterrupt_of_due (h : c.interruptDue = true) : c.takeInterrupt = c.overflowISR := by
  simp [Clock.takeInterrupt, h]

theorem Clock.takeInterrupt_of_not_due (h : c.interruptDue = false) : c.takeInterrupt = c := by
  simp [Clock.takeInterrupt, h]

theorem Clock.interruptDue_of_clear (h : c.ovfPending = false) : c.interruptDue = false := by
  simp [Clock.interruptDue, h]

theorem Clock.time_of_clear (h : c.ovfPending = false) : c.time = c.thi ++ c.tlo := by
  simp [Clock.time, h]

/-- A Tick with interrupts enabled and none pending: wrap and increment in the same step (R221). -/
theorem Clock.tick_of_enabled (he : c.ien = true) (hp : c.ovfPending = false) :
    c.tick = if c.tlo = 0xFFFF#16 then { c with tlo := 0#16, thi := c.thi + 1#16 } else { c with tlo := c.tlo + 1#16 } := by
  obtain ⟨tlo, thi, pend, ien, sl, sh⟩ := c
  simp only at he hp
  subst he hp
  by_cases h : tlo = 65535#16 <;> simp [Clock.tick, h, Clock.takeInterrupt, Clock.interruptDue, Clock.overflowISR]

/-- A Tick with interrupts disabled leaves the increment pending (R229). -/
theorem Clock.tick_of_disabled (he : c.ien = false) :
    c.tick = if c.tlo = 0xFFFF#16 then { c with tlo := 0#16, ovfPending := true } else { c with tlo := c.tlo + 1#16 } := by
  obtain ⟨tlo, thi, pend, ien, sl, sh⟩ := c
  simp only at he
  subst he
  by_cases h : tlo = 65535#16 <;> simp [Clock.tick, h, Clock.takeInterrupt, Clock.interruptDue]

/-- get_time with none pending: the pair is copied, nothing else moves (R223). -/
theorem Clock.getTime_of_clear (hp : c.ovfPending = false) :
    c.getTime = { c with ien := true, snapLo := c.tlo, snapHi := c.thi } := by
  obtain ⟨tlo, thi, pend, ien, sl, sh⟩ := c
  simp only at hp
  subst hp
  simp [Clock.getTime, Clock.setIen, Clock.takeInterrupt, Clock.interruptDue]

/-- get_time leaves interrupts enabled and none pending, whatever it found. -/
theorem Clock.getTime_enabled : c.getTime.ien = true ∧ c.getTime.ovfPending = false := by
  obtain ⟨tlo, thi, pend, ien, sl, sh⟩ := c
  cases pend <;>
    simp [Clock.getTime, Clock.setIen, Clock.takeInterrupt, Clock.interruptDue, Clock.overflowISR]

theorem Clock.append_succ_of_ne (hi lo : Word16) (h : lo ≠ 0xFFFF#16) : hi ++ (lo + 1#16) = (hi ++ lo) + 1#32 := by
  apply BitVec.eq_of_toNat_eq
  have : lo.toNat ≠ 65535 := fun h' => h (BitVec.eq_of_toNat_eq (by simpa using h'))
  have hlo := lo.isLt
  have hhi := hi.isLt
  simp only [BitVec.toNat_append, BitVec.toNat_add, BitVec.toNat_ofNat]
  rw [Nat.mod_eq_of_lt (by omega : lo.toNat + 1 % 2 ^ 16 < 2 ^ 16)]
  rw [← Nat.shiftLeft_add_eq_or_of_lt (by omega), ← Nat.shiftLeft_add_eq_or_of_lt (by omega)]
  simp only [Nat.shiftLeft_eq]
  omega

theorem Clock.append_wrap (hi : Word16) : (hi + 1#16) ++ 0#16 = (hi ++ 0xFFFF#16) + 1#32 := by
  apply BitVec.eq_of_toNat_eq
  have hhi := hi.isLt
  simp only [BitVec.toNat_append, BitVec.toNat_add, BitVec.toNat_ofNat]
  rw [← Nat.shiftLeft_add_eq_or_of_lt (by omega), ← Nat.shiftLeft_add_eq_or_of_lt (by omega)]
  simp only [Nat.shiftLeft_eq]
  omega

/-! ### The bytes of the snapshot (R64, R94) -/

theorem Clock.snapshot_getLsbD (c : Clock) (i : Nat) :
    c.snapshot.getLsbD i = if i < 16 then c.snapLo.getLsbD i else c.snapHi.getLsbD (i - 16) := BitVec.getLsbD_append

theorem Clock.snapByte_zero (c : Clock) : c.snapByte 0 = lowByte c.snapLo := by
  ext i hi
  simp [Clock.snapByte, c.snapshot_getLsbD, lowByte, show i < 16 by omega]

theorem Clock.snapByte_one (c : Clock) : c.snapByte 1 = highByte c.snapLo := by
  ext i hi
  simp [Clock.snapByte, c.snapshot_getLsbD, highByte, show 8 + i < 16 by omega]

theorem Clock.snapByte_two (c : Clock) : c.snapByte 2 = lowByte c.snapHi := by
  ext i hi
  simp [Clock.snapByte, c.snapshot_getLsbD, lowByte]

theorem Clock.snapByte_three (c : Clock) : c.snapByte 3 = highByte c.snapHi := by
  ext i hi
  simp [Clock.snapByte, c.snapshot_getLsbD, highByte, show ¬(24 + i < 16) by omega, show 24 + i - 16 = 8 + i by omega]

end Sys2Proof.Machine
end

