-- ==== Sys2Proof/Laws/Decode.lean ====
section
/-! SUPPORT. Small facts about the encoding tables (spec/30_encoding.md R91, R100). -/

namespace Sys2Proof

@[simp] theorem decode_nil : decode [] = .error .noByte := rfl

@[simp] theorem decode_cons (b : Byte) (rest : List Byte) : decode (b :: rest) = .ok (decodeByte b, rest) := rfl

theorem lowBits_lt (n : Nat) (b : Byte) : lowBits n b < 2 ^ n := Nat.mod_lt _ (by positivity)

/-- What the decoder gives is well-formed. -/
theorem decodeByte_wellFormed (b : Byte) : (decodeByte b).WellFormed := by
  unfold decodeByte
  repeat' split
  all_goals first
    | exact lowBits_lt _ b
    | exact Nat.one_pos

end Sys2Proof
end

