-- ==== Sys2Proof/Laws/State.lean ====
section
/-! SUPPORT. One lemma per field of State for each named update, true by rfl, so that no proof unfolds an update. -/

namespace Sys2Proof.Machine

variable (s : State)

/-! ### State.delay -/

@[simp] theorem State.delay_lines (d : Config.DelayName) : (s.delay d).lines = s.lines := rfl
@[simp] theorem State.delay_rdyT (d : Config.DelayName) : (s.delay d).rdyT = s.rdyT := rfl
@[simp] theorem State.delay_fsm (d : Config.DelayName) : (s.delay d).fsm = s.fsm := rfl
@[simp] theorem State.delay_pos (d : Config.DelayName) : (s.delay d).pos = s.pos := rfl
@[simp] theorem State.delay_cmd (d : Config.DelayName) : (s.delay d).cmd = s.cmd := rfl
@[simp] theorem State.delay_run (d : Config.DelayName) : (s.delay d).run = s.run := rfl
@[simp] theorem State.delay_fifo (d : Config.DelayName) : (s.delay d).fifo = s.fifo := rfl
@[simp] theorem State.delay_serial (d : Config.DelayName) : (s.delay d).serial = s.serial := rfl
@[simp] theorem State.delay_clock (d : Config.DelayName) : (s.delay d).clock = s.clock := rfl
@[simp] theorem State.delay_mem (d : Config.DelayName) : (s.delay d).mem = s.mem := rfl
@[simp] theorem State.delay_pins (d : Config.DelayName) : (s.delay d).pins = s.pins := rfl
@[simp] theorem State.delay_env (d : Config.DelayName) : (s.delay d).env = s.env := rfl

/-! ### State.pin -/

@[simp] theorem State.pin_lines (e : PinEvent) : (s.pin e).lines = s.lines.apply e := rfl
@[simp] theorem State.pin_rdyT (e : PinEvent) : (s.pin e).rdyT = s.rdyT := rfl
@[simp] theorem State.pin_fsm (e : PinEvent) : (s.pin e).fsm = s.fsm := rfl
@[simp] theorem State.pin_pos (e : PinEvent) : (s.pin e).pos = s.pos := rfl
@[simp] theorem State.pin_cmd (e : PinEvent) : (s.pin e).cmd = s.cmd := rfl
@[simp] theorem State.pin_run (e : PinEvent) : (s.pin e).run = s.run := rfl
@[simp] theorem State.pin_fifo (e : PinEvent) : (s.pin e).fifo = s.fifo := rfl
@[simp] theorem State.pin_serial (e : PinEvent) : (s.pin e).serial = s.serial := rfl
@[simp] theorem State.pin_clock (e : PinEvent) : (s.pin e).clock = s.clock := rfl
@[simp] theorem State.pin_mem (e : PinEvent) : (s.pin e).mem = s.mem := rfl
@[simp] theorem State.pin_pins (e : PinEvent) : (s.pin e).pins = s.pins ++ [e] := rfl
@[simp] theorem State.pin_env (e : PinEvent) : (s.pin e).env = s.env := rfl

/-! ### State.send -/

@[simp] theorem State.send_lines (b : Byte) : (s.send b).lines = s.lines := rfl
@[simp] theorem State.send_rdyT (b : Byte) : (s.send b).rdyT = s.rdyT := rfl
@[simp] theorem State.send_fsm (b : Byte) : (s.send b).fsm = s.fsm := rfl
@[simp] theorem State.send_pos (b : Byte) : (s.send b).pos = s.pos := rfl
@[simp] theorem State.send_cmd (b : Byte) : (s.send b).cmd = s.cmd := rfl
@[simp] theorem State.send_run (b : Byte) : (s.send b).run = s.run := rfl
@[simp] theorem State.send_fifo (b : Byte) : (s.send b).fifo = s.fifo := rfl
@[simp] theorem State.send_serial (b : Byte) : (s.send b).serial = { s.serial with txLog := s.serial.txLog ++ [b], txReady := false } := rfl
@[simp] theorem State.send_clock (b : Byte) : (s.send b).clock = s.clock := rfl
@[simp] theorem State.send_mem (b : Byte) : (s.send b).mem = s.mem := rfl
@[simp] theorem State.send_pins (b : Byte) : (s.send b).pins = s.pins := rfl
@[simp] theorem State.send_env (b : Byte) : (s.send b).env = s.env := rfl

/-! ### State.takeRx -/

@[simp] theorem State.takeRx_lines : s.takeRx.lines = s.lines := rfl
@[simp] theorem State.takeRx_rdyT : s.takeRx.rdyT = s.rdyT := rfl
@[simp] theorem State.takeRx_fsm : s.takeRx.fsm = s.fsm := rfl
@[simp] theorem State.takeRx_pos : s.takeRx.pos = s.pos := rfl
@[simp] theorem State.takeRx_cmd : s.takeRx.cmd = s.cmd := rfl
@[simp] theorem State.takeRx_run : s.takeRx.run = s.run := rfl
@[simp] theorem State.takeRx_fifo : s.takeRx.fifo = s.fifo := rfl
@[simp] theorem State.takeRx_serial : s.takeRx.serial = { s.serial with rxAvail := false } := rfl
@[simp] theorem State.takeRx_clock : s.takeRx.clock = s.clock := rfl
@[simp] theorem State.takeRx_mem : s.takeRx.mem = s.mem := rfl
@[simp] theorem State.takeRx_pins : s.takeRx.pins = s.pins := rfl
@[simp] theorem State.takeRx_env : s.takeRx.env = s.env := rfl

/-! ### State.memWrite -/

@[simp] theorem State.memWrite_lines (a v : Byte) : (s.memWrite a v).lines = s.lines := rfl
@[simp] theorem State.memWrite_rdyT (a v : Byte) : (s.memWrite a v).rdyT = s.rdyT := rfl
@[simp] theorem State.memWrite_fsm (a v : Byte) : (s.memWrite a v).fsm = s.fsm := rfl
@[simp] theorem State.memWrite_pos (a v : Byte) : (s.memWrite a v).pos = s.pos := rfl
@[simp] theorem State.memWrite_cmd (a v : Byte) : (s.memWrite a v).cmd = s.cmd := rfl
@[simp] theorem State.memWrite_run (a v : Byte) : (s.memWrite a v).run = s.run := rfl
@[simp] theorem State.memWrite_fifo (a v : Byte) : (s.memWrite a v).fifo = s.fifo := rfl
@[simp] theorem State.memWrite_serial (a v : Byte) : (s.memWrite a v).serial = s.serial := rfl
@[simp] theorem State.memWrite_clock (a v : Byte) : (s.memWrite a v).clock = s.clock := rfl
@[simp] theorem State.memWrite_mem (a v : Byte) : (s.memWrite a v).mem = s.mem.write a.toNat v := rfl
@[simp] theorem State.memWrite_pins (a v : Byte) : (s.memWrite a v).pins = s.pins := rfl
@[simp] theorem State.memWrite_env (a v : Byte) : (s.memWrite a v).env = s.env := rfl

/-! ### State.getTime -/

@[simp] theorem State.getTime_lines : s.getTime.lines = s.lines := rfl
@[simp] theorem State.getTime_rdyT : s.getTime.rdyT = s.rdyT := rfl
@[simp] theorem State.getTime_fsm : s.getTime.fsm = s.fsm := rfl
@[simp] theorem State.getTime_pos : s.getTime.pos = s.pos := rfl
@[simp] theorem State.getTime_cmd : s.getTime.cmd = s.cmd := rfl
@[simp] theorem State.getTime_run : s.getTime.run = s.run := rfl
@[simp] theorem State.getTime_fifo : s.getTime.fifo = s.fifo := rfl
@[simp] theorem State.getTime_serial : s.getTime.serial = s.serial := rfl
@[simp] theorem State.getTime_clock : s.getTime.clock = s.clock.getTime := rfl
@[simp] theorem State.getTime_mem : s.getTime.mem = s.mem := rfl
@[simp] theorem State.getTime_pins : s.getTime.pins = s.pins := rfl
@[simp] theorem State.getTime_env : s.getTime.env = s.env := rfl

/-! ### State.takeInterrupt -/

@[simp] theorem State.takeInterrupt_lines : s.takeInterrupt.lines = s.lines := rfl
@[simp] theorem State.takeInterrupt_rdyT : s.takeInterrupt.rdyT = s.rdyT := rfl
@[simp] theorem State.takeInterrupt_fsm : s.takeInterrupt.fsm = s.fsm := rfl
@[simp] theorem State.takeInterrupt_pos : s.takeInterrupt.pos = s.pos := rfl
@[simp] theorem State.takeInterrupt_cmd : s.takeInterrupt.cmd = s.cmd := rfl
@[simp] theorem State.takeInterrupt_run : s.takeInterrupt.run = s.run := rfl
@[simp] theorem State.takeInterrupt_fifo : s.takeInterrupt.fifo = s.fifo := rfl
@[simp] theorem State.takeInterrupt_serial : s.takeInterrupt.serial = s.serial := rfl
@[simp] theorem State.takeInterrupt_clock : s.takeInterrupt.clock = s.clock.takeInterrupt := rfl
@[simp] theorem State.takeInterrupt_mem : s.takeInterrupt.mem = s.mem := rfl
@[simp] theorem State.takeInterrupt_pins : s.takeInterrupt.pins = s.pins := rfl
@[simp] theorem State.takeInterrupt_env : s.takeInterrupt.env = s.env := rfl

/-! ### State.popTurn -/

@[simp] theorem State.popTurn_lines : s.popTurn.lines = s.lines := rfl
@[simp] theorem State.popTurn_rdyT : s.popTurn.rdyT = s.rdyT := rfl
@[simp] theorem State.popTurn_fsm : s.popTurn.fsm = s.fsm := rfl
@[simp] theorem State.popTurn_pos : s.popTurn.pos = s.pos := rfl
@[simp] theorem State.popTurn_cmd : s.popTurn.cmd = s.cmd := rfl
@[simp] theorem State.popTurn_run : s.popTurn.run = s.run := rfl
@[simp] theorem State.popTurn_fifo : s.popTurn.fifo = s.fifo := rfl
@[simp] theorem State.popTurn_serial : s.popTurn.serial = s.serial := rfl
@[simp] theorem State.popTurn_clock : s.popTurn.clock = s.clock := rfl
@[simp] theorem State.popTurn_mem : s.popTurn.mem = s.mem := rfl
@[simp] theorem State.popTurn_pins : s.popTurn.pins = s.pins := rfl
@[simp] theorem State.popTurn_env : s.popTurn.env = { s.env with turns := s.env.turns.tail } := rfl

/-! ### State.bodyLeft -/

@[simp] theorem State.bodyLeft_lines (ops : List MicroOp) : (s.bodyLeft ops).lines = s.lines := rfl
@[simp] theorem State.bodyLeft_rdyT (ops : List MicroOp) : (s.bodyLeft ops).rdyT = s.rdyT := rfl
@[simp] theorem State.bodyLeft_fsm (ops : List MicroOp) : (s.bodyLeft ops).fsm = s.fsm := rfl
@[simp] theorem State.bodyLeft_pos (ops : List MicroOp) : (s.bodyLeft ops).pos = .inBody ops := rfl
@[simp] theorem State.bodyLeft_cmd (ops : List MicroOp) : (s.bodyLeft ops).cmd = s.cmd := rfl
@[simp] theorem State.bodyLeft_run (ops : List MicroOp) : (s.bodyLeft ops).run = s.run := rfl
@[simp] theorem State.bodyLeft_fifo (ops : List MicroOp) : (s.bodyLeft ops).fifo = s.fifo := rfl
@[simp] theorem State.bodyLeft_serial (ops : List MicroOp) : (s.bodyLeft ops).serial = s.serial := rfl
@[simp] theorem State.bodyLeft_clock (ops : List MicroOp) : (s.bodyLeft ops).clock = s.clock := rfl
@[simp] theorem State.bodyLeft_mem (ops : List MicroOp) : (s.bodyLeft ops).mem = s.mem := rfl
@[simp] theorem State.bodyLeft_pins (ops : List MicroOp) : (s.bodyLeft ops).pins = s.pins := rfl
@[simp] theorem State.bodyLeft_env (ops : List MicroOp) : (s.bodyLeft ops).env = s.env := rfl

/-! ### State.pollLeft -/

@[simp] theorem State.pollLeft_lines (ops : List MicroOp) : (s.pollLeft ops).lines = s.lines := rfl
@[simp] theorem State.pollLeft_rdyT (ops : List MicroOp) : (s.pollLeft ops).rdyT = s.rdyT := rfl
@[simp] theorem State.pollLeft_fsm (ops : List MicroOp) : (s.pollLeft ops).fsm = s.fsm := rfl
@[simp] theorem State.pollLeft_pos (ops : List MicroOp) : (s.pollLeft ops).pos = .inPoll ops := rfl
@[simp] theorem State.pollLeft_cmd (ops : List MicroOp) : (s.pollLeft ops).cmd = s.cmd := rfl
@[simp] theorem State.pollLeft_run (ops : List MicroOp) : (s.pollLeft ops).run = s.run := rfl
@[simp] theorem State.pollLeft_fifo (ops : List MicroOp) : (s.pollLeft ops).fifo = s.fifo := rfl
@[simp] theorem State.pollLeft_serial (ops : List MicroOp) : (s.pollLeft ops).serial = s.serial := rfl
@[simp] theorem State.pollLeft_clock (ops : List MicroOp) : (s.pollLeft ops).clock = s.clock := rfl
@[simp] theorem State.pollLeft_mem (ops : List MicroOp) : (s.pollLeft ops).mem = s.mem := rfl
@[simp] theorem State.pollLeft_pins (ops : List MicroOp) : (s.pollLeft ops).pins = s.pins := rfl
@[simp] theorem State.pollLeft_env (ops : List MicroOp) : (s.pollLeft ops).env = s.env := rfl

/-! ### acquire -/

@[simp] theorem acquire_lines : (acquire s).lines = { s.lines with rdyC := .low, busen := .asserted } := rfl
@[simp] theorem acquire_rdyT : (acquire s).rdyT = s.rdyT := rfl
@[simp] theorem acquire_fsm : (acquire s).fsm = s.fsm := rfl
@[simp] theorem acquire_pos : (acquire s).pos = s.pos := rfl
@[simp] theorem acquire_cmd : (acquire s).cmd = s.cmd := rfl
@[simp] theorem acquire_run : (acquire s).run = s.run := rfl
@[simp] theorem acquire_fifo : (acquire s).fifo = s.fifo := rfl
@[simp] theorem acquire_serial : (acquire s).serial = s.serial := rfl
@[simp] theorem acquire_clock : (acquire s).clock = s.clock := rfl
@[simp] theorem acquire_mem : (acquire s).mem = s.mem := rfl
@[simp] theorem acquire_env : (acquire s).env = s.env := rfl

@[simp] theorem acquire_pins : (acquire s).pins = s.pins ++ [.rdyC .low, .busen .asserted] := by
  simp [acquire, State.pin]

/-! ### The FIFO's writes -/

variable (f : Fifo)

@[simp] theorem Fifo.store_buf (b : Byte) : (f.store b).buf = f.buf.set f.wr.val b f.wr.isLt := rfl
@[simp] theorem Fifo.store_wr (b : Byte) : (f.store b).wr = f.wr := rfl
@[simp] theorem Fifo.store_rd (b : Byte) : (f.store b).rd = f.rd := rfl
@[simp] theorem Fifo.store_count (b : Byte) : (f.store b).count = f.count := rfl
@[simp] theorem Fifo.advanceWr_buf : (f.advanceWr).buf = f.buf := rfl
@[simp] theorem Fifo.advanceWr_wr : (f.advanceWr).wr = f.wr + 1 := rfl
@[simp] theorem Fifo.advanceWr_rd : (f.advanceWr).rd = f.rd := rfl
@[simp] theorem Fifo.advanceWr_count : (f.advanceWr).count = f.count := rfl
@[simp] theorem Fifo.countUp_buf : (f.countUp).buf = f.buf := rfl
@[simp] theorem Fifo.countUp_wr : (f.countUp).wr = f.wr := rfl
@[simp] theorem Fifo.countUp_rd : (f.countUp).rd = f.rd := rfl
@[simp] theorem Fifo.countUp_count : (f.countUp).count = f.count + 1 := rfl
@[simp] theorem Fifo.advanceRd_buf : (f.advanceRd).buf = f.buf := rfl
@[simp] theorem Fifo.advanceRd_wr : (f.advanceRd).wr = f.wr := rfl
@[simp] theorem Fifo.advanceRd_rd : (f.advanceRd).rd = f.rd + 1 := rfl
@[simp] theorem Fifo.advanceRd_count : (f.advanceRd).count = f.count := rfl
@[simp] theorem Fifo.countDown_buf : (f.countDown).buf = f.buf := rfl
@[simp] theorem Fifo.countDown_wr : (f.countDown).wr = f.wr := rfl
@[simp] theorem Fifo.countDown_rd : (f.countDown).rd = f.rd := rfl
@[simp] theorem Fifo.countDown_count : (f.countDown).count = f.count - 1 := rfl
@[simp] theorem Fifo.push_buf (b : Byte) : (f.push b).buf = f.buf.set f.wr.val b f.wr.isLt := rfl
@[simp] theorem Fifo.push_wr (b : Byte) : (f.push b).wr = f.wr + 1 := rfl
@[simp] theorem Fifo.push_rd (b : Byte) : (f.push b).rd = f.rd := rfl
@[simp] theorem Fifo.push_count (b : Byte) : (f.push b).count = f.count + 1 := rfl
@[simp] theorem Fifo.pop_buf : (f.pop).buf = f.buf := rfl
@[simp] theorem Fifo.pop_wr : (f.pop).wr = f.wr := rfl
@[simp] theorem Fifo.pop_rd : (f.pop).rd = f.rd + 1 := rfl
@[simp] theorem Fifo.pop_count : (f.pop).count = f.count - 1 := rfl

@[simp] theorem State.popTurn_nextAgent_turns : s.popTurn.env.turns = s.env.turns.tail := rfl

end Sys2Proof.Machine
end

