-- ==== Sys2Proof/Laws/Ops.lean ====
section
/-! SUPPORT. What the shared operations do: the serial port, a bus access with and without ownership, one micro-step,
SerialPoll and getch (spec/40_bus_transport.md, 42_command_dispatch.md R177, 43_serial_input_fifo.md). -/

namespace Sys2Proof.Machine

variable (s : State)

/-! ### Bus accesses -/

theorem State.driveWrite_eq (a v : Byte) :
    s.driveWrite a v =
      { s with
        lines := s.lines.afterWrite a v
        mem := s.mem.write a.toNat v
        pins := s.pins ++ writePins a v } := by
  simp [State.driveWrite, State.pin, State.delay, State.memWrite, Lines.apply, Lines.afterWrite, writePins]

theorem State.driveRead_eq (a : Byte) :
    (s.driveReadUp a).driveReadDown =
      { s with lines := s.lines.afterRead a, pins := s.pins ++ readPins a } := by
  simp [State.driveReadUp, State.driveReadDown, State.pin, State.delay, Lines.apply, Lines.afterRead, readPins]

theorem State.owns_iff : s.owns = true ↔ s.lines.busen = .asserted := by simp [State.owns]

theorem busWrite_owned (a v : Byte) (h : s.owns = true) :
    busWrite a v s =
      ⟨{ s with lines := s.lines.afterWrite a v, mem := s.mem.write a.toNat v, pins := s.pins ++ writePins a v },
        .success, []⟩ := by
  simp [busWrite, h, State.driveWrite_eq]

theorem busWrite_refused (a v : Byte) (h : s.owns = false) :
    busWrite a v s = ⟨(serialTx Param.guardMark s).1, .guardFailure, (serialTx Param.guardMark s).2⟩ := by
  simp [busWrite, h, refuseAccess]

theorem busRead_owned (a : Byte) (h : s.owns = true) :
    busRead a s =
      ⟨{ s with lines := s.lines.afterRead a, pins := s.pins ++ readPins a }, s.memRead a, []⟩ := by
  simp only [busRead, h, if_true, State.driveRead_eq]
  rfl

theorem busRead_refused (a : Byte) (h : s.owns = false) :
    busRead a s = ⟨(serialTx Param.guardMark s).1, 0x00, (serialTx Param.guardMark s).2⟩ := by
  simp [busRead, h, refuseAccess]

theorem serialTx_ready (b : Byte) (h : s.serial.txReady = true) : serialTx b s = (s.send b, []) := by
  simp [serialTx, h]

theorem serialTx_busy (b : Byte) (h : s.serial.txReady = false) : serialTx b s = (s, [.tx b]) := by
  simp [serialTx, h]

/-! ### Command bodies -/

/-- What no part of a command body touches (R177), whichever operations it is made of. -/
structure BodyFrame (s t : State) : Prop where
  busen : t.lines.busen = s.lines.busen
  rdyC : t.lines.rdyC = s.lines.rdyC
  wake : t.lines.wake = s.lines.wake
  rdyT : t.rdyT = s.rdyT
  fsm : t.fsm = s.fsm
  cmd : t.cmd = s.cmd
  fifo : t.fifo = s.fifo
  clock : t.clock = s.clock
  env : t.env = s.env
  rxData : t.serial.rxData = s.serial.rxData

theorem BodyFrame.refl : BodyFrame s s := ⟨rfl, rfl, rfl, rfl, rfl, rfl, rfl, rfl, rfl, rfl⟩

theorem BodyFrame.trans {s t u : State} (h : BodyFrame s t) (k : BodyFrame t u) : BodyFrame s u :=
  ⟨k.1.trans h.1, k.2.trans h.2, k.3.trans h.3, k.4.trans h.4, k.5.trans h.5, k.6.trans h.6, k.7.trans h.7,
    k.8.trans h.8, k.9.trans h.9, k.10.trans h.10⟩

theorem serialTx_frame (b : Byte) : BodyFrame s (serialTx b s).1 := by
  by_cases h : s.serial.txReady <;> simp [serialTx, h] <;> constructor <;> rfl

theorem serialTx_mem (b : Byte) : (serialTx b s).1.mem = s.mem := by
  by_cases h : s.serial.txReady <;> simp [serialTx, h]

theorem serialTx_run (b : Byte) : (serialTx b s).1.run = s.run := by
  by_cases h : s.serial.txReady <;> simp [serialTx, h]

theorem busWrite_frame (a v : Byte) : BodyFrame s (busWrite a v s).state := by
  cases h : s.owns with
  | true => rw [busWrite_owned s a v h]; constructor <;> rfl
  | false => rw [busWrite_refused s a v h]; exact serialTx_frame s _

theorem busRead_frame (a : Byte) : BodyFrame s (busRead a s).state := by
  cases h : s.owns with
  | true => rw [busRead_owned s a h]; constructor <;> rfl
  | false => rw [busRead_refused s a h]; exact serialTx_frame s _

@[simp] theorem serialRxRaw_some (h : s.serial.rxAvail = true) :
    serialRxRaw s = some (s.serial.rxData, s.takeRx) := by simp [serialRxRaw, h]

@[simp] theorem serialRxRaw_none (h : s.serial.rxAvail = false) : serialRxRaw s = none := by simp [serialRxRaw, h]

/-- What no micro-step of a command touches (R177): the FIFO but for a count, and the rest of `BodyFrame` whole. -/
theorem runOp_frame (op : MicroOp) : BodyFrame { s with fifo := op.onFifo s.fifo } (runOp op s).1 := by
  cases op with
  | tx b => exact serialTx_frame s b
  | busWrite a v => exact busWrite_frame s a v
  | recvArg =>
    cases h : s.serial.rxAvail with
    | true => simpa [runOp, h, MicroOp.onFifo] using (⟨rfl, rfl, rfl, rfl, rfl, rfl, rfl, rfl, rfl, rfl⟩ : BodyFrame s s.takeRx)
    | false => simpa [runOp, h, MicroOp.onFifo] using BodyFrame.refl s
  | _ => exact ⟨rfl, rfl, rfl, rfl, rfl, rfl, rfl, rfl, rfl, rfl⟩

/-! ### Positions within an operation -/

@[simp] theorem Position.inBody_nil : Position.inBody [] = .release := rfl
@[simp] theorem Position.inBody_cons (op : MicroOp) (ops : List MicroOp) :
    Position.inBody (op :: ops) = .command (op :: ops) := rfl
@[simp] theorem Position.inPoll_nil : Position.inPoll [] = .idleSample := rfl
@[simp] theorem Position.inPoll_cons (op : MicroOp) (ops : List MicroOp) :
    Position.inPoll (op :: ops) = .polling (op :: ops) := rfl
@[simp] theorem Position.left_inBody (ops : List MicroOp) : (Position.inBody ops).left = ops := by cases ops <;> rfl
@[simp] theorem Position.left_inPoll (ops : List MicroOp) : (Position.inPoll ops).left = ops := by cases ops <;> rfl
@[simp] theorem Position.busView_inBody (ops : List MicroOp) : (Position.inBody ops).busView = BusView.window false := by
  cases ops <;> rfl
@[simp] theorem Position.busView_inPoll (ops : List MicroOp) : (Position.inPoll ops).busView = BusView.idle := by
  cases ops <;> rfl
@[simp] theorem Position.afterFetch_inBody (ops : List MicroOp) : (Position.inBody ops).afterFetch = true := by
  cases ops <;> rfl
@[simp] theorem Position.afterFetch_inPoll (ops : List MicroOp) : (Position.inPoll ops).afterFetch = false := by
  cases ops <;> rfl

/-! ### One micro-step of a body -/

theorem stepBody_cons (op : MicroOp) (ops : List MicroOp) :
    stepBody (op :: ops) s = (runOp op s).1.bodyLeft ((runOp op s).2 ++ ops) := rfl

/-- A transmission, the transmitter ready. -/
theorem stepBody_tx_ready (b : Byte) (ops : List MicroOp) (h : s.serial.txReady = true) :
    stepBody (.tx b :: ops) s = (s.send b).bodyLeft ops := by
  simp [stepBody_cons, runOp, serialTx, h]

/-- A transmission, the transmitter not ready: it waits. -/
theorem stepBody_tx_busy (b : Byte) (ops : List MicroOp) (h : s.serial.txReady = false) :
    stepBody (.tx b :: ops) s = s.bodyLeft (.tx b :: ops) := by
  simp [stepBody_cons, runOp, serialTx, h]

/-- A bus write with the bus owned. -/
theorem stepBody_write (a v : Byte) (ops : List MicroOp) (h : s.owns = true) :
    stepBody (.busWrite a v :: ops) s =
      ({ s with
        lines := s.lines.afterWrite a v
        mem := s.mem.write a.toNat v
        pins := s.pins ++ writePins a v } : State).bodyLeft ops := by
  simp [stepBody_cons, runOp, busWrite_owned s a v h]

/-- The raw receive of a waiting GETCH, a byte there. -/
theorem stepBody_recvArg (ops : List MicroOp) (h : s.serial.rxAvail = true) :
    stepBody (.recvArg :: ops) s = s.takeRx.bodyLeft (.busWrite Param.cmdArg s.serial.rxData :: ops) := by
  simp [stepBody_cons, runOp, h]

/-- The raw receive of a waiting GETCH, no byte there: it goes on waiting. -/
theorem stepBody_recvArg_wait (ops : List MicroOp) (h : s.serial.rxAvail = false) :
    stepBody (.recvArg :: ops) s = s.bodyLeft (.recvArg :: ops) := by
  simp [stepBody_cons, runOp, h]

theorem stepBody_clearRun (ops : List MicroOp) :
    stepBody (.clearRun :: ops) s = ({ s with run := false } : State).bodyLeft ops := rfl

theorem stepBody_countDown (ops : List MicroOp) :
    stepBody (.countDown :: ops) s = ({ s with fifo := s.fifo.countDown } : State).bodyLeft ops := rfl

/-- The bytes a micro-step may store to. -/
def MicroOp.stores : MicroOp → Byte → Prop
  | .busWrite a _, b => b = a
  | _, _ => False

theorem busWrite_mem_other (a v : Byte) {b : Byte} (h : b ≠ a) : (busWrite a v s).state.memRead b = s.memRead b := by
  cases ho : s.owns with
  | true =>
    rw [busWrite_owned s a v ho]
    exact Memory.read_write_other _ _ fun h' => h (BitVec.eq_of_toNat_eq h')
  | false => rw [busWrite_refused s a v ho, State.memRead, serialTx_mem]; rfl

/-- A micro-step leaves every byte alone that it does not store to. -/
theorem runOp_mem (op : MicroOp) {b : Byte} (h : ¬op.stores b) : (runOp op s).1.memRead b = s.memRead b := by
  cases op with
  | tx v => simp [runOp, State.memRead, serialTx_mem]
  | busWrite a v => exact busWrite_mem_other s a v h
  | recvArg => cases hr : s.serial.rxAvail <;> simp [runOp, hr, State.memRead]
  | _ => rfl

/-- Only the micro-step that clears `run` changes it. -/
theorem runOp_run (op : MicroOp) (h : op ≠ .clearRun) : (runOp op s).1.run = s.run := by
  cases op with
  | tx b => exact serialTx_run s b
  | busWrite a v =>
    cases ho : s.owns with
    | true => rw [runOp, busWrite_owned s a v ho]
    | false => rw [runOp, busWrite_refused s a v ho]; exact serialTx_run s _
  | recvArg => cases hr : s.serial.rxAvail <;> simp [runOp, hr]
  | clearRun => exact absurd rfl h
  | _ => rfl

/-- What a micro-step leaves of itself stores to argument bytes only, if it does so itself. -/
theorem runOp_left (op : MicroOp) :
    (runOp op s).2 = [] ∨ (runOp op s).2 = [op] ∨ (runOp op s).2 = [.tx Param.guardMark] ∨
      (op = .recvArg ∧ (runOp op s).2 = [.busWrite Param.cmdArg s.serial.rxData]) := by
  cases op with
  | tx b => cases h : s.serial.txReady <;> simp [runOp, serialTx, h]
  | busWrite a v =>
    cases ho : s.owns with
    | true => simp [runOp, busWrite_owned s a v ho]
    | false => cases h : s.serial.txReady <;> simp [runOp, busWrite_refused s a v ho, serialTx, h]
  | recvArg => cases h : s.serial.rxAvail <;> simp [runOp, h]
  | _ => exact .inl rfl

/-! ### SerialPoll and getch -/

theorem serialPoll_kept (h : s.serial.rxAvail = true) (hc : s.fifo.count < Config.fifoCap) :
    serialPoll s = ({ s.takeRx with fifo := s.fifo.push s.serial.rxData }, some s.serial.rxData) := by
  simp only [serialPoll, pollBegin, h, if_true, Fifo.isFull, hc, decide_true, Bool.not_true, Bool.false_eq_true, if_false]
  rfl

theorem serialPoll_dropped (h : s.serial.rxAvail = true) (hc : s.fifo.count = Config.fifoCap) :
    serialPoll s = (s.takeRx, some s.serial.rxData) := by
  simp [serialPoll, pollBegin, h, Fifo.isFull, hc, runAll]

theorem serialPoll_none (h : s.serial.rxAvail = false) : serialPoll s = (s, none) := by
  simp [serialPoll, pollBegin, h, runAll]

theorem getch_buffered (h : s.fifo.isEmpty = false) :
    getch s = some (s.fifo.front, { s with fifo := s.fifo.pop }) := by
  simp only [getch, getchBegin, h, Bool.false_eq_true, if_false, Option.map_some]
  rfl

theorem getch_raw (h : s.fifo.isEmpty = true) : getch s = serialRxRaw s := by
  cases hr : s.serial.rxAvail <;> simp [getch, getchBegin, h, hr, runAll]

end Sys2Proof.Machine
end

