-- ==== Sys2Proof/Laws/Exec.lean ====
section
/-! SUPPORT. The first micro-step of each command (spec/42_command_dispatch.md), by cases where it waits or not. -/

namespace Sys2Proof.Machine

variable (s : State)

/-- Every command answers a next state. -/
theorem exec_next (i : Instr) : ∃ t, exec i s = .next t := by
  cases i with
  | getch =>
    simp only [exec, execGetch]
    split <;> exact ⟨_, rfl⟩
  | _ => exact ⟨_, rfl⟩

theorem exec_exit : exec .exit s = .next (stepBody [.tx Param.exitByte, .clearRun] s) := rfl

theorem exec_getch_buffered (h : s.fifo.isEmpty = false) :
    exec .getch s =
      .next (({ s with fifo := s.fifo.advanceRd } : State).bodyLeft
        [.countDown, .busWrite (argAddr 0) s.fifo.front]) := by
  simp [exec, execGetch, getchBegin, h]

theorem exec_getch_raw (h : s.fifo.isEmpty = true) (hr : s.serial.rxAvail = true) :
    exec .getch s = .next (s.takeRx.bodyLeft [.busWrite (argAddr 0) s.serial.rxData]) := by
  simp [exec, execGetch, getchBegin, h, hr]

theorem exec_getch_wait (h : s.fifo.isEmpty = true) (hr : s.serial.rxAvail = false) :
    exec .getch s = .next (s.bodyLeft [.recvArg]) := by
  simp [exec, execGetch, getchBegin, h, hr]

theorem exec_putch :
    exec .putch s =
      .next ((busRead (argAddr 0) s).state.bodyLeft
        ((busRead (argAddr 0) s).left ++ [.tx (busRead (argAddr 0) s).result])) := rfl

theorem exec_putch_owned (h : s.owns = true) :
    exec .putch s =
      .next (({ s with
        lines := s.lines.afterRead (argAddr 0)
        pins := s.pins ++ readPins (argAddr 0) } : State).bodyLeft [.tx (s.memRead (argAddr 0))]) := by
  rw [exec_putch, busRead_owned s _ h]
  rfl

theorem exec_gettime :
    exec .gettime s =
      .next (s.getTime.bodyLeft (timeWrites s.getTime.clock.snapLo s.getTime.clock.snapHi)) := rfl

theorem exec_prtime : exec .prtime s = .next (s.getTime.bodyLeft (s.getTime.clock.snapText.map .tx)) := rfl

theorem doUnknown_eq : doUnknown s = stepBody [.tx Param.unknownMark] s := rfl

/-- Every byte from 0x05 on has the meaning of an unknown code. -/
theorem exec_of_unknown {b : Byte} (h : 5 ≤ b.toNat) : exec (decodeByte b) s = .next (doUnknown s) := by
  have h0 : b ≠ 0 := by rintro rfl; simp at h
  have h1 : b ≠ 1 := by rintro rfl; simp at h
  have h2 : b ≠ 2 := by rintro rfl; simp at h
  have h3 : b ≠ 3 := by rintro rfl; simp at h
  have h4 : b ≠ 4 := by rintro rfl; simp at h
  unfold decodeByte
  repeat' split
  all_goals rfl

/-- What a command's first micro-step can be. -/
theorem exec_cases {s t : State} {i : Instr} (h : exec i s = .next t) :
    (i = .exit ∧ t = stepBody [.tx Param.exitByte, .clearRun] s) ∨
    (i = .getch ∧ s.fifo.isEmpty = false ∧
      t = ({ s with fifo := s.fifo.advanceRd } : State).bodyLeft [.countDown, .busWrite (argAddr 0) s.fifo.front]) ∨
    (i = .getch ∧ s.fifo.isEmpty = true ∧ s.serial.rxAvail = true ∧
      t = s.takeRx.bodyLeft [.busWrite (argAddr 0) s.serial.rxData]) ∨
    (i = .getch ∧ s.fifo.isEmpty = true ∧ s.serial.rxAvail = false ∧ t = s.bodyLeft [.recvArg]) ∨
    (i = .putch ∧
      t = (busRead (argAddr 0) s).state.bodyLeft
        ((busRead (argAddr 0) s).left ++ [.tx (busRead (argAddr 0) s).result])) ∨
    (i = .gettime ∧ t = s.getTime.bodyLeft (timeWrites s.getTime.clock.snapLo s.getTime.clock.snapHi)) ∨
    (i = .prtime ∧ t = s.getTime.bodyLeft (s.getTime.clock.snapText.map .tx)) ∨
    (i ≠ .exit ∧ i ≠ .getch ∧ i ≠ .putch ∧ i ≠ .gettime ∧ i ≠ .prtime ∧ t = stepBody [.tx Param.unknownMark] s) := by
  cases i with
  | getch =>
    cases hf : s.fifo.isEmpty with
    | false => rw [exec_getch_buffered s hf] at h; cases h; simp
    | true =>
      cases hr : s.serial.rxAvail with
      | true => rw [exec_getch_raw s hf hr] at h; cases h; simp
      | false => rw [exec_getch_wait s hf hr] at h; cases h; simp
  | _ => cases h; simp <;> rfl

end Sys2Proof.Machine
end

