-- ==== Sys2Proof/Laws/Fifo.lean ====
section
/-! SUPPORT. The FIFO seen as a sequence (spec/10_state.md R36): push appends, pop takes the oldest, both keep R35. -/

namespace Sys2Proof.Machine

@[simp] theorem Fifo.contents_length (f : Fifo) : f.contents.length = f.count := by simp [Fifo.contents]

theorem Fifo.contents_getElem (f : Fifo) (i : Nat) (h : i < f.contents.length) :
    f.contents[i] = f.buf.toList.getD ((f.rd.val + i) % Config.fifoCap) 0 := by
  simp [Fifo.contents]

theorem Fifo.pop_inv (f : Fifo) (h : f.Inv) (hc : 0 < f.count) : f.pop.Inv := by
  obtain ⟨hle, hw⟩ := h
  have hrd := f.rd.isLt
  refine ⟨by simp only [Fifo.pop_count]; omega, ?_⟩
  simp only [Fifo.pop_wr, Fifo.pop_rd, Fifo.pop_count, Fin.val_add, Config.fifoCap] at *
  rw [hw]
  have : ((1 : Fin 255) : Nat) = 1 := rfl
  rw [this]
  omega

theorem Fifo.push_inv (f : Fifo) (b : Byte) (h : f.Inv) (hc : f.count < Config.fifoCap) : (f.push b).Inv := by
  obtain ⟨hle, hw⟩ := h
  have hrd := f.rd.isLt
  refine ⟨by simp only [Fifo.push_count]; omega, ?_⟩
  simp only [Fifo.push_wr, Fifo.push_rd, Fifo.push_count, Fin.val_add, Config.fifoCap] at *
  rw [hw]
  have : ((1 : Fin 255) : Nat) = 1 := rfl
  rw [this]
  omega

/-- Pop takes the head of the sequence. -/
theorem Fifo.contents_pop (f : Fifo) (hc : 0 < f.count) : f.contents = f.front :: f.pop.contents := by
  apply List.ext_getElem
  · simp; omega
  intro i h1 h2
  rw [Fifo.contents_getElem]
  have hrd := f.rd.isLt
  cases i with
  | zero =>
    simp [Fifo.front, Vector.get, Nat.mod_eq_of_lt hrd]
  | succ i =>
    rw [List.getElem_cons_succ, Fifo.contents_getElem]
    simp only [Fifo.pop_buf, Fifo.pop_rd, Fin.val_add]
    have : ((1 : Fin 255) : Nat) = 1 := rfl
    rw [this]
    congr 1
    simp only [Config.fifoCap]
    omega

/-- Push appends to the sequence, while there is room. -/
theorem Fifo.contents_push (f : Fifo) (b : Byte) (h : f.Inv) (hc : f.count < Config.fifoCap) :
    (f.push b).contents = f.contents ++ [b] := by
  obtain ⟨hle, hw⟩ := h
  have hrd := f.rd.isLt
  apply List.ext_getElem
  · simp
  intro i h1 h2
  have hi : i ≤ f.count := by simpa [Nat.lt_succ_iff] using h1
  rw [Fifo.contents_getElem]
  have hlen : ((f.rd.val + i) % 255) < 255 := Nat.mod_lt _ (by omega)
  simp only [Fifo.push_buf, Fifo.push_rd, Config.fifoCap] at *
  rcases Nat.lt_or_eq_of_le hi with hlt | heq
  · rw [List.getElem_append_left (by simpa using hlt), Fifo.contents_getElem]
    have hne : f.wr.val ≠ (f.rd.val + i) % 255 := by rw [hw]; omega
    simp [List.getD_eq_getElem?_getD, Vector.toList_set, hne]
  · subst heq
    rw [List.getElem_append_right (by simp)]
    simp [List.getD_eq_getElem?_getD, Vector.toList_set, ← hw]

end Sys2Proof.Machine
end

