-- ==== Sys2Proof/Laws/PerInstr.lean ====
section
/-! SUPPORT. A law about every command as syntax: its encoding lies in its own row of spec/opcode_table.json, and that
row is one of the table (spec/30_encoding.md R91, R100). -/

namespace Sys2Proof.Laws.EncodeRow

/-- The encoded byte has the row's fixed bits, and the row is in the table. -/
def Statement (i : Instr) : Prop :=
  i.WellFormed → fitsRow (encodeByte i) (i.rowMatch, i.rowMask) = true ∧ (i.rowMatch, i.rowMask) ∈ opcodeRows

theorem exit : Statement .exit := fun _ => by decide
theorem getch : Statement .getch := fun _ => by decide
theorem putch : Statement .putch := fun _ => by decide
theorem gettime : Statement .gettime := fun _ => by decide
theorem prtime : Statement .prtime := fun _ => by decide
theorem unknown05 : Statement .unknown05 := fun _ => by decide
theorem unknown06 (c : Nat) : Statement (.unknown06 c) :=
  (by decide : ∀ d < 2, fitsRow (encodeByte (.unknown06 d)) ((Instr.unknown06 d).rowMatch, (Instr.unknown06 d).rowMask) =
    true ∧ ((Instr.unknown06 d).rowMatch, (Instr.unknown06 d).rowMask) ∈ opcodeRows) c
theorem unknown08 (c : Nat) : Statement (.unknown08 c) :=
  (by decide : ∀ d < 8, fitsRow (encodeByte (.unknown08 d)) ((Instr.unknown08 d).rowMatch, (Instr.unknown08 d).rowMask) =
    true ∧ ((Instr.unknown08 d).rowMatch, (Instr.unknown08 d).rowMask) ∈ opcodeRows) c
theorem unknown10 (c : Nat) : Statement (.unknown10 c) :=
  (by decide : ∀ d < 16, fitsRow (encodeByte (.unknown10 d)) ((Instr.unknown10 d).rowMatch, (Instr.unknown10 d).rowMask) =
    true ∧ ((Instr.unknown10 d).rowMatch, (Instr.unknown10 d).rowMask) ∈ opcodeRows) c
theorem unknown20 (c : Nat) : Statement (.unknown20 c) :=
  (by decide : ∀ d < 32, fitsRow (encodeByte (.unknown20 d)) ((Instr.unknown20 d).rowMatch, (Instr.unknown20 d).rowMask) =
    true ∧ ((Instr.unknown20 d).rowMatch, (Instr.unknown20 d).rowMask) ∈ opcodeRows) c
theorem unknown40 (c : Nat) : Statement (.unknown40 c) :=
  (by decide : ∀ d < 64, fitsRow (encodeByte (.unknown40 d)) ((Instr.unknown40 d).rowMatch, (Instr.unknown40 d).rowMask) =
    true ∧ ((Instr.unknown40 d).rowMatch, (Instr.unknown40 d).rowMask) ∈ opcodeRows) c
theorem unknown80 (c : Nat) : Statement (.unknown80 c) :=
  (by decide : ∀ d < 128, fitsRow (encodeByte (.unknown80 d)) ((Instr.unknown80 d).rowMatch, (Instr.unknown80 d).rowMask) =
    true ∧ ((Instr.unknown80 d).rowMatch, (Instr.unknown80 d).rowMask) ∈ opcodeRows) c

end Sys2Proof.Laws.EncodeRow
end

