-- ==== Sys2Proof/Laws/Step.lean ====
section
/-! SUPPORT. What one step of the machine can be: one case for each agent and each position of CTRL. -/

namespace Sys2Proof.Machine

variable {s t : State}

theorem step_of_due (h : s.clock.interruptDue = true) : step s = .next s.takeInterrupt := by
  simp [step, machineStep, h]

theorem step_of_not_due (h : s.clock.interruptDue = false) : step s = agentStep s.nextAgent s.popTurn := by
  simp [step, machineStep, h]

/-- While the environment is quiet, CTRL moves. -/
theorem step_of_quiet (h : s.Quiet) : step s = ctrlStep s := by
  obtain ⟨h1, h2⟩ := h
  rw [step_of_not_due h2, State.nextAgent, h1]
  have : s.popTurn = s := by
    obtain ⟨l, rt, f, p, c, r, fi, se, cl, m, pi, e⟩ := s
    obtain ⟨tu, hi, sc, se'⟩ := e
    simp only at h1
    subst h1
    rfl
  rw [this]
  rfl

theorem ctrlStep_of_loopHead (h : s.pos = .loopHead) : ctrlStep s = .next (loopHeadStep s) := by simp [ctrlStep, h]
theorem ctrlStep_of_idleSample (h : s.pos = .idleSample) : ctrlStep s = .next (idleSampleStep s) := by simp [ctrlStep, h]
theorem ctrlStep_of_fetch (h : s.pos = .fetch) : ctrlStep s = .next (fetchStep s) := by simp [ctrlStep, h]
theorem ctrlStep_of_dispatch (h : s.pos = .dispatch) : ctrlStep s = exec (decodeByte s.cmd) s := by simp [ctrlStep, h]
theorem ctrlStep_of_polling {ops : List MicroOp} (h : s.pos = .polling ops) : ctrlStep s = .next (stepPoll ops s) := by
  simp [ctrlStep, h]
theorem ctrlStep_of_release (h : s.pos = .release) : ctrlStep s = .next (releaseStep s) := by simp [ctrlStep, h]
theorem ctrlStep_of_wakeLow (h : s.pos = .wakeLow) : ctrlStep s = .next (wakeLowStep s) := by simp [ctrlStep, h]
theorem ctrlStep_of_wakeHigh (h : s.pos = .wakeHigh) : ctrlStep s = .next (wakeHighStep s) := by simp [ctrlStep, h]
theorem ctrlStep_of_passEnd (h : s.pos = .passEnd) : ctrlStep s = .next (passEndStep s) := by simp [ctrlStep, h]
theorem ctrlStep_of_returned (h : s.pos = .returned) : ctrlStep s = .next s := by simp [ctrlStep, h]
theorem ctrlStep_of_command {ops : List MicroOp} (h : s.pos = .command ops) : ctrlStep s = .next (stepBody ops s) := by
  simp [ctrlStep, h]

/-- What CTRL's step can be, by position. -/
theorem ctrlStep_cases (h : ctrlStep s = .next t) :
    (s.pos = .loopHead ∧ t = loopHeadStep s) ∨ (∃ ops, s.pos = .polling ops ∧ t = stepPoll ops s) ∨
    (s.pos = .idleSample ∧ t = idleSampleStep s) ∨ (s.pos = .fetch ∧ t = fetchStep s) ∨
    (s.pos = .dispatch ∧ exec (decodeByte s.cmd) s = .next t) ∨ (∃ ops, s.pos = .command ops ∧ t = stepBody ops s) ∨
    (s.pos = .release ∧ t = releaseStep s) ∨ (s.pos = .wakeLow ∧ t = wakeLowStep s) ∨
    (s.pos = .wakeHigh ∧ t = wakeHighStep s) ∨ (s.pos = .passEnd ∧ t = passEndStep s) ∨
    (s.pos = .returned ∧ t = s) := by
  unfold ctrlStep at h
  cases hp : s.pos <;>
    simp only [hp, Host.Outcome.next.injEq, reduceCtorEq, false_and, false_or, or_false, true_and, exists_const,
      Position.command.injEq, Position.polling.injEq, exists_eq_left'] at h ⊢ <;>
    first | exact h | exact h.symm

/-- The fetch with the bus owned (R147). -/
theorem fetchStep_owned (h : s.owns = true) :
    fetchStep s =
      { s with
        lines := s.lines.afterRead Param.command
        pins := s.pins ++ readPins Param.command
        cmd := s.memRead Param.command
        pos := .dispatch } := by
  simp only [fetchStep, busRead_owned s _ h, fetched]

/-- The fetch without ownership, outside the core (R125). -/
theorem fetchStep_refused (h : s.owns = false) :
    fetchStep s =
      if s.serial.txReady then { s.send Param.guardMark with cmd := 0x00, pos := .dispatch } else s := by
  cases hr : s.serial.txReady <;> simp [fetchStep, busRead_refused s _ h, serialTx, hr, fetched]

/-- IdleStep begins with nothing to store: no byte waits, or the FIFO is full (R200, R202). -/
theorem idlePoll_short (h : s.serial.rxAvail = false ∨ s.fifo.count = Config.fifoCap) :
    idlePoll s = { (serialPoll s).1 with pos := .idleSample } := by
  cases hr : s.serial.rxAvail with
  | false => simp [idlePoll, serialPoll, pollBegin, hr, runAll, State.pollLeft]
  | true =>
    have hc : s.fifo.count = Config.fifoCap := h.resolve_left (by simp [hr])
    simp [idlePoll, serialPoll, pollBegin, hr, Fifo.isFull, hc, runAll, State.pollLeft]

/-- IdleStep begins by taking a byte that is to be stored (R200). -/
theorem idlePoll_long (h : s.serial.rxAvail = true) (hc : s.fifo.count < Config.fifoCap) :
    idlePoll s = { s.takeRx with pos := .polling [.bufStore s.serial.rxData, .wrAdvance, .countUp] } := by
  simp [idlePoll, pollBegin, h, Fifo.isFull, hc, State.pollLeft]

/-- What the target's turn can be. -/
theorem tgtTurn_cases (h : tgtTurn s = .next t) :
    t = s ∨
    (∃ a v rest, s.env.script = .store a v :: rest ∧ s.targetMayAccess = true ∧
      t = { s.memWrite a v with env := { s.env with script := rest } }) ∨
    (∃ a rest, s.env.script = .load a :: rest ∧ s.targetMayAccess = true ∧
      t = { s with env := { s.env with script := rest, seen := s.env.seen ++ [(a, s.memRead a)] } }) ∨
    (∃ rest, s.env.script = .rdyLow :: rest ∧ s.targetMayRequest = true ∧
      t = { s with rdyT := .low, env := { s.env with script := rest } }) ∨
    (∃ rest, s.env.script = .rdyRelease :: rest ∧
      t = { s with rdyT := .released, env := { s.env with script := rest } }) ∨
    (∃ rest, s.env.script = .driveBus :: rest ∧ s.targetMayAccess = true ∧
      t = { s with env := { s.env with script := rest } }) := by
  unfold tgtTurn at h
  split at h
  · exact .inl (Host.Outcome.next.inj h).symm
  · next a v rest hs =>
    split at h
    · next hm => exact .inr (.inl ⟨a, v, rest, hs, hm, (Host.Outcome.next.inj h).symm⟩)
    · exact .inl (Host.Outcome.next.inj h).symm
  · next a rest hs =>
    split at h
    · next hm => exact .inr (.inr (.inl ⟨a, rest, hs, hm, (Host.Outcome.next.inj h).symm⟩))
    · exact .inl (Host.Outcome.next.inj h).symm
  · next rest hs =>
    split at h
    · next hm => exact .inr (.inr (.inr (.inl ⟨rest, hs, hm, (Host.Outcome.next.inj h).symm⟩)))
    · exact .inl (Host.Outcome.next.inj h).symm
  · next rest hs => exact .inr (.inr (.inr (.inr (.inl ⟨rest, hs, (Host.Outcome.next.inj h).symm⟩))))
  · next rest hs =>
    split at h
    · exact absurd h (by simp)
    · split at h
      · next hm => exact .inr (.inr (.inr (.inr (.inr ⟨rest, hs, hm, (Host.Outcome.next.inj h).symm⟩))))
      · exact absurd h (by simp)

/-- What one step can be: the interrupt, or the turn of one agent. -/
theorem step_cases (h : step s = .next t) :
    (s.clock.interruptDue = true ∧ t = s.takeInterrupt) ∨
    (s.clock.interruptDue = false ∧
      ((s.nextAgent = .ctrl ∧ ctrlStep s.popTurn = .next t) ∨ (s.nextAgent = .tmr ∧ t = tmrTurn s.popTurn) ∨
       (s.nextAgent = .tgt ∧ tgtTurn s.popTurn = .next t) ∨ (s.nextAgent = .hostRx ∧ t = hostRxTurn s.popTurn) ∨
       (s.nextAgent = .hostTx ∧ t = hostTxTurn s.popTurn) ∨ (s.nextAgent = .shell ∧ t = shellTurn s.popTurn))) := by
  cases hd : s.clock.interruptDue with
  | true => exact .inl ⟨rfl, (Host.Outcome.next.inj ((step_of_due hd).symm.trans h)).symm⟩
  | false =>
    refine .inr ⟨rfl, ?_⟩
    rw [step_of_not_due hd] at h
    cases ha : s.nextAgent <;> rw [ha] at h <;>
      simp only [agentStep, Host.Outcome.next.injEq, reduceCtorEq, false_and, false_or, or_false, true_and] at h ⊢ <;>
      first | exact h | exact h.symm

/-- Another agent's turn leaves CTRL where it stands, with the FIFO and the latches as they are, unless the shell enters
a loop that has returned (R7, R48). -/
theorem step_of_other (h : step s = .next t) (hd : s.clock.interruptDue = false) (ha : s.nextAgent ≠ .ctrl)
    (hp : s.pos ≠ .returned) : t.pos = s.pos ∧ t.fifo = s.fifo ∧ t.lines = s.lines := by
  rcases step_cases h with ⟨hd', -⟩ | ⟨-, ⟨h', -⟩ | ⟨-, rfl⟩ | ⟨-, hc⟩ | ⟨-, rfl⟩ | ⟨-, rfl⟩ | ⟨-, rfl⟩⟩
  · simp [hd] at hd'
  · exact absurd h' ha
  · exact ⟨rfl, rfl, rfl⟩
  · rcases tgtTurn_cases hc with rfl | ⟨_, _, _, _, _, rfl⟩ | ⟨_, _, _, _, rfl⟩ | ⟨_, _, _, rfl⟩ | ⟨_, _, rfl⟩ |
      ⟨_, _, _, rfl⟩ <;> exact ⟨rfl, rfl, rfl⟩
  · unfold hostRxTurn
    split
    · exact ⟨rfl, rfl, rfl⟩
    · split <;> exact ⟨rfl, rfl, rfl⟩
  · exact ⟨rfl, rfl, rfl⟩
  · simp [shellTurn, hp]

/-- CTRL's turn is CTRL's step. -/
theorem step_of_ctrl (hd : s.clock.interruptDue = false) (ha : s.nextAgent = .ctrl) : step s = ctrlStep s.popTurn := by
  rw [step_of_not_due hd, ha]; rfl

/-! ### Runs -/

theorem run_zero : core.run 0 s = .next s := rfl

theorem run_succ {n : Nat} (h : step s = .next t) : core.run (n + 1) s = core.run n t := by
  have e (M : Host.Core) (a : M.State) :
      M.run (n + 1) a =
        match M.step a with
        | .next s' => M.run n s'
        | .fault r => .fault r
        | .refused r => .refused r := rfl
  rw [e core s, show core.step s = .next t from h]

/-- A run's first step while the environment is quiet is CTRL's. -/
theorem run_of_quiet {n : Nat} (q : s.Quiet) (h : ctrlStep s = .next t) : core.run (n + 1) s = core.run n t :=
  run_succ ((step_of_quiet q).trans h)

end Sys2Proof.Machine
end

