-- ==== Sys2Proof/Laws/Window.lean ====
section
/-! SUPPORT. A command inside its window (spec/41_handshake_fsm.md R147, R148): traces followed piece by piece, the bus
transactions of a window, and one micro-step of a command's body. -/

namespace Sys2Proof.Machine

/-- The next of GETTIME's four writes. -/
theorem timeWrites_drop (c : Clock) (n : Nat) (h : n < 4) :
    (timeWrites c.snapLo c.snapHi).drop n =
      .busWrite (argAddr n) (c.snapByte n) :: (timeWrites c.snapLo c.snapHi).drop (n + 1) := by
  have : n = 0 ∨ n = 1 ∨ n = 2 ∨ n = 3 := by omega
  rcases this with rfl | rfl | rfl | rfl <;>
    simp [timeWrites, c.snapByte_zero, c.snapByte_one, c.snapByte_two, c.snapByte_three]

/-- A trace is followed piece by piece. -/
theorem replay_append (es fs : List PinEvent) :
    ∀ v, replay v (es ++ fs) = (replay v es).bind (fun w => replay w fs) := by
  induction es with
  | nil => intro v; rfl
  | cons e es ih =>
    intro v
    simp only [List.cons_append, replay]
    cases v.after e with
    | none => rfl
    | some w => exact ih w

/-- Inside a window, after the command fetch, between two transactions: the invariant but for what goes with the
micro-steps left. -/
structure InWindow (s : State) : Prop where
  trace : replay BusView.idle s.pins = some (BusView.window false)
  lines : s.lines.Shows (BusView.window false)
  fsm : s.fsm = .servicing
  run : s.run = true
  latched : s.cmd = s.memRead Param.command
  enabled : s.clock.ien = true
  noneDue : s.clock.ovfPending = false
  cap : s.fifo.count ≤ Config.fifoCap
  mem : s.mem.wf = true

theorem InWindow.owns {s : State} (h : InWindow s) : s.owns = true := by
  simpa [State.owns, BusView.window] using h.lines.1

theorem isArgAddr_iff (a : Byte) : isArgAddr a = true ↔ a = 0xF1#8 ∨ a = 0xF2#8 ∨ a = 0xF3#8 ∨ a = 0xF4#8 := by
  revert a; decide

theorem hasLeft_of_bodyLeft (i : Instr) (ops q : List MicroOp) (s : State) :
    HasLeft i ops (s.bodyLeft q) ↔ HasLeft i ops s := by
  cases i <;> exact Iff.rfl

/-- With what is left of the command standing in `pos`, the invariant is whole. -/
theorem InWindow.inv {s : State} (h : InWindow s) (ops : List MicroOp) (hl : HasLeft (decodeByte s.cmd) ops s)
    (hf : (ops.foldl (fun f op => op.onFifo f) s.fifo).Inv) : (s.bodyLeft ops).Inv := by
  obtain ⟨tr, li, fs, ru, la, en, nd, ca, me⟩ := h
  refine ⟨by simpa [State.bodyLeft] using tr, by simpa [State.bodyLeft] using li, ?_, ?_, fun _ => la,
    fun h => absurd (ru.symm.trans h) (by simp), en, nd, ?_, ca, me⟩
  · cases ops with
    | nil => exact fs
    | cons => exact ⟨fs, ru⟩
  · cases ops with
    | nil => exact (hasLeft_of_bodyLeft _ _ _ _).mpr hl
    | cons => exact ⟨by simp, (hasLeft_of_bodyLeft _ _ _ _).mpr hl⟩
  · simpa [State.settledFifo, State.bodyLeft] using hf

/-- A write of an argument byte stays inside the window. -/
theorem InWindow.write {s : State} (h : InWindow s) (a v : Byte) (ha : isArgAddr a = true) :
    InWindow (busWrite a v s).state := by
  rw [busWrite_owned _ _ _ h.owns]
  refine ⟨?_, ?_, h.fsm, h.run, ?_, h.enabled, h.noneDue, h.cap, Memory.wf_write _ _ _ h.mem⟩
  · simp only [replay_append, h.trace]
    simp [writePins, replay, BusView.after, BusView.window, BusView.idle, BusView.strobesOff, BusView.mayAddress, ha]
  · obtain ⟨h1, h2, h3, h4, h5, h6, h7⟩ := h.lines
    refine ⟨h1, h2, h3, rfl, h5, rfl, rfl⟩
  · refine h.latched.trans ?_
    refine (Memory.read_write_other _ _ ?_).symm
    rcases (isArgAddr_iff a).mp ha with rfl | rfl | rfl | rfl <;> decide

/-- A read of an argument byte stays inside the window. -/
theorem InWindow.read {s : State} (h : InWindow s) (a : Byte) (ha : isArgAddr a = true) :
    InWindow (busRead a s).state := by
  rw [busRead_owned _ _ h.owns]
  refine ⟨?_, ?_, h.fsm, h.run, h.latched, h.enabled, h.noneDue, h.cap, h.mem⟩
  · simp only [replay_append, h.trace]
    simp [readPins, replay, BusView.after, BusView.window, BusView.idle, BusView.strobesOff, BusView.mayAddress, ha]
  · obtain ⟨h1, h2, h3, h4, h5, h6, h7⟩ := h.lines
    refine ⟨h1, h2, h3, h4, rfl, rfl, h7⟩

theorem InWindow.send {s : State} (h : InWindow s) (b : Byte) : InWindow (s.send b) :=
  ⟨h.1, h.2, h.3, h.4, h.5, h.6, h.7, h.8, h.9⟩

theorem argAddr_isArgAddr (i : Nat) (h : i < 4) : isArgAddr (argAddr i) = true := by revert i; decide
theorem argAddr_inj (i j : Nat) (h : i < 4) (hj : j < 4) (hij : argAddr i = argAddr j) : i = j := by
  have : ∀ i < 4, ∀ j < 4, argAddr i = argAddr j → i = j := by decide
  exact this i h j hj hij

/-- Only the byte 0x00 is EXIT. -/
theorem exit_of_decodeByte {b : Byte} (h : decodeByte b = .exit) : b = 0 := by revert b; decide

/-- A micro-step of the command in `cmd`, inside its window, keeps the invariant, whatever is left of the command. -/
theorem InWindow.stepBody_inv {s : State} (h : InWindow s) (ops : List MicroOp) (hne : ops ≠ [])
    (hl : HasLeft (decodeByte s.cmd) ops s)
    (hf : (ops.foldl (fun f op => op.onFifo f) s.fifo).Inv) : (stepBody ops s).Inv := by
  have tx : ∀ b o, ops = .tx b :: o →
      (s.serial.txReady = true → HasLeft (decodeByte s.cmd) o (s.send b)) → (stepBody ops s).Inv := by
    rintro b o rfl hh
    cases hr : s.serial.txReady with
    | true =>
      rw [stepBody_tx_ready s b o hr]
      exact InWindow.inv (h.send b) _ (hh hr) (by simpa [MicroOp.onFifo] using hf)
    | false => rw [stepBody_tx_busy s b o hr]; exact InWindow.inv h _ hl hf
  generalize hi : decodeByte s.cmd = i at hl tx
  cases i with
  | exit =>
    rcases hl with rfl | ⟨rfl, hl⟩ | ⟨rfl, hl⟩
    · exact tx _ _ rfl fun _ => .inr (.inl ⟨rfl, by simp⟩)
    · rw [stepBody_clearRun]
      refine ⟨h.trace, h.lines, h.fsm, ?_, fun _ => h.latched, fun _ => exit_of_decodeByte hi, h.enabled,
        h.noneDue, hf, h.cap, h.mem⟩
      show HasLeft (decodeByte s.cmd) [] _
      rw [hi]; exact .inr (.inr ⟨rfl, hl, rfl⟩)
    · simp at hne
  | getch =>
    rcases hl with ⟨rfl, he⟩ | ⟨b, rfl, hc⟩ | ⟨b, rfl⟩ | ⟨rfl, -⟩
    · cases hr : s.serial.rxAvail with
      | true =>
        rw [stepBody_recvArg _ _ hr]
        refine InWindow.inv (s := s.takeRx) ⟨h.1, h.2, h.3, h.4, h.5, h.6, h.7, h.8, h.9⟩ _ ?_ hf
        show HasLeft (decodeByte s.cmd) _ _
        rw [hi]; exact .inr (.inr (.inl ⟨_, rfl⟩))
      | false =>
        rw [stepBody_recvArg_wait _ _ hr]
        exact InWindow.inv h _ (by rw [hi]; exact .inl ⟨rfl, he⟩) hf
    · rw [stepBody_countDown]
      refine InWindow.inv (s := { s with fifo := s.fifo.countDown })
        ⟨h.1, h.2, h.3, h.4, h.5, h.6, h.7, ?_, h.9⟩ _ ?_ hf
      · have := h.cap; simp [Fifo.countDown]; omega
      · show HasLeft (decodeByte s.cmd) _ _
        rw [hi]; exact .inr (.inr (.inl ⟨_, rfl⟩))
    · rw [stepBody_write _ _ _ _ h.owns]
      have w := h.write (argAddr 0) b (by decide)
      rw [busWrite_owned _ _ _ h.owns] at w
      refine InWindow.inv w _ ?_ hf
      show HasLeft (decodeByte s.cmd) _ _
      rw [hi]; exact .inr (.inr (.inr ⟨rfl, rfl, Memory.read_write_same _ _ _⟩))
    · simp at hne
  | putch =>
    rcases hl with rfl | ⟨rfl, hl⟩
    · exact tx _ _ rfl fun _ => .inr ⟨rfl, by simp; rfl⟩
    · simp at hne
  | gettime =>
    obtain ⟨n, hn, rfl, hs⟩ := hl
    have hn4 : n < 4 := by
      rcases Nat.lt_or_eq_of_le hn with h | rfl
      · exact h
      · exact absurd rfl hne
    have key := timeWrites_drop s.clock n hn4
    rw [key] at hf ⊢
    rw [stepBody_write _ _ _ _ h.owns]
    have w := h.write (argAddr n) (s.clock.snapByte n) (argAddr_isArgAddr n hn4)
    rw [busWrite_owned _ _ _ h.owns] at w
    refine InWindow.inv w _ ?_ hf
    show HasLeft (decodeByte s.cmd) _ _
    rw [hi]
    refine ⟨n+1, by omega, rfl, ?_⟩
    intro i hi'
    rcases Nat.lt_or_eq_of_le (Nat.lt_succ_iff.mp hi') with hh | rfl
    · have := hs i hh
      refine Eq.trans (Memory.read_write_other _ _ ?_) this
      intro he
      have := argAddr_inj i n (by omega) hn4 (BitVec.eq_of_toNat_eq he)
      omega
    · exact Memory.read_write_same _ _ _
  | prtime =>
    obtain ⟨n, hn, rfl, hs⟩ := hl
    have hn9 : n < 9 := by
      rcases Nat.lt_or_eq_of_le hn with h | rfl
      · exact h
      · exact absurd rfl hne
    have hlen : s.clock.snapText.length = 9 := rfl
    have key := List.drop_eq_getElem_cons (l := s.clock.snapText) (i := n) (by omega)
    refine tx s.clock.snapText[n] (((s.clock.snapText).drop (n+1)).map .tx) (by rw [key]; rfl) fun _ => ?_
    refine ⟨n+1, by omega, rfl, ?_⟩
    obtain ⟨p, hp⟩ := hs
    refine ⟨p, ?_⟩
    show p ++ s.clock.snapText.take (n+1) = s.serial.txLog ++ [_]
    rw [← hp, List.append_assoc, List.take_add_one,
      List.getElem?_eq_getElem (by omega : n < s.clock.snapText.length)]
    rfl
  | _ =>
    rcases hl with rfl | ⟨rfl, hl⟩
    · exact tx _ _ rfl fun _ => .inr ⟨rfl, by simp⟩
    · simp at hne

end Sys2Proof.Machine
end

