-- ==== Sys2Proof/Tests/Slice0.lean ====
section
/-! SUPPORT. Tests of the model, their expected results from spec/30_encoding.md R91 and spec/95_test_vectors.md, and
for every obligation with hypotheses a named state and operands that meet them. -/

namespace Sys2Proof.Tests

open Sys2Proof Sys2Proof.Machine

/-- The state a step answers. -/
def nextOf : Host.Outcome State Fault Refusal → Option State
  | .next s => some s
  | .fault _ => none
  | .refused _ => none

/-- Reset, about to dispatch the command byte `b`. -/
def ready (b : Nat) : State := State.reset.withFetchWord 8 b

/-- Reset, the bus acquired, about to fetch the command byte `b`. -/
def fetching (b : Byte) : State :=
  { (acquire State.reset).memWrite 0xF0 b with fsm := .servicing, pos := .fetch }

/-- `s` after one step. -/
def stepped (s : State) : State := (nextOf (step s)).getD State.reset

/-- `s` at a position of the loop. -/
def at_ (p : Position) (s : State) : State := { s with pos := p }

/-- `s` with these micro-steps left of its command. -/
def left (ops : List MicroOp) (s : State) : State := at_ (.command ops) s

/-- `s` with the timer at a value. -/
def timer (lo hi : Word16) (s : State) : State := { s with clock := { s.clock with tlo := lo, thi := hi } }

/-- `s` with a byte in the receiver. -/
def received (b : Byte) (s : State) : State := { s with serial := { s.serial with rxAvail := true, rxData := b } }

/-- `s` with the transmitter not ready. -/
def busy (s : State) : State := { s with serial := { s.serial with txReady := false } }

/-- `s` with a byte buffered by one SerialPoll. -/
def buffered (b : Byte) (s : State) : State := (serialPoll (received b s)).1

/-- `s` with the given turns to come. -/
def turns (ts : List Agent) (s : State) : State := { s with env := { s.env with turns := ts } }

/-- `s` with the given acts left to the target. -/
def script (acts : List TgtAct) (s : State) : State := { s with env := { s.env with script := acts } }

/-- `s` with the target's drive of RDY at a level. -/
def rdy (d : Drive) (s : State) : State := { s with rdyT := d }

/-! ### WellFormed refuses ill-formed terms -/

theorem test_unknown06_two_is_ill_formed : ¬(Instr.unknown06 2).WellFormed := by decide
theorem test_unknown08_eight_is_ill_formed : ¬(Instr.unknown08 8).WellFormed := by decide
theorem test_unknown10_sixteen_is_ill_formed : ¬(Instr.unknown10 16).WellFormed := by decide
theorem test_unknown20_32_is_ill_formed : ¬(Instr.unknown20 32).WellFormed := by decide
theorem test_unknown40_64_is_ill_formed : ¬(Instr.unknown40 64).WellFormed := by decide
theorem test_unknown80_128_is_ill_formed : ¬(Instr.unknown80 128).WellFormed := by decide
theorem test_unknown80_127_is_well_formed : (Instr.unknown80 127).WellFormed := by decide

/-! ### Decode (spec/30_encoding.md R91, spec/opcode_table.json, spec/95 section 4) -/

theorem test_decode_exit : decode [0b00000000#8] = .ok (.exit, []) := by decide
theorem test_decode_getch : decode [0b00000001#8] = .ok (.getch, []) := by decide
theorem test_decode_putch : decode [0b00000010#8] = .ok (.putch, []) := by decide
theorem test_decode_gettime : decode [0b00000011#8] = .ok (.gettime, []) := by decide
theorem test_decode_prtime : decode [0b00000100#8] = .ok (.prtime, []) := by decide
theorem test_decode_unknown05 : decode [0b00000101#8] = .ok (.unknown05, []) := by decide
theorem test_decode_unknown06_first : decode [0b00000110#8] = .ok (.unknown06 0, []) := by decide
theorem test_decode_unknown06_last : decode [0b00000111#8] = .ok (.unknown06 1, []) := by decide
theorem test_decode_unknown08_first : decode [0b00001000#8] = .ok (.unknown08 0, []) := by decide
theorem test_decode_unknown08_last : decode [0b00001111#8] = .ok (.unknown08 7, []) := by decide
theorem test_decode_unknown10_first : decode [0b00010000#8] = .ok (.unknown10 0, []) := by decide
theorem test_decode_unknown10_last : decode [0b00011111#8] = .ok (.unknown10 15, []) := by decide
theorem test_decode_unknown20_first : decode [0b00100000#8] = .ok (.unknown20 0, []) := by decide
theorem test_decode_unknown20_last : decode [0b00111111#8] = .ok (.unknown20 31, []) := by decide
theorem test_decode_unknown40_99 : decode [0b01100011#8] = .ok (.unknown40 35, []) := by decide
theorem test_decode_unknown40_last : decode [0b01111111#8] = .ok (.unknown40 63, []) := by decide
theorem test_decode_unknown80_first : decode [0b10000000#8] = .ok (.unknown80 0, []) := by decide
theorem test_decode_unknown80_last : decode [0b11111111#8] = .ok (.unknown80 127, []) := by decide
theorem test_decode_nothing : decode [] = .error .noByte := by decide
theorem test_encode_99 : encode (.unknown40 35) = [0x63#8] := by decide

/-! ### The commands, one micro-step each (spec/95 section 4) -/

/-- The fetch, before any of them (R147). -/
theorem test_fetch : (nextOf (step (fetching 0x63))).map (fun s => (s.cmd, s.pos, s.serial.txLog, s.fsm)) =
    some (0x63, .dispatch, [], .servicing) := by decide

/-- V4.1: the acknowledgement first. -/
theorem test_exit : (nextOf (step (ready 0))).map (fun s => (s.serial.txLog, s.run, s.pos)) =
    some ([0x19], true, .command [.clearRun]) := by decide

/-- V4.1: then `run`. -/
theorem test_exit_clears_run : (nextOf (step (left [.clearRun] (ready 0)))).map (fun s => (s.run, s.pos, s.fsm)) =
    some (false, .release, .servicing) := by decide

/-- V4.3: the oldest of three. -/
theorem test_getch_buffered :
    (nextOf (step (buffered 0x43 (buffered 0x42 (buffered 0x41 (ready 1)))))).map
      (fun s => (s.pos, s.settledFifo.contents, s.serial.txLog)) =
    some (.command [.countDown, .busWrite 0xF1 0x41], [0x42, 0x43], []) := by decide

/-- V4.4: past the FIFO. -/
theorem test_getch_fallback :
    (nextOf (step (received 0x7A (ready 1)))).map
      (fun s => (s.pos, s.serial.rxAvail, s.fifo.count, s.fifo.wr, s.fifo.rd)) =
    some (.command [.busWrite 0xF1 0x7A], false, 0, 0, 0) := by decide

/-- V4.8. -/
theorem test_putch :
    (nextOf (step ((ready 2).memWrite 0xF1 0x48))).map (fun s => (s.pos, s.mem)) =
    some (.command [.tx 0x48], [(0xF0, 0x02), (0xF1, 0x48)]) := by decide

/-- V4.11: a byte that looks like the EXIT acknowledgement is not one. -/
theorem test_putch_0x19 :
    (nextOf (step (left [.tx 0x19] (ready 2)))).map (fun s => (s.serial.txLog, s.run, s.pos)) =
    some ([0x19], true, .release) := by decide

/-- V4.12: the time is taken, and the four bytes are still to be stored. -/
theorem test_gettime :
    (nextOf (step (timer 0x1234 0x0001 (ready 3)))).map (fun s => (s.pos, s.clock.snapLo, s.clock.snapHi, s.clock.ien)) =
    some (.command [.busWrite 0xF1 0x34, .busWrite 0xF2 0x12, .busWrite 0xF3 0x01, .busWrite 0xF4 0x00],
      0x1234, 0x0001, true) := by decide

/-- V4.13: the last of the four. -/
theorem test_gettime_high_bits :
    (nextOf (step (left [.busWrite 0xF4 0x89] (ready 3)))).map (fun s => (s.mem, s.pos)) =
    some ([(0xF0, 0x03), (0xF4, 0x89)], .release) := by decide

/-- V4.16, S6: nine characters to send. -/
theorem test_prtime :
    (nextOf (step (timer 0x1234 0x0001 (ready 4)))).map (fun s => (s.serial.txLog, s.pos, s.mem)) =
    some ([],
      .command [.tx 0x30, .tx 0x30, .tx 0x30, .tx 0x31, .tx 0x31, .tx 0x32, .tx 0x33, .tx 0x34, .tx 0x0D],
      [(0xF0, 0x04)]) := by decide

/-- V4.17: digits above nine (decision D9). -/
theorem test_prtime_letters :
    (nextOf (step (timer 0xCDEF 0x89AB (ready 4)))).map (fun s => (s.serial.txLog, s.pos)) =
    some ([],
      .command [.tx 0x38, .tx 0x39, .tx 0x41, .tx 0x42, .tx 0x43, .tx 0x44, .tx 0x45, .tx 0x46, .tx 0x0D]) := by decide

/-- V4.22. -/
theorem test_unknown05 : (nextOf (step (ready 0x05))).map (fun s => (s.serial.txLog, s.run, s.mem)) =
    some ([0x3F], true, [(0xF0, 0x05)]) := by decide
theorem test_unknown06 : (nextOf (step (ready 0x07))).map (fun s => (s.serial.txLog, s.run, s.mem)) =
    some ([0x3F], true, [(0xF0, 0x07)]) := by decide
theorem test_unknown08 : (nextOf (step (ready 0x0F))).map (fun s => (s.serial.txLog, s.run, s.mem)) =
    some ([0x3F], true, [(0xF0, 0x0F)]) := by decide
theorem test_unknown10 : (nextOf (step (ready 0x10))).map (fun s => (s.serial.txLog, s.run, s.mem)) =
    some ([0x3F], true, [(0xF0, 0x10)]) := by decide
theorem test_unknown20 : (nextOf (step (ready 0x3F))).map (fun s => (s.serial.txLog, s.run, s.mem)) =
    some ([0x3F], true, [(0xF0, 0x3F)]) := by decide
/-- V4.21, S7. -/
theorem test_unknown40 : (nextOf (step (ready 0x63))).map (fun s => (s.serial.txLog, s.run, s.mem)) =
    some ([0x3F], true, [(0xF0, 0x63)]) := by decide
/-- V4.24. -/
theorem test_unknown80 : (nextOf (step (ready 0x80))).map (fun s => (s.serial.txLog, s.run, s.mem)) =
    some ([0x3F], true, [(0xF0, 0x80)]) := by decide

/-! ### The shared operations (spec/95 sections 2, 3, 5, 6, 7) -/

/-- V2.1. -/
theorem test_bus_write :
    let s := (busWrite 0x10 0xA5 (ready 0)).state
    (s.mem.read 0x10, s.lines.aDir, s.lines.dDir, s.lines.wr, s.lines.rd) =
      (0xA5, .input, .input, .deasserted, .deasserted) := by decide

/-- V2.3: a corner address and value. -/
theorem test_bus_corner : (busRead 0xFF (busWrite 0xFF 0xFF (ready 0)).state).result = 0xFF := by decide

/-- V2.5. -/
theorem test_write_refused :
    let r := busWrite 0x10 0xA5 (State.reset.memWrite 0x10 0x77)
    (r.result, r.state.serial.txLog, r.state.mem.read 0x10) = (.guardFailure, [0x21], 0x77) := by decide

/-- V2.6. -/
theorem test_read_refused :
    let r := busRead 0x10 (State.reset.memWrite 0x10 0x77)
    (r.result, r.state.serial.txLog, r.state.pins) = (0x00, [0x21], []) := by decide

/-- V3.1: the confirm sample finds the line high. -/
theorem test_glitch :
    (nextOf (step { State.reset with fsm := .confirmRequest })).map (fun s => (s.fsm, s.pos, s.pins, s.serial.txLog)) =
    some (.idle, .loopHead, [], []) := by decide

/-- The worked example of R200. -/
theorem test_poll :
    let r := serialPoll (received 0x41 State.reset)
    (r.2, r.1.fifo.contents, r.1.fifo.wr, r.1.fifo.count, r.1.serial.rxAvail) = (some 0x41, [0x41], 1, 1, false) := by
  decide

/-- R200: the byte leaves the receiver one micro-step before it is stored. -/
theorem test_poll_begins :
    (nextOf (step (received 0x41 State.reset))).map (fun s => (s.pos, s.serial.rxAvail, s.fifo.count)) =
    some (.polling [.bufStore 0x41, .wrAdvance, .countUp], false, 0) := by decide

/-- R204: the read cursor at 254 goes to 0. -/
theorem test_pop_wraps : ({ State.reset.fifo with rd := 254, wr := 0, count := 1 } : Fifo).pop.rd = 0 := by decide

/-- V6.1, second Tick. -/
theorem test_tick_wraps :
    let c := (timer 0xFFFF 0x0000 State.reset).clock.tick
    (c.tlo, c.thi, c.ovfPending, c.time) = (0x0000, 0x0001, false, 0x00010000) := by decide

/-- V6.2. -/
theorem test_tick_wraps_both :
    let c := (timer 0xFFFF 0xFFFF State.reset).clock.tick
    (c.tlo, c.thi, c.time) = (0x0000, 0x0000, 0x00000000) := by decide

/-- V6.6. -/
theorem test_overflow_while_disabled :
    let c : Clock := { (timer 0xFFFF 0x0001 State.reset).clock with ien := false }
    ((c.tick.tlo, c.tick.thi, c.tick.ovfPending), ((c.tick.setIen true).thi, (c.tick.setIen true).ovfPending)) =
      ((0x0000, 0x0001, true), (0x0002, false)) := by decide

/-- V7.1, the values R50 gives. -/
theorem test_reset :
    State.reset.fsm = .idle ∧ State.reset.run = true ∧ State.reset.serial.txLog = [] ∧ State.reset.fifo.count = 0 ∧
    (State.reset.lines.busen, State.reset.lines.rdyC, State.reset.lines.wake) = (.deasserted, .released, .high) ∧
    (State.reset.lines.aDir, State.reset.lines.dDir, State.reset.lines.wr, State.reset.lines.rd) =
      (.input, .input, .deasserted, .deasserted) := by decide

/-- R99's script by turns: the target stores, the controller's own turn comes when no turn is listed. -/
theorem test_target_store :
    (nextOf (step (turns [.tgt] (script [.store 0xF0 0x02] State.reset)))).map
      (fun s => (s.mem, s.env.script, s.nextAgent)) = some ([(0xF0, 0x02)], [], .ctrl) := by decide

/-- R263: a request waits while one is being serviced. -/
theorem test_no_request_while_servicing :
    (nextOf (step (turns [.tgt] (script [.rdyLow] { State.reset with fsm := .servicing })))).map
      (fun s => (s.rdyT, s.env.script)) = some (.released, [.rdyLow]) := by decide

/-! ### States of the invariant -/

theorem ready_quiet (b : Nat) : (ready b).Quiet := ⟨rfl, rfl⟩

/-- The invariant holds in the reset state. -/
theorem reset_inv : State.reset.Inv :=
  ⟨by decide, ⟨rfl, rfl, rfl, rfl, rfl, rfl, rfl⟩, .inl rfl, trivial, by decide, by decide, rfl, rfl,
    ⟨by decide, by decide⟩, by decide, by decide⟩

/-- The invariant holds at the fetch of an EXIT. -/
theorem fetching_exit_inv : (fetching 0x00).Inv :=
  ⟨by decide, ⟨rfl, rfl, rfl, rfl, rfl, rfl, rfl⟩, ⟨rfl, rfl⟩, trivial, by decide, by decide, rfl, rfl,
    ⟨by decide, by decide⟩, by decide, by decide⟩

/-- The invariant holds at the dispatch of a PUTCH. -/
theorem ready_inv : (ready 2).Inv :=
  ⟨by decide, ⟨rfl, rfl, rfl, rfl, rfl, rfl, rfl⟩, ⟨rfl, rfl⟩, trivial, by decide, by decide, rfl, rfl,
    ⟨by decide, by decide⟩, by decide, by decide⟩

/-- The machine in a waiting GETCH. -/
def waiting : State := left [.recvArg] (ready 1)

theorem waiting_inv : waiting.Inv :=
  ⟨by decide, ⟨rfl, rfl, rfl, rfl, rfl, rfl, rfl⟩, ⟨rfl, rfl⟩, ⟨by decide, .inl ⟨rfl, by decide⟩⟩, by decide, by decide, rfl,
    rfl, ⟨by decide, by decide⟩, by decide, by decide⟩

/-- The machine in a PUTCH of the byte 0x00, before the transmission, and after it, before Release. -/
def sending : State := left [.tx 0x00] (ready 2)
def served : State := at_ .release ((ready 2).send 0x00)

theorem sending_inv : sending.Inv :=
  ⟨by decide, ⟨rfl, rfl, rfl, rfl, rfl, rfl, rfl⟩, ⟨rfl, rfl⟩, ⟨by decide, .inl rfl⟩, by decide, by decide, rfl, rfl,
    ⟨by decide, by decide⟩, by decide, by decide⟩

theorem served_inv : served.Inv :=
  ⟨by decide, ⟨rfl, rfl, rfl, rfl, rfl, rfl, rfl⟩, rfl, .inr ⟨rfl, by decide⟩, by decide, by decide, rfl, rfl,
    ⟨by decide, by decide⟩, by decide, by decide⟩

/-- The machine in the wake pulse of that pass. -/
def pulsing : State := stepped (stepped served)

theorem pulsing_inv : pulsing.Inv :=
  ⟨by decide, ⟨rfl, rfl, rfl, rfl, rfl, rfl, rfl⟩, rfl, trivial, by decide, by decide, rfl, rfl,
    ⟨by decide, by decide⟩, by decide, by decide⟩

/-- The machine in an EXIT whose acknowledgement is sent. -/
def clearing : State := left [.clearRun] ((ready 0).send 0x19)

theorem clearing_inv : clearing.Inv :=
  ⟨by decide, ⟨rfl, rfl, rfl, rfl, rfl, rfl, rfl⟩, ⟨rfl, rfl⟩, ⟨by decide, .inr (.inl ⟨rfl, by decide⟩)⟩, by decide,
    by decide, rfl, rfl, ⟨by decide, by decide⟩, by decide, by decide⟩

/-- The machine in a GETTIME at time 0, the first byte stored. -/
def storing : State :=
  left [.busWrite 0xF2 0x00, .busWrite 0xF3 0x00, .busWrite 0xF4 0x00] (ready 3)

theorem storing_inv : storing.Inv :=
  ⟨by decide, ⟨rfl, rfl, rfl, rfl, rfl, rfl, rfl⟩, ⟨rfl, rfl⟩, ⟨by decide, 1, by decide, by decide, by decide⟩, by decide,
    by decide, rfl, rfl, ⟨by decide, by decide⟩, by decide, by decide⟩

/-- The machine before the last micro-step of each command. -/
def lastOf (b : Nat) (sent : List Byte) (op : MicroOp) : State :=
  left [op] { ready b with serial := { State.reset.serial with txLog := sent } }

theorem last_getch_inv : (lastOf 1 [] (.busWrite 0xF1 0x41)).Inv :=
  ⟨by decide, ⟨rfl, rfl, rfl, rfl, rfl, rfl, rfl⟩, ⟨rfl, rfl⟩, ⟨by decide, .inr (.inr (.inl ⟨_, rfl⟩))⟩, by decide,
    by decide, rfl, rfl, ⟨by decide, by decide⟩, by decide, by decide⟩

theorem last_gettime_inv : (lastOf 3 [] (.busWrite 0xF4 0x00)).Inv :=
  ⟨by decide, ⟨rfl, rfl, rfl, rfl, rfl, rfl, rfl⟩, ⟨rfl, rfl⟩, ⟨by decide, 3, by decide, by decide, by decide⟩, by decide,
    by decide, rfl, rfl, ⟨by decide, by decide⟩, by decide, by decide⟩

theorem last_prtime_inv : (lastOf 4 (List.replicate 8 0x30) (.tx 0x0D)).Inv :=
  ⟨by decide, ⟨rfl, rfl, rfl, rfl, rfl, rfl, rfl⟩, ⟨rfl, rfl⟩, ⟨by decide, 8, by decide, by decide, by decide⟩, by decide,
    by decide, rfl, rfl, ⟨by decide, by decide⟩, by decide, by decide⟩

theorem last_unknown_inv : (lastOf 255 [] (.tx 0x3F)).Inv :=
  ⟨by decide, ⟨rfl, rfl, rfl, rfl, rfl, rfl, rfl⟩, ⟨rfl, rfl⟩, ⟨by decide, .inl rfl⟩, by decide,
    by decide, rfl, rfl, ⟨by decide, by decide⟩, by decide, by decide⟩

/-- The machine about to acquire the bus, and the machine about to confirm a request. -/
def acquiring : State := { rdy .low State.reset with fsm := .servicing }
def confirming : State := { rdy .low State.reset with fsm := .confirmRequest }

theorem acquiring_inv : acquiring.Inv :=
  ⟨by decide, ⟨rfl, rfl, rfl, rfl, rfl, rfl, rfl⟩, .inl rfl, trivial, by decide, by decide, rfl, rfl,
    ⟨by decide, by decide⟩, by decide, by decide⟩

theorem confirming_inv : confirming.Inv :=
  ⟨by decide, ⟨rfl, rfl, rfl, rfl, rfl, rfl, rfl⟩, .inl rfl, trivial, by decide, by decide, rfl, rfl,
    ⟨by decide, by decide⟩, by decide, by decide⟩

/-- A loop that has returned, the shell's turn next. -/
def stopped : State := turns [.shell] { State.reset with run := false, pos := .returned }

theorem stopped_inv : stopped.Inv :=
  ⟨by decide, ⟨rfl, rfl, rfl, rfl, rfl, rfl, rfl⟩, ⟨rfl, rfl⟩, trivial, by decide, by decide, rfl, rfl,
    ⟨by decide, by decide⟩, by decide, by decide⟩

/-- SerialPoll with the byte stored and the cursor and count still to go. -/
def polling : State := at_ (.polling [.wrAdvance, .countUp]) State.reset

theorem polling_inv : polling.Inv :=
  ⟨by decide, ⟨rfl, rfl, rfl, rfl, rfl, rfl, rfl⟩, ⟨rfl, rfl⟩, ⟨by decide, 0x41, by decide⟩, by decide, by decide, rfl, rfl,
    ⟨by decide, by decide⟩, by decide, by decide⟩

/-- A GETCH about to take a buffered byte, and the one that has moved past it. -/
def taking : State := { ready 1 with fifo := { State.reset.fifo with wr := 1, count := 1 } }
def taken : State := stepped taking

theorem taking_inv : taking.Inv :=
  ⟨by decide, ⟨rfl, rfl, rfl, rfl, rfl, rfl, rfl⟩, ⟨rfl, rfl⟩, trivial, by decide, by decide, rfl, rfl,
    ⟨by decide, by decide⟩, by decide, by decide⟩

theorem taken_inv : taken.Inv :=
  ⟨by decide, ⟨rfl, rfl, rfl, rfl, rfl, rfl, rfl⟩, ⟨rfl, rfl⟩, ⟨by decide, .inr (.inl ⟨_, rfl, by decide⟩)⟩, by decide,
    by decide, rfl, rfl, ⟨by decide, by decide⟩, by decide, by decide⟩

/-- A byte waiting in the receiver at the head of an Idle step. -/
theorem received_inv : (received 0x41 State.reset).Inv :=
  ⟨by decide, ⟨rfl, rfl, rfl, rfl, rfl, rfl, rfl⟩, .inl rfl, trivial, by decide, by decide, rfl, rfl,
    ⟨by decide, by decide⟩, by decide, by decide⟩

/-! ### Every obligation's hypotheses are met -/

theorem witness_EncodeThenDecodeGivesCommandBack :
    (Instr.unknown80 127).WellFormed ∧ (Instr.unknown06 0).WellFormed := by decide

/-- At the fetch, and at the dispatch. -/
theorem witness_StepRunsTheFetchedCommand :
    (∃ s : State, s.clock.interruptDue = false ∧ s.nextAgent = .ctrl ∧ s.pos = .fetch ∧ s.lines.busen = .asserted) ∧
    ∃ s : State, s.clock.interruptDue = false ∧ s.nextAgent = .ctrl ∧ s.pos = .dispatch :=
  ⟨⟨fetching 2, rfl, rfl, rfl, rfl⟩, ⟨ready 2, rfl, rfl, rfl⟩⟩

theorem witness_PlacedByteIsTheNextCommand : ∃ w : Nat, w < 256 ∧ 255 ≤ w := ⟨255, by decide⟩

theorem witness_ExitTransmitsAckThenClearsRun :
    (∃ s t : State, s.serial.txReady = true ∧ s.Quiet ∧ exec .exit s = .next t) ∧ ∃ s : State, s.serial.txReady = false :=
  ⟨⟨ready 0, _, rfl, ready_quiet 0, rfl⟩, ⟨busy (ready 0), rfl⟩⟩

theorem witness_GetchDeliversTheOldestBufferedByte : ∃ s : State,
    s.lines.busen = .asserted ∧ 0 < s.fifo.count ∧ s.Quiet := ⟨taking, rfl, by decide, ⟨rfl, rfl⟩⟩

theorem witness_GetchDeliversTheOldestBufferedByte_full : ∃ s : State, s.lines.busen = .asserted ∧ s.fifo.count = 255 :=
  ⟨{ ready 1 with fifo := { State.reset.fifo with count := 255 } }, rfl, rfl⟩

theorem witness_GetchFallsBackToTheRawReceiver :
    (∃ s : State, s.lines.busen = .asserted ∧ s.fifo.count = 0 ∧ s.serial.rxAvail = true ∧ s.Quiet) ∧
    ∃ s : State, s.lines.busen = .asserted ∧ s.fifo.count = 0 ∧ s.serial.rxAvail = false :=
  ⟨⟨received 0x7A (ready 1), rfl, rfl, rfl, ⟨rfl, rfl⟩⟩, ⟨ready 1, rfl, rfl, rfl⟩⟩

theorem witness_PutchTransmitsTheArgumentByte :
    (∃ s : State, s.lines.busen = .asserted ∧ s.Quiet ∧ s.serial.txReady = true) ∧
    ∃ s : State, s.lines.busen = .asserted ∧ s.Quiet ∧ s.serial.txReady = false :=
  ⟨⟨ready 2, rfl, ready_quiet 2, rfl⟩, ⟨busy (ready 2), rfl, ⟨rfl, rfl⟩, rfl⟩⟩

theorem witness_GettimeStoresTheTimeLittleEndian : ∃ s : State,
    s.lines.busen = .asserted ∧ s.clock.ien = true ∧ s.clock.ovfPending = false ∧ s.clock.tlo = 0xFFFF ∧ s.Quiet :=
  ⟨timer 0xFFFF 0xFFFF (ready 3), rfl, rfl, rfl, rfl, ⟨rfl, rfl⟩⟩

theorem witness_PrtimePrintsTheTimeInHex :
    (∃ s : State, s.clock.ien = true ∧ s.clock.ovfPending = false ∧ s.serial.txReady = true) ∧
    ∃ s : State, s.clock.ien = true ∧ s.clock.ovfPending = false ∧ s.serial.txReady = false :=
  ⟨⟨ready 4, rfl, rfl, rfl⟩, ⟨busy (ready 4), rfl, rfl, rfl⟩⟩

theorem witness_UnknownTransmitsTheMarkerOnly :
    (∃ (s : State) (i : Instr), i ∈ [Instr.unknown05, .unknown06 1] ∧ s.serial.txReady = true) ∧
    ∃ s : State, s.serial.txReady = false :=
  ⟨⟨ready 5, .unknown06 1, by decide, rfl⟩, ⟨busy (ready 5), rfl⟩⟩

theorem witness_UnknownCodePassEndsLikeAnyOther :
    (∃ s : State, s.Quiet ∧ s.pos = .fetch ∧ s.lines.busen = .asserted ∧ (s.mem.read 0xF0).toNat = 5 ∧
      s.serial.txReady = true) ∧
    ∃ s : State, s.Quiet ∧ s.pos = .fetch ∧ s.lines.busen = .asserted ∧ (s.mem.read 0xF0).toNat = 255 ∧
      s.serial.txReady = false :=
  ⟨⟨fetching 5, ⟨rfl, rfl⟩, rfl, rfl, by decide, rfl⟩, ⟨busy (fetching 255), ⟨rfl, rfl⟩, rfl, rfl, by decide, rfl⟩⟩

/-- The last micro-step of a command of each clause. -/
theorem witness_CommandsLeaveTheirResults :
    (∃ s t : State, s.Inv ∧ step s = .next t ∧ t.pos = .release ∧ t.mem.read 0xF0 = 0x00) ∧
    (∃ s t : State, s.Inv ∧ step s = .next t ∧ t.pos = .release ∧ t.mem.read 0xF0 = 0x01 ∧
      s.pos = .command [.busWrite 0xF1 0x41]) ∧
    (∃ s t : State, s.Inv ∧ step s = .next t ∧ t.pos = .release ∧ t.mem.read 0xF0 = 0x02) ∧
    (∃ s t : State, s.Inv ∧ step s = .next t ∧ t.pos = .release ∧ t.mem.read 0xF0 = 0x03) ∧
    (∃ s t : State, s.Inv ∧ step s = .next t ∧ t.pos = .release ∧ t.mem.read 0xF0 = 0x04) ∧
    ∃ s t : State, s.Inv ∧ step s = .next t ∧ t.pos = .release ∧ (t.mem.read 0xF0).toNat = 255 :=
  ⟨⟨clearing, _, clearing_inv, rfl, rfl, by decide⟩, ⟨_, _, last_getch_inv, rfl, rfl, by decide, rfl⟩,
    ⟨sending, _, sending_inv, rfl, rfl, by decide⟩,
    ⟨_, _, last_gettime_inv, rfl, rfl, by decide⟩, ⟨_, _, last_prtime_inv, rfl, rfl, by decide⟩,
    ⟨_, _, last_unknown_inv, rfl, rfl, by decide⟩⟩

/-- A GETCH about to take a buffered byte, one that has moved past it, one that waits, and one about to write. -/
theorem witness_GetchCarriesItsByteToTheMailbox :
    (∃ s t : State, s.Inv ∧ s.mem.read 0xF0 = 0x01 ∧ step s = .next t ∧ s.pos = .dispatch) ∧
    (∃ s t : State, s.Inv ∧ s.mem.read 0xF0 = 0x01 ∧ step s = .next t ∧ t.pos = .command [.busWrite 0xF1 0x00]) ∧
    (∃ s t : State, s.Inv ∧ s.mem.read 0xF0 = 0x01 ∧ step s = .next t ∧ s.pos = .command [.recvArg]) ∧
    ∃ s t : State, s.Inv ∧ s.mem.read 0xF0 = 0x01 ∧ step s = .next t ∧ t.pos = .release :=
  ⟨⟨taking, _, taking_inv, by decide, rfl, rfl⟩, ⟨taken, _, taken_inv, by decide, rfl, by decide⟩,
    ⟨waiting, _, waiting_inv, by decide, rfl, rfl⟩, ⟨_, _, last_getch_inv, by decide, rfl, rfl⟩⟩

/-- A command's first micro-step, and a later one. -/
theorem witness_CommandsNeverTouchTheHandshake :
    (∃ t, Takes .putch (ready 2) t) ∧ ∃ t, Takes .putch sending t :=
  ⟨⟨_, .inl rfl⟩, ⟨_, .inr ⟨sending_inv, by decide, ⟨_, rfl⟩, rfl⟩⟩⟩

/-- First micro-steps of PUTCH and PRTIME, and the last of EXIT. -/
theorem witness_NonStoringCommandsFrame :
    (∃ s t : State, Takes .putch s t ∧ s.clock.ien = true ∧ s.clock.ovfPending = false) ∧
    (∃ s t : State, Takes .prtime s t ∧ s.clock.ien = true ∧ s.clock.ovfPending = false) ∧
    ∃ s t : State, Takes .exit s t ∧ s.pos = .command [.clearRun] :=
  ⟨⟨ready 2, _, .inl rfl, rfl, rfl⟩, ⟨timer 0xFFFF 0x0001 (ready 4), _, .inl rfl, rfl, rfl⟩,
    ⟨clearing, _, .inr ⟨clearing_inv, by decide, ⟨_, rfl⟩, rfl⟩, rfl⟩⟩

/-- First micro-steps, and a store of each, with the bus owned. -/
theorem witness_StoringCommandsFrame :
    (∃ t, Takes .getch (received 0x7A (ready 1)) t) ∧ (∃ t, Takes .gettime (ready 3) t) ∧
    (∃ t, Takes .getch (lastOf 1 [] (.busWrite 0xF1 0x41)) t) ∧ (∃ t, Takes .gettime storing t) ∧
    (ready 1).lines.busen = .asserted :=
  ⟨⟨_, .inl rfl⟩, ⟨_, .inl rfl⟩, ⟨_, .inr ⟨last_getch_inv, by decide, ⟨_, rfl⟩, rfl⟩⟩,
    ⟨_, .inr ⟨storing_inv, by decide, ⟨_, rfl⟩, rfl⟩⟩, rfl⟩

theorem witness_CommandsWithoutOwnershipNeverReachTheBus :
    (∃ t, State.reset.lines.busen = .deasserted ∧ exec .putch State.reset = .next t) ∧
    ∃ t, (left [.busWrite 0xF1 0x41] State.reset).lines.busen = .deasserted ∧
      ctrlStep (left [.busWrite 0xF1 0x41] State.reset) = .next t := ⟨⟨_, rfl, rfl⟩, ⟨_, rfl, rfl⟩⟩

theorem witness_TransmissionWaitsForTheTransmitter : ∃ s : State,
    s.Quiet ∧ s.pos = .command [.tx 0x0D] ∧ s.serial.txReady = false :=
  ⟨at_ (.command [.tx 0x0D]) (busy (ready 4)), ⟨rfl, rfl⟩, rfl, rfl⟩

theorem witness_PendingBytesAreSentInOrder : ∃ (bs : List Byte) (s : State) (rest : List Agent),
    bs ≠ [] ∧ s.pos = .command (bs.map .tx) ∧ s.clock.interruptDue = false ∧
    s.env.turns = (List.replicate bs.length [Agent.hostTx, .ctrl]).flatten ++ rest :=
  ⟨[0x31, 0x0D], turns [.hostTx, .ctrl, .hostTx, .ctrl] (left [.tx 0x31, .tx 0x0D] (busy (ready 4))), [],
    by decide, rfl, rfl, rfl⟩

/-- For WriteThenReadRoundTrips, WritesFollowThePinSequence and ReadsFollowThePinSequence: the bus owned. -/
theorem witness_WriteThenReadRoundTrips :
    ∃ (s : State) (a b : Byte), s.lines.busen = .asserted ∧ b ≠ a := ⟨ready 2, 0x00, 0xFF, rfl, by decide⟩

theorem witness_RefusedAccessOnlySendsTheMarker :
    (∃ s : State, s.lines.busen = .deasserted ∧ s.serial.txReady = true) ∧
    ∃ s : State, s.lines.busen = .deasserted ∧ s.serial.txReady = false :=
  ⟨⟨State.reset, rfl, rfl⟩, ⟨busy State.reset, rfl, rfl⟩⟩

/-- Inside a window, in its wake pulse, and with none owed; and a step from such a state. -/
theorem witness_OneWakePulseForEachWindow :
    (∃ s : State, s.Inv ∧ s.pos.owesPulse = true ∧ s.lines.busen = .asserted) ∧
    (∃ s : State, s.Inv ∧ s.pos = .wakeHigh) ∧ (∃ s : State, s.Inv ∧ s.pos.owesPulse = false) ∧
    ∃ s t : State, s.Inv ∧ step s = .next t ∧ t.pos.owesPulse = false ∧ s.pos.owesPulse = true :=
  ⟨⟨served, served_inv, rfl, rfl⟩, ⟨pulsing, pulsing_inv, rfl⟩, ⟨State.reset, reset_inv, rfl⟩,
    ⟨pulsing, _, pulsing_inv, rfl, rfl, rfl⟩⟩

/-- A history up to the read strobe. -/
theorem witness_NothingIsDrivenWithoutOwnership : ∃ (s : State) (es : List PinEvent) (v : BusView),
    s.Inv ∧ es <+: s.pins ∧ replay BusView.idle es = some v ∧ v.rd = .asserted :=
  ⟨served, [.rdyC .low, .busen .asserted, .addrOut 0xF0, .rd .asserted], _, served_inv, by decide, rfl, rfl⟩

/-- A poll with nothing to store, one that drops its byte, and one that stores it at the last free slot. -/
theorem witness_IdlePollsOnceThenSamples :
    (∃ s : State, s.Quiet ∧ s.run = true ∧ s.fsm = .idle ∧ s.pos = .loopHead ∧ s.fifo.count ≤ 255 ∧
      s.serial.rxAvail = false) ∧
    (∃ s : State, s.Quiet ∧ s.run = true ∧ s.fsm = .idle ∧ s.pos = .loopHead ∧ s.fifo.count = 255 ∧
      s.serial.rxAvail = true) ∧
    ∃ s : State, s.Quiet ∧ s.run = true ∧ s.fsm = .idle ∧ s.pos = .loopHead ∧ s.fifo.count = 254 ∧
      s.serial.rxAvail = true :=
  ⟨⟨State.reset, ⟨rfl, rfl⟩, rfl, rfl, rfl, by decide, rfl⟩,
    ⟨{ received 0x41 State.reset with fifo := { State.reset.fifo with count := 255 } }, ⟨rfl, rfl⟩, rfl, rfl, rfl, rfl,
      rfl⟩,
    ⟨{ received 0x41 State.reset with fifo := { State.reset.fifo with wr := 254, count := 254 } }, ⟨rfl, rfl⟩, rfl, rfl,
      rfl, rfl, rfl⟩⟩

theorem witness_FirstLowSampleOnlyMakesACandidate : ∃ s : State, s.Quiet ∧ s.pos = .idleSample ∧ s.rdyLine = .low :=
  ⟨at_ .idleSample (rdy .low State.reset), ⟨rfl, rfl⟩, rfl, rfl⟩

/-- For GlitchHasNoSideEffect and ConfirmedRequestTakesTheBus. -/
theorem witness_Confirm :
    (∃ s : State, s.Quiet ∧ s.run = true ∧ s.pos = .loopHead ∧ s.fsm = .confirmRequest ∧ s.rdyLine = .high) ∧
    ∃ s : State, s.Quiet ∧ s.run = true ∧ s.pos = .loopHead ∧ s.fsm = .confirmRequest ∧ s.rdyLine = .low :=
  ⟨⟨{ State.reset with fsm := .confirmRequest }, ⟨rfl, rfl⟩, rfl, rfl, rfl, rfl⟩,
    ⟨{ rdy .low State.reset with fsm := .confirmRequest }, ⟨rfl, rfl⟩, rfl, rfl, rfl, rfl⟩⟩

theorem witness_PassEndsWithReleaseThenOneWakePulse : ∃ s : State, s.Quiet ∧ s.pos = .release :=
  ⟨at_ .release (ready 2), ⟨rfl, rfl⟩, rfl⟩

theorem witness_PutchPassMakesExactlyTheseMoves :
    (∃ s : State, s.Quiet ∧ s.run = true ∧ s.pos = .loopHead ∧ s.fsm = .confirmRequest ∧ s.rdyT = .low ∧
      s.mem.read 0xF0 = 0x02 ∧ s.serial.txReady = true) ∧
    ∃ s : State, s.Quiet ∧ s.run = true ∧ s.pos = .loopHead ∧ s.fsm = .confirmRequest ∧ s.rdyT = .low ∧
      s.mem.read 0xF0 = 0x02 ∧ s.serial.txReady = false :=
  ⟨⟨confirming.memWrite 0xF0 0x02, ⟨rfl, rfl⟩, rfl, rfl, rfl, rfl, by decide, rfl⟩,
    ⟨busy (confirming.memWrite 0xF0 0x02), ⟨rfl, rfl⟩, rfl, rfl, rfl, rfl, by decide, rfl⟩⟩

theorem witness_ExitPassReturnsToTheShell : ∃ s : State,
    s.Inv ∧ s.Quiet ∧ s.pos = .fetch ∧ s.serial.txReady = true ∧ s.mem.read 0xF0 = 0x00 :=
  ⟨fetching 0x00, fetching_exit_inv, ⟨rfl, rfl⟩, rfl, rfl, by decide⟩

theorem witness_OnlyExitStopsTheLoop :
    ∃ s t : State, s.Inv ∧ step s = .next t ∧ s.run = true ∧ t.run = false :=
  ⟨clearing, _, clearing_inv, rfl, rfl, rfl⟩

/-- A step from target to controller, one back, and one into Servicing. -/
theorem witness_ModesChangeOnlyByAcquireAndRelease :
    (∃ s t : State, s.Inv ∧ step s = .next t ∧ s.owner = .target ∧ t.owner = .controller) ∧
    (∃ s t : State, s.Inv ∧ step s = .next t ∧ s.owner = .controller ∧ t.owner = .target) ∧
    ∃ s t : State, s.Inv ∧ step s = .next t ∧ s.fsm ≠ .servicing ∧ t.fsm = .servicing :=
  ⟨⟨acquiring, _, acquiring_inv, rfl, rfl, rfl⟩, ⟨served, _, served_inv, rfl, rfl, rfl⟩,
    ⟨confirming, _, confirming_inv, rfl, by decide, rfl⟩⟩

/-- With nothing in the receiver, with a byte the full FIFO drops, and with one it stores. -/
theorem witness_HeldRequestIsServedAgain :
    (∃ s : State, s.Quiet ∧ s.run = true ∧ s.pos = .passEnd ∧ s.rdyT = .low ∧ s.fifo.count ≤ 255 ∧
      s.serial.rxAvail = false) ∧
    (∃ s : State, s.Quiet ∧ s.run = true ∧ s.pos = .passEnd ∧ s.rdyT = .low ∧ s.fifo.count = 255 ∧
      s.serial.rxAvail = true) ∧
    ∃ s : State, s.Quiet ∧ s.run = true ∧ s.pos = .passEnd ∧ s.rdyT = .low ∧ s.fifo.count < 255 ∧
      s.serial.rxAvail = true :=
  ⟨⟨at_ .passEnd (rdy .low State.reset), ⟨rfl, rfl⟩, rfl, rfl, rfl, by decide, rfl⟩,
    ⟨{ at_ .passEnd (rdy .low (received 0x41 State.reset)) with fifo := { State.reset.fifo with count := 255 } },
      ⟨rfl, rfl⟩, rfl, rfl, rfl, rfl, rfl⟩,
    ⟨at_ .passEnd (rdy .low (received 0x41 State.reset)), ⟨rfl, rfl⟩, rfl, rfl, rfl, by decide, rfl⟩⟩

theorem witness_WaitingGetchHoldsTheBus : ∃ s : State,
    s.Inv ∧ s.Quiet ∧ s.pos = .command [.recvArg] ∧ s.serial.rxAvail = false :=
  ⟨waiting, waiting_inv, ⟨rfl, rfl⟩, rfl, rfl⟩

/-- A first entry with something in memory, and the shell's entry of a loop that has returned. -/
theorem witness_EntryStatesMeetTheInvariant :
    (∃ p : EntryParams, p.m0.wf = true ∧ p.m0 ≠ []) ∧
    ∃ s t : State, s.Inv ∧ s.pos = .returned ∧ s.nextAgent = .shell ∧ step s = .next t :=
  ⟨⟨{ EntryParams.atReset with m0 := [(0xF0, 0x02)] }, by decide, by decide⟩, ⟨stopped, _, stopped_inv, rfl, rfl, rfl⟩⟩

theorem witness_EveryStepKeepsTheInvariant : ∃ s t : State, s.Inv ∧ step s = .next t ∧ t ≠ s :=
  ⟨ready 2, _, ready_inv, rfl, fun h => absurd (congrArg State.pos h) (by decide)⟩

/-- A store of GETCH and a target's store change memory. -/
theorem witness_MemoryChangesOnlyThroughTheOwner :
    (∃ t, step (lastOf 1 [] (.busWrite 0xF1 0x41)) = .next t ∧ t.mem ≠ (lastOf 1 [] (.busWrite 0xF1 0x41)).mem) ∧
    ∃ t, step (turns [.tgt] (script [.store 0x10 0x77] State.reset)) = .next t ∧ t.mem ≠ State.reset.mem :=
  ⟨⟨_, rfl, by decide⟩, ⟨_, rfl, by decide⟩⟩

theorem witness_ControllerWritesOnlyArgumentBytes : ∃ (s t : State) (a : Byte),
    s.Inv ∧ s.nextAgent ≠ .tgt ∧ step s = .next t ∧ ∀ i < 4, a ≠ argAddr i :=
  ⟨ready 2, _, 0xF5, ready_inv, by decide, rfl, by decide⟩

theorem witness_TargetIsSuspendedWhileTheControllerOwns :
    (∃ s : State, s.clock.interruptDue = false ∧ s.nextAgent = .tgt ∧ s.owner = .controller ∧
      s.env.script = [.driveBus]) ∧
    ∃ s t : State, s.clock.interruptDue = false ∧ s.nextAgent = .tgt ∧ s.owner = .controller ∧ step s = .next t :=
  ⟨⟨turns [.tgt] (script [.driveBus] (ready 2)), rfl, rfl, rfl, rfl⟩,
    ⟨turns [.tgt] (script [.store 0x10 0x77] (ready 2)), _, rfl, rfl, rfl, rfl⟩⟩

/-- The target's turn with each of its acts to do: free to access the bus, requesting, and suspended while the controller
owns the bus. -/
theorem witness_TargetActsByItsContract : ∀ acts ∈
    [[], [TgtAct.store 0x10 0x77], [.load 0x10], [.rdyLow], [.rdyRelease], [.driveBus]],
    (∃ s : State, s.clock.interruptDue = false ∧ s.nextAgent = .tgt ∧ s.env.script = acts ∧ s.targetMayAccess = true) ∧
    (∃ s : State, s.clock.interruptDue = false ∧ s.nextAgent = .tgt ∧ s.env.script = acts ∧
      s.targetMayAccess = false ∧ s.lines.busen = .deasserted) ∧
    ∃ s : State, s.clock.interruptDue = false ∧ s.nextAgent = .tgt ∧ s.env.script = acts ∧ s.lines.busen = .asserted :=
  fun acts _ =>
    ⟨⟨turns [.tgt] (script acts State.reset), rfl, rfl, rfl, rfl⟩,
      ⟨turns [.tgt] (script acts (rdy .low State.reset)), rfl, rfl, rfl, rfl, rfl⟩,
      ⟨turns [.tgt] (script acts (ready 2)), rfl, rfl, rfl, rfl⟩⟩

/-- The target may access the bus again from the end of the wake pulse on (decision D17). -/
theorem witness_TargetActsByItsContract_passEnd :
    (stepped pulsing).fsm = .servicing ∧ (stepped pulsing).targetMayAccess = true ∧
    (stepped pulsing).targetMayRequest = false := by decide

theorem witness_NoRequestWhileServicing : ∃ s t : State, step s = .next t ∧ s.rdyT = .released ∧ t.rdyT = .low :=
  ⟨turns [.tgt] (script [.rdyLow] State.reset), _, rfl, rfl, rfl⟩

/-- The FIFO is written in a poll, at the dispatch of GETCH and within it; it gains a byte at the start of a poll and loses
one at that dispatch. -/
theorem witness_FifoMovesOnlyInIdleAndGetch :
    (∃ s t : State, s.Inv ∧ step s = .next t ∧ t.fifo.wr ≠ s.fifo.wr ∧ ∃ ops, s.pos = .polling ops) ∧
    (∃ s t : State, s.Inv ∧ step s = .next t ∧ t.fifo.rd ≠ s.fifo.rd ∧ s.pos = .dispatch) ∧
    (∃ s t : State, s.Inv ∧ step s = .next t ∧ t.fifo.count ≠ s.fifo.count ∧
      ∃ b, s.pos = .command [.countDown, .busWrite 0xF1 b]) ∧
    (∃ s t : State, s.Inv ∧ step s = .next t ∧ t.settledFifo.count ≠ s.settledFifo.count ∧ s.pos = .loopHead) ∧
    ∃ s t : State, s.Inv ∧ step s = .next t ∧ t.settledFifo.count ≠ s.settledFifo.count ∧ s.pos = .dispatch :=
  ⟨⟨polling, _, polling_inv, rfl, by decide, _, rfl⟩, ⟨taking, _, taking_inv, rfl, by decide, rfl⟩,
    ⟨taken, _, taken_inv, rfl, by decide, _, rfl⟩, ⟨_, _, received_inv, rfl, by decide, rfl⟩,
    ⟨taking, _, taking_inv, rfl, by decide, rfl⟩⟩

/-- A Tick's turn and another agent's turn, on a state of the invariant. -/
theorem witness_TimeMovesOnlyByTicks :
    (∃ t, (turns [.tmr] (ready 2)).nextAgent = .tmr ∧ step (turns [.tmr] (ready 2)) = .next t) ∧
    (∃ t, (ready 2).nextAgent ≠ .tmr ∧ step (ready 2) = .next t) ∧ (turns [.tmr] (ready 2)).Inv :=
  ⟨⟨_, rfl, rfl⟩, ⟨_, by decide, rfl⟩,
    ⟨ready_inv.trace, ready_inv.lines, ready_inv.control, trivial, ready_inv.latched, ready_inv.halted, rfl, rfl,
      ready_inv.fifo, ready_inv.cap, ready_inv.mem⟩⟩

theorem witness_TransmitLogOnlyGrows :
    (∃ t, step (ready 5) = .next t ∧ (ready 5).nextAgent = .ctrl ∧ t.serial.txLog ≠ (ready 5).serial.txLog) ∧
    ∃ t, step (turns [.hostTx] (ready 5)) = .next t ∧ (turns [.hostTx] (ready 5)).nextAgent ≠ .ctrl ∧
      (turns [.hostTx] (ready 5)).nextAgent ≠ .shell :=
  ⟨⟨_, rfl, rfl, by decide⟩, ⟨_, rfl, by decide, by decide⟩⟩

/-- At the last free slot, and with nothing waiting. -/
theorem witness_PollKeepsAByteWhileThereIsRoom :
    (∃ s : State, s.fifo.Inv ∧ s.serial.rxAvail = true ∧ s.fifo.count = 254) ∧
    ∃ s : State, s.fifo.Inv ∧ s.serial.rxAvail = false :=
  ⟨⟨{ received 0x41 State.reset with fifo := { State.reset.fifo with wr := 254, count := 254 } },
      ⟨by decide, by decide⟩, rfl, rfl⟩,
    ⟨State.reset, ⟨by decide, by decide⟩, rfl⟩⟩

theorem witness_PollDropsAByteWhenFull : ∃ s : State, s.fifo.count = 255 ∧ s.serial.rxAvail = true :=
  ⟨{ received 0x41 State.reset with fifo := { State.reset.fifo with count := 255 } }, rfl, rfl⟩

theorem witness_GetchTakesTheOldestByte :
    (∃ s : State, s.fifo.Inv ∧ s.fifo.contents = [0x41, 0x42]) ∧ ∃ s : State, s.fifo.Inv ∧ s.fifo.count = 0 :=
  ⟨⟨buffered 0x42 (buffered 0x41 State.reset), ⟨by decide, by decide⟩, by decide⟩,
    ⟨State.reset, ⟨by decide, by decide⟩, rfl⟩⟩

/-- Buffered bytes, and an empty FIFO into which as many bytes as fit are received. -/
theorem witness_GetchCallsReturnReceiveOrder :
    (∃ (n : Nat) (s : State), s.fifo.Inv ∧ n ≤ s.fifo.count ∧ 0 < n) ∧
    ∃ (n : Nat) (s : State) (bs : List Byte), s.fifo.Inv ∧ s.fifo.count = 0 ∧ bs.length = 255 ∧ n = bs.length :=
  ⟨⟨2, buffered 0x42 (buffered 0x41 State.reset), ⟨by decide, by decide⟩, by decide, by decide⟩,
    ⟨255, State.reset, List.replicate 255 0x41, ⟨by decide, by decide⟩, rfl, List.length_replicate, List.length_replicate.symm⟩⟩

/-- An empty FIFO and a full one. -/
theorem witness_FirstBytesUpToCapacityAreRetained :
    (∃ s : State, s.fifo.Inv ∧ s.fifo.count = 0) ∧ ∃ s : State, s.fifo.Inv ∧ s.fifo.count = 255 :=
  ⟨⟨State.reset, ⟨by decide, by decide⟩, rfl⟩,
    ⟨{ State.reset with fifo := { State.reset.fifo with count := 255 } }, ⟨by decide, by decide⟩, rfl⟩⟩

/-- For TickAdvancesTheTimeByOne, ReadsDifferByTheTicksBetween and GetTimeReadsOneInstant, at a wrap; and for
OverflowWaitsWhileDisabled. -/
theorem witness_Clock :
    (∃ c : Clock, c.ien = true ∧ c.ovfPending = false ∧ c.tlo = 0xFFFF) ∧
    ∃ c : Clock, c.ien = false ∧ c.ovfPending = false ∧ c.tlo = 0xFFFF :=
  ⟨⟨(timer 0xFFFF 0xFFFF State.reset).clock, rfl, rfl, rfl⟩,
    ⟨{ (timer 0xFFFF 0x0001 State.reset).clock with ien := false }, rfl, rfl, rfl⟩⟩

theorem witness_InterruptTouchesOnlyTheOverflowCount : ∃ s : State, s.clock.ovfPending = true ∧ s.clock.ien = true :=
  ⟨{ State.reset with clock := { State.reset.clock with ovfPending := true } }, rfl, rfl⟩

theorem witness_HostByteEntersOnlyAnEmptyReceiver : ∃ (s : State) (b : Byte) (bs : List Byte) (rest : List Agent),
    s.clock.interruptDue = false ∧ s.env.turns = .hostRx :: rest ∧ s.env.hostIn = b :: bs :=
  ⟨{ State.reset with env := { State.reset.env with turns := [.hostRx], hostIn := [0x5A] } }, 0x5A, [], [],
    rfl, rfl, rfl⟩

theorem witness_ShellEntersOnlyAReturnedLoop :
    (∃ (s : State) (rest : List Agent), s.clock.interruptDue = false ∧ s.env.turns = .shell :: rest ∧
      s.pos = .returned) ∧
    ∃ (s : State) (rest : List Agent), s.clock.interruptDue = false ∧ s.env.turns = .shell :: rest ∧
      s.pos ≠ .returned :=
  ⟨⟨at_ .returned (turns [.shell] State.reset), [], rfl, rfl, rfl⟩,
    ⟨turns [.shell] State.reset, [], rfl, rfl, by decide⟩⟩

end Sys2Proof.Tests
end

section
/-! PROOFS. The serial line of spec/00_scope.md: `SerialTx` waits for the transmitter (R11), and the host's byte enters
only an empty receiver (R12). -/

namespace Sys2Proof.Machine

variable {s : State} {rest : List Agent}

/-! ### A listed turn -/

theorem State.popTurn_of_turns {a : Agent} (ht : s.env.turns = a :: rest) :
    s.popTurn = { s with env := { s.env with turns := rest } } := by
  simp [State.popTurn, ht]

/-- The step of the agent whose turn is listed first, no interrupt due (R7, R8). -/
theorem step_of_turn {a : Agent} (hd : s.clock.interruptDue = false) (ht : s.env.turns = a :: rest) :
    step s = agentStep a s.popTurn := by
  have hnext : s.nextAgent = a := by simp [State.nextAgent, ht]
  rw [step_of_not_due hd, hnext]

/-! ### The receiver (R12, R37) -/

theorem hostRxTurn_full (h : s.serial.rxAvail = true) : hostRxTurn s = s := by
  cases hi : s.env.hostIn <;> simp [hostRxTurn, hi, h]

theorem hostRxTurn_empty {b : Byte} {bs : List Byte} (hi : s.env.hostIn = b :: bs) (h : s.serial.rxAvail = false) :
    hostRxTurn s =
      { s with
        serial := { s.serial with rxData := b, rxAvail := true }
        env := { s.env with hostIn := bs } } := by
  simp [hostRxTurn, hi, h]

/-! ### The transmitter (R11) -/

variable {ops : List MicroOp}

/-- To leave the micro-steps that are left already changes nothing. -/
theorem State.bodyLeft_of_pos {op : MicroOp} (hp : s.pos = .command (op :: ops)) : s.bodyLeft (op :: ops) = s := by
  rw [State.bodyLeft, Position.inBody_cons, ← hp]

/-- `s` after a command has sent `bs`, with `ops` left of it and the turns `rest` to come. -/
def State.afterSending (bs : List Byte) (ops : List MicroOp) (rest : List Agent) (s : State) : State :=
  { s with
    serial := { s.serial with txLog := s.serial.txLog ++ bs, txReady := false }
    pos := .inBody ops
    env := { s.env with turns := rest } }

/-- What is sent in two parts is sent as a whole. -/
theorem State.afterSending_afterSending (bs cs : List Byte) (ops' : List MicroOp) (rest' : List Agent) :
    (s.afterSending bs ops rest).afterSending cs ops' rest' = s.afterSending (bs ++ cs) ops' rest' := by
  simp [State.afterSending]

/-- The transmitter becomes ready and CTRL sends the next byte: two turns (R11, D19). -/
theorem run_hostTx_ctrl {b : Byte} (n : Nat) (hp : s.pos = .command (.tx b :: ops))
    (hd : s.clock.interruptDue = false) (ht : s.env.turns = .hostTx :: .ctrl :: rest) :
    core.run (n + 2) s = core.run n (s.afterSending [b] ops rest) := by
  have hready : step s = .next (hostTxTurn s.popTurn) := step_of_turn hd ht
  have ht' : (hostTxTurn s.popTurn).env.turns = .ctrl :: rest := congrArg List.tail ht
  have hsend : step (hostTxTurn s.popTurn) = .next (s.afterSending [b] ops rest) :=
    calc step (hostTxTurn s.popTurn)
      _ = ctrlStep (hostTxTurn s.popTurn).popTurn := step_of_turn (s := hostTxTurn s.popTurn) hd ht'
      _ = .next (stepBody (.tx b :: ops) (hostTxTurn s.popTurn).popTurn) := ctrlStep_of_command hp
      _ = .next (s.afterSending [b] ops rest) := by
          rw [stepBody_tx_ready _ b ops rfl, State.popTurn_of_turns ht', State.popTurn_of_turns ht]
          rfl
  exact (run_succ hready).trans (run_succ hsend)

/-- Bytes left to send go out in order, one for each time the transmitter becomes ready. -/
theorem run_pending {bs : List Byte} (hne : bs ≠ []) (hp : s.pos = .command (bs.map .tx))
    (hd : s.clock.interruptDue = false)
    (ht : s.env.turns = (List.replicate bs.length [Agent.hostTx, .ctrl]).flatten ++ rest) :
    core.run (2 * bs.length) s = .next (s.afterSending bs [] rest) := by
  induction bs, hne using List.recNeNil generalizing s with
  | singleton b => exact run_hostTx_ctrl 0 hp hd ht
  | cons b bs hne ih =>
    obtain ⟨c, cs, rfl⟩ := List.exists_cons_of_ne_nil hne
    have hfirst := run_hostTx_ctrl (2 * (c :: cs).length) hp hd ht
    have hrest := ih (s := s.afterSending [b] ((c :: cs).map .tx) _) rfl hd rfl
    rw [State.afterSending_afterSending] at hrest
    exact hfirst.trans hrest

end Sys2Proof.Machine

open Sys2Proof Sys2Proof.Machine

/-- Settles O20: two turns for each byte, by induction on the bytes. -/
theorem pendingBytesAreSentInOrder : Obligations.PendingBytesAreSentInOrder := by
  intro bs s rest hne hp hd ht
  exact run_pending hne hp hd ht

/-- Settles O19: CTRL's step leaves the transmission it found, in the position it found it. -/
theorem transmissionWaitsForTheTransmitter : Obligations.TransmissionWaitsForTheTransmitter := by
  intro s b ops hq hp hbusy
  rw [step_of_quiet hq, ctrlStep_of_command hp, stepBody_tx_busy s b ops hbusy, State.bodyLeft_of_pos hp]

/-- Settles O58, by whether the receiver holds a byte. -/
theorem hostByteEntersOnlyAnEmptyReceiver : Obligations.HostByteEntersOnlyAnEmptyReceiver := by
  intro s b bs rest hd ht hi
  have hturn : step s = .next (hostRxTurn s.popTurn) := step_of_turn hd ht
  rw [hturn]
  cases hrx : s.serial.rxAvail with
  | true => rw [hostRxTurn_full (s := s.popTurn) hrx, State.popTurn_of_turns ht, if_pos rfl]
  | false => rw [hostRxTurn_empty (s := s.popTurn) hi hrx, State.popTurn_of_turns ht, if_neg Bool.false_ne_true]

end

section
/-! PROOFS. The state of spec/10_state.md: the invariant at entry and over every step of every agent (R22, R24, R35, R43,
R48, R50), the drive invariant over the pin history (R30), and the transmit log (R38). -/

namespace Sys2Proof.Machine

variable {s t : State}

/-! ### Pin traces and the latches -/

theorem replay_cons_eq_some {v w : BusView} {e : PinEvent} {es : List PinEvent} :
    replay v (e :: es) = some w ↔ ∃ u, v.after e = some u ∧ replay u es = some w := by
  rw [replay]
  cases v.after e <;> simp

/-- The latches follow a legal level change. -/
theorem Lines.Shows.apply {l : Lines} {v w : BusView} (h : l.Shows v) {e : PinEvent} (hw : v.after e = some w) :
    (l.apply e).Shows w := by
  obtain ⟨hbusen, hrdyC, hwake, hwr, hrd, haddr, hdata⟩ := h
  cases e with
  | addrOut a | addrIn | dataOut d | dataIn =>
    obtain ⟨-, heq⟩ := Option.ite_none_right_eq_some.mp hw
    cases heq
    simp [Lines.apply, Lines.Shows, *]
  | busen l | rdyC l | wake l | wr l | rd l =>
    cases l
    all_goals
      obtain ⟨-, heq⟩ := Option.ite_none_right_eq_some.mp hw
      cases heq
      simp [Lines.apply, Lines.Shows, *]

/-- The latches follow a legal trace. -/
theorem Lines.Shows.replay {es : List PinEvent} {l : Lines} {v w : BusView} (h : l.Shows v)
    (hw : replay v es = some w) : (es.foldl Lines.apply l).Shows w := by
  induction es generalizing l v with
  | nil => cases hw; exact h
  | cons e es ih =>
    obtain ⟨u, hu, hw⟩ := replay_cons_eq_some.mp hw
    exact ih (h.apply hu) hw

/-- Every beginning of a legal trace is legal. -/
theorem replay_of_prefix {es fs : List PinEvent} (hp : es <+: fs) {v w : BusView} (h : replay v fs = some w) :
    ∃ u, replay v es = some u := by
  obtain ⟨gs, rfl⟩ := hp
  rw [replay_append] at h
  obtain ⟨u, hu, -⟩ := Option.bind_eq_some_iff.mp h
  exact ⟨u, hu⟩

/-- The drive invariant (R30) of a view: what is on needs the bus owned, a strobe needs its drivers, and the bus is owned
only with RDY held low (R24). -/
structure BusView.Guarded (v : BusView) : Prop where
  rdyC : v.busen = .asserted → v.rdyC = .low
  addr : v.addr ≠ none → v.busen = .asserted
  data : v.data ≠ none → v.busen = .asserted
  wr : v.wr = .asserted → v.addr ≠ none ∧ v.data ≠ none
  rd : v.rd = .asserted → v.addr ≠ none ∧ v.data = none

theorem BusView.idle_guarded : BusView.idle.Guarded := by constructor <;> simp [BusView.idle]

/-- A legal level change keeps the drive invariant. -/
theorem BusView.Guarded.after {v w : BusView} (h : v.Guarded) {e : PinEvent} (hw : v.after e = some w) :
    w.Guarded := by
  obtain ⟨hrdyC, haddr, hdata, hwr, hrd⟩ := h
  cases e with
  | addrOut a | addrIn | dataOut d | dataIn =>
    obtain ⟨hc, heq⟩ := Option.ite_none_right_eq_some.mp hw
    cases heq
    simp only [BusView.strobesOff, Bool.and_eq_true, beq_iff_eq] at hc
    constructor <;> simp_all
  | busen l | rdyC l | wake l | wr l | rd l =>
    cases l
    all_goals
      obtain ⟨hc, heq⟩ := Option.ite_none_right_eq_some.mp hw
      cases heq
      simp only [BusView.strobesOff, BusView.undriven, Bool.and_eq_true, beq_iff_eq, Option.isSome_iff_ne_none,
        Option.isNone_iff_eq_none] at hc
      constructor <;> simp_all

theorem BusView.Guarded.replay {es : List PinEvent} {v w : BusView} (h : v.Guarded) (hw : replay v es = some w) :
    w.Guarded := by
  induction es generalizing v with
  | nil => cases hw; exact h
  | cons e es ih =>
    obtain ⟨u, hu, hw⟩ := replay_cons_eq_some.mp hw
    exact ih (h.after hu) hw

theorem BusView.Guarded.busen_of_driven {v : BusView} (h : v.Guarded)
    (hd : v.addr ≠ none ∨ v.data ≠ none ∨ v.wr = .asserted ∨ v.rd = .asserted) : v.busen = .asserted := by
  rcases hd with ha | hd | hw | hr
  · exact h.addr ha
  · exact h.data hd
  · exact h.addr (h.wr hw).1
  · exact h.addr (h.rd hr).1

theorem Lines.Shows.aDir_output {l : Lines} {v : BusView} (h : l.Shows v) : l.aDir = .output ↔ v.addr ≠ none := by
  obtain ⟨-, -, -, -, -, haddr, -⟩ := h
  simp [haddr]

theorem Lines.Shows.dDir_output {l : Lines} {v : BusView} (h : l.Shows v) : l.dDir = .output ↔ v.data ≠ none := by
  obtain ⟨-, -, -, -, -, -, hdata⟩ := h
  simp [hdata]

theorem Lines.Shows.aDir_input {l : Lines} {v : BusView} (h : l.Shows v) (hv : v.addr = none) : l.aDir = .input := by
  cases hd : l.aDir with
  | input => rfl
  | output => exact absurd hv (h.aDir_output.mp hd)

theorem Lines.Shows.dDir_input {l : Lines} {v : BusView} (h : l.Shows v) (hv : v.data = none) : l.dDir = .input := by
  cases hd : l.dDir with
  | input => rfl
  | output => exact absurd hv (h.dDir_output.mp hd)

/-! ### The other agents' turns -/

/-- What another agent's turn leaves as CTRL left it (R7): all the invariant speaks of but the memory, which is the
target's while it owns the bus, and the counter; and what such a turn keeps of these two. -/
structure CtrlFrame (s t : State) : Prop where
  lines : t.lines = s.lines
  fsm : t.fsm = s.fsm
  pos : t.pos = s.pos
  cmd : t.cmd = s.cmd
  run : t.run = s.run
  fifo : t.fifo = s.fifo
  pins : t.pins = s.pins
  txLog : t.serial.txLog = s.serial.txLog
  snapLo : t.clock.snapLo = s.clock.snapLo
  snapHi : t.clock.snapHi = s.clock.snapHi
  mem : t.mem ≠ s.mem → s.lines.busen = .deasserted
  memWf : s.mem.wf = true → t.mem.wf = true
  interrupts : s.clock.ien = true → s.clock.ovfPending = false → t.clock.ien = true ∧ t.clock.ovfPending = false

theorem CtrlFrame.hasLeft (f : CtrlFrame s t) (hm : t.mem = s.mem) (i : Instr) (ops : List MicroOp)
    (h : HasLeft i ops s) : HasLeft i ops t := by
  obtain ⟨hlines, -, -, -, hrun, hfifo, -, htx, hlo, hhi, -, -, -⟩ := f
  cases i <;>
    simpa only [HasLeft, State.memRead, Clock.snapByte, Clock.snapshot, Clock.snapText, hlines, hrun, hfifo, htx, hlo,
      hhi, hm] using h

theorem Position.busView_of_afterFetch {p : Position} (h : p.afterFetch = true) : p.busView = BusView.window false := by
  cases p with
  | dispatch | command _ | release => rfl
  | _ => exact absurd h Bool.false_ne_true

/-- The bus is owned from the fetch on to Release. -/
theorem State.Inv.busen_of_afterFetch (h : s.Inv) (hp : s.pos.afterFetch = true) : s.lines.busen = .asserted := by
  obtain ⟨hbusen, -⟩ := h.lines
  rw [hbusen, Position.busView_of_afterFetch hp]
  rfl

theorem CtrlFrame.leftFits (f : CtrlFrame s t) (hm : s.pos.afterFetch = true → t.mem = s.mem) (h : s.LeftFits) :
    t.LeftFits := by
  unfold State.LeftFits at h ⊢
  rw [f.pos, f.cmd]
  cases hp : s.pos with
  | polling ops => simpa only [hp] using h
  | command ops =>
    rw [hp] at h hm
    exact ⟨h.1, f.hasLeft (hm rfl) _ _ h.2⟩
  | release =>
    rw [hp] at h hm
    exact f.hasLeft (hm rfl) _ _ h
  | _ => trivial

/-- A turn of another agent keeps the invariant. -/
theorem State.Inv.of_ctrlFrame (h : s.Inv) (f : CtrlFrame s t) : t.Inv := by
  have hmem : s.pos.afterFetch = true → t.mem = s.mem := fun hp => by
    by_contra hne
    exact absurd ((h.busen_of_afterFetch hp).symm.trans (f.mem hne)) (by simp)
  have hleft := f.leftFits hmem h.left
  obtain ⟨hien, hpend⟩ := f.interrupts h.enabled h.noneDue
  obtain ⟨hlines, hfsm, hpos, hcmd, hrun, hfifo, hpins, -, -, -, -, hwf, -⟩ := f
  refine ⟨?_, ?_, ?_, hleft, fun hp => ?_, ?_, hien, hpend, ?_, ?_, hwf h.mem⟩
  · rw [hpins, hpos]; exact h.trace
  · rw [hlines, hpos]; exact h.lines
  · rw [hpos, hfsm, hrun]; exact h.control
  · rw [hpos] at hp
    rw [hcmd, State.memRead, hmem hp]
    exact h.latched hp
  · rw [hrun, hcmd]; exact h.halted
  · rw [State.settledFifo, hpos, hfifo]; exact h.fifo
  · rw [hfifo]; exact h.cap

/-- A change of the environment, of the target's drive of RDY and of the serial port's flags and receiver. -/
theorem CtrlFrame.of_env {d : Drive} {serial : Serial} {env : Env} (h : serial.txLog = s.serial.txLog) :
    CtrlFrame s { s with rdyT := d, serial := serial, env := env } :=
  ⟨rfl, rfl, rfl, rfl, rfl, rfl, rfl, h, rfl, rfl, fun hne => absurd rfl hne, id, fun he hp => ⟨he, hp⟩⟩

theorem popTurn_ctrlFrame (s : State) : CtrlFrame s s.popTurn := .of_env rfl

theorem Clock.takeInterrupt_snap (c : Clock) :
    c.takeInterrupt.snapLo = c.snapLo ∧ c.takeInterrupt.snapHi = c.snapHi := by
  cases hd : c.interruptDue with
  | true => simp [c.takeInterrupt_of_due hd]
  | false => simp [c.takeInterrupt_of_not_due hd]

theorem Clock.tick_snap (c : Clock) : c.tick.snapLo = c.snapLo ∧ c.tick.snapHi = c.snapHi := by
  rw [Clock.tick, (Clock.takeInterrupt_snap _).1, (Clock.takeInterrupt_snap _).2]
  split <;> exact ⟨rfl, rfl⟩

/-- With interrupts enabled and none pending, a Tick leaves them so: the increment is made in the step of the wrap
(R221). -/
theorem Clock.tick_enabled (c : Clock) (he : c.ien = true) (hp : c.ovfPending = false) :
    c.tick.ien = true ∧ c.tick.ovfPending = false := by
  rw [c.tick_of_enabled he hp]
  split <;> exact ⟨he, hp⟩

theorem tmrTurn_ctrlFrame (s : State) : CtrlFrame s (tmrTurn s) :=
  ⟨rfl, rfl, rfl, rfl, rfl, rfl, rfl, rfl, s.clock.tick_snap.1, s.clock.tick_snap.2, fun hne => absurd rfl hne, id,
    s.clock.tick_enabled⟩

/-- The target stores only while it owns the bus (R62). -/
theorem memWrite_ctrlFrame (a v : Byte) (env : Env) (h : s.targetMayAccess = true) :
    CtrlFrame s { s.memWrite a v with env := env } := by
  have hbusen : s.lines.busen = .deasserted := by
    simp only [State.targetMayAccess, Bool.and_eq_true, beq_iff_eq] at h
    exact h.1.1
  exact ⟨rfl, rfl, rfl, rfl, rfl, rfl, rfl, rfl, rfl, rfl, fun _ => hbusen, Memory.wf_write s.mem a v,
    fun he hp => ⟨he, hp⟩⟩

theorem tgtTurn_ctrlFrame (h : tgtTurn s = .next t) : CtrlFrame s t := by
  rcases tgtTurn_cases h with rfl | ⟨a, v, rest, -, hm, rfl⟩ | ⟨a, rest, -, -, rfl⟩ | ⟨rest, -, -, rfl⟩ | ⟨rest, -, rfl⟩ |
      ⟨rest, -, -, rfl⟩
  case inr.inl => exact memWrite_ctrlFrame a v _ hm
  all_goals exact .of_env rfl

theorem hostRxTurn_ctrlFrame (s : State) : CtrlFrame s (hostRxTurn s) := by
  unfold hostRxTurn
  split
  · exact .of_env rfl
  · split <;> exact .of_env rfl

theorem hostTxTurn_ctrlFrame (s : State) : CtrlFrame s (hostTxTurn s) := .of_env rfl

/-- The turn of any agent but CTRL and the shell leaves CTRL as it was. -/
theorem agentStep_ctrlFrame {a : Agent} (h : agentStep a s = .next t) (hc : a ≠ .ctrl) (hs : a ≠ .shell) :
    CtrlFrame s t := by
  cases a with
  | ctrl => exact absurd rfl hc
  | shell => exact absurd rfl hs
  | tgt => exact tgtTurn_ctrlFrame h
  | tmr => cases h; exact tmrTurn_ctrlFrame s
  | hostRx => cases h; exact hostRxTurn_ctrlFrame s
  | hostTx => cases h; exact hostTxTurn_ctrlFrame s

/-- What the shell enters is the returned loop, at its head, with the log begun anew (R292, R294). -/
theorem enterLoop_inv (h : s.Inv) (hp : s.pos = .returned) : (enterLoop s).Inv := by
  obtain ⟨trace, lines, -, -, -, -, en, nd, fifo, cap, mem⟩ := h
  rw [State.settledFifo, hp] at fifo
  rw [hp] at trace lines
  exact ⟨trace, lines, .inl rfl, trivial, by simp [enterLoop, Position.afterFetch], by simp [enterLoop], en, nd, fifo,
    cap, mem⟩

theorem shellTurn_inv (h : s.Inv) : (shellTurn s).Inv := by
  unfold shellTurn
  split
  · next hp => exact enterLoop_inv h hp
  · exact h

/-- The turn of any agent but CTRL keeps the invariant. -/
theorem State.Inv.agentStep {a : Agent} (h : s.Inv) (ht : agentStep a s = .next t) (hc : a ≠ .ctrl) : t.Inv := by
  by_cases hs : a = .shell
  · subst hs
    cases ht
    exact shellTurn_inv h
  · exact h.of_ctrlFrame (agentStep_ctrlFrame ht hc hs)

/-! ### CTRL outside the operations -/

/-- `s` after the level changes `es`, with `fsm` and `pos` as given: the form of every step of the loop that is no part of
an operation (R142 to R151). -/
def State.moveTo (es : List PinEvent) (f : Fsm) (p : Position) (s : State) : State :=
  { s with lines := es.foldl Lines.apply s.lines, pins := s.pins ++ es, fsm := f, pos := p }

theorem idleSampleStep_eq (s : State) :
    idleSampleStep s = s.moveTo [] (if s.rdyLine = .low then .confirmRequest else s.fsm) .loopHead := by
  by_cases h : s.rdyLine = .low <;> simp [idleSampleStep, State.moveTo, h]

theorem confirmStep_eq (s : State) :
    confirmStep s = s.moveTo [] (if s.rdyLine = .low then .servicing else .idle) .loopHead := by
  by_cases h : s.rdyLine = .low <;> simp [confirmStep, State.delay, State.moveTo, h]

theorem acquireStep_eq (s : State) :
    acquireStep s = s.moveTo [.rdyC .low, .busen .asserted] s.fsm .fetch := by
  simp [acquireStep, acquire, State.pin, State.moveTo]

theorem releaseStep_eq (s : State) :
    releaseStep s = s.moveTo [.busen .deasserted, .rdyC .released] s.fsm .wakeLow := by
  simp [releaseStep, State.pin, State.moveTo]

theorem wakeLowStep_eq (s : State) : wakeLowStep s = s.moveTo [.wake .low] s.fsm .wakeHigh := rfl

theorem wakeHighStep_eq (s : State) : wakeHighStep s = s.moveTo [.wake .high] s.fsm .passEnd := rfl

theorem passEndStep_eq (s : State) : passEndStep s = s.moveTo [] .idle .loopHead := by
  simp [passEndStep, State.moveTo]

/-- The loop returns (R152). -/
theorem loopHeadStep_halted (h : s.run = false) : loopHeadStep s = s.moveTo [] s.fsm .returned := by
  simp [loopHeadStep, h, State.moveTo]

/-- No operation is in progress at the position, and no command byte stands fetched. -/
def Position.outside : Position → Bool
  | .polling _ => false
  | p => !p.afterFetch

theorem Position.left_of_outside {p : Position} (h : p.outside = true) : p.left = [] := by
  cases p <;> simp_all [Position.outside, Position.afterFetch, Position.left]

theorem Position.afterFetch_of_outside {p : Position} (h : p.outside = true) : p.afterFetch = false := by
  cases p <;> simp_all [Position.outside]

theorem State.leftFits_of_outside (h : s.pos.outside = true) : s.LeftFits := by
  unfold State.LeftFits
  cases hp : s.pos <;> simp_all [Position.outside, Position.afterFetch]

/-- A move along a legal trace, from a position with no micro-step left to one outside the operations that allows the
`fsm`, keeps the invariant. -/
theorem State.Inv.moveTo (h : s.Inv) {q p : Position} {es : List PinEvent} {f : Fsm} (hq : s.pos = q)
    (hleft : q.left = []) (hes : replay q.busView es = some p.busView) (hc : p.allows f s.run)
    (hp : p.outside = true) : (s.moveTo es f p).Inv := by
  obtain ⟨trace, lines, -, -, -, halted, en, nd, fifo, cap, mem⟩ := h
  rw [hq] at trace lines
  refine ⟨?_, lines.replay hes, hc, State.leftFits_of_outside hp, fun ha => ?_, halted, en, nd, ?_, cap, mem⟩
  · show replay _ (s.pins ++ es) = _
    rw [replay_append, trace]
    exact hes
  · exact absurd ((Position.afterFetch_of_outside hp).symm.trans ha) Bool.false_ne_true
  · rw [State.settledFifo, hq, hleft] at fifo
    show (p.left.foldl _ s.fifo).Inv
    rw [Position.left_of_outside hp]
    exact fifo

/-! ### SerialPoll -/

/-- Inside an Idle step: the invariant but for what goes with the micro-steps left of SerialPoll (R141, R200). -/
structure InPoll (s : State) : Prop where
  trace : replay BusView.idle s.pins = some BusView.idle
  lines : s.lines.Shows BusView.idle
  fsm : s.fsm = .idle
  run : s.run = true
  enabled : s.clock.ien = true
  noneDue : s.clock.ovfPending = false
  cap : s.fifo.count ≤ Config.fifoCap
  mem : s.mem.wf = true

theorem State.Inv.inPoll (h : s.Inv) (hv : s.pos.busView = BusView.idle) (hf : s.fsm = .idle) (hr : s.run = true) :
    InPoll s :=
  ⟨hv ▸ h.trace, hv ▸ h.lines, hf, hr, h.enabled, h.noneDue, h.cap, h.mem⟩

/-- With what is left of SerialPoll standing in `pos`, the invariant is whole. -/
theorem InPoll.inv (h : InPoll s) {ops : List MicroOp} {b : Byte} (hl : ops <:+ [.bufStore b, .wrAdvance, .countUp])
    (hf : (ops.foldl (fun f op => op.onFifo f) s.fifo).Inv) : (s.pollLeft ops).Inv := by
  obtain ⟨trace, lines, fsm, run, en, nd, cap, mem⟩ := h
  refine ⟨?_, ?_, ?_, ?_, ?_, fun hr => absurd (run.symm.trans hr) (by simp), en, nd, ?_, cap, mem⟩
  · simpa using trace
  · simpa using lines
  · cases ops <;> exact ⟨fsm, run⟩
  · cases ops with
    | nil => trivial
    | cons op ops => exact ⟨by simp, b, hl⟩
  · simp
  · simpa [State.settledFifo] using hf

theorem InPoll.takeRx (h : InPoll s) : InPoll s.takeRx := { h with }

theorem InPoll.setFifo (h : InPoll s) {f : Fifo} (hc : f.count ≤ Config.fifoCap) : InPoll { s with fifo := f } :=
  { h with cap := hc }

/-- The first micro-step of SerialPoll (R200 to R203). -/
theorem InPoll.idlePoll_inv (h : InPoll s) (hf : s.fifo.Inv) : (idlePoll s).Inv := by
  unfold idlePoll pollBegin
  split
  · split
    · exact h.takeRx.inv (b := 0) List.nil_suffix hf
    · next hfull =>
      have hroom : s.fifo.count < Config.fifoCap := by simpa [Fifo.isFull] using hfull
      exact h.takeRx.inv List.suffix_rfl (s.fifo.push_inv s.serial.rxData hf hroom)
  · exact h.inv (b := 0) List.nil_suffix hf

/-- A later micro-step of SerialPoll (R200). -/
theorem InPoll.stepPoll_inv (h : InPoll s) {ops : List MicroOp} {b : Byte} (hne : ops ≠ [])
    (hl : ops <:+ [.bufStore b, .wrAdvance, .countUp])
    (hf : (ops.foldl (fun f op => op.onFifo f) s.fifo).Inv) : (stepPoll ops s).Inv := by
  simp only [List.suffix_cons_iff, List.suffix_nil] at hl
  rcases hl with rfl | rfl | rfl | rfl
  · exact (h.setFifo (f := s.fifo.store b) h.cap).inv (b := b) (List.suffix_cons ..) hf
  · exact (h.setFifo (f := s.fifo.advanceWr) h.cap).inv (b := b) ⟨[_, _], rfl⟩ hf
  · exact (h.setFifo (f := s.fifo.countUp) hf.1).inv (b := b) List.nil_suffix hf
  · exact absurd rfl hne

/-! ### Dispatch -/

/-- The invariant at Dispatch and within a command. -/
theorem State.Inv.inWindow (h : s.Inv) (hp : s.pos = .dispatch ∨ ∃ ops, s.pos = .command ops) : InWindow s := by
  obtain ⟨trace, lines, control, -, latched, -, en, nd, -, cap, mem⟩ := h
  have hfetched : s.pos.afterFetch = true := by rcases hp with hp | ⟨ops, hp⟩ <;> rw [hp] <;> rfl
  have hcontrol : s.fsm = .servicing ∧ s.run = true := by
    rcases hp with hp | ⟨ops, hp⟩ <;> rw [hp] at control <;> exact control
  rw [Position.busView_of_afterFetch hfetched] at trace lines
  exact ⟨trace, lines, hcontrol.1, hcontrol.2, latched hfetched, en, nd, cap, mem⟩

theorem InWindow.takeRx (h : InWindow s) : InWindow s.takeRx := { h with }

theorem InWindow.getTime (h : InWindow s) : InWindow s.getTime :=
  { h with enabled := s.clock.getTime_enabled.1, noneDue := s.clock.getTime_enabled.2 }

theorem InWindow.advanceRd (h : InWindow s) : InWindow { s with fifo := s.fifo.advanceRd } :=
  { h with }

theorem Fifo.isEmpty_eq_true (f : Fifo) : f.isEmpty = true ↔ f.count = 0 := by simp [Fifo.isEmpty]

theorem Fifo.isEmpty_eq_false (f : Fifo) : f.isEmpty = false ↔ 0 < f.count := by
  simp [Fifo.isEmpty, Nat.pos_iff_ne_zero]

theorem InWindow.bodyLeft_inv (h : InWindow s) {i : Instr} {ops : List MicroOp} (hi : decodeByte s.cmd = i)
    (hl : HasLeft i ops s) (hf : (ops.foldl (fun f op => op.onFifo f) s.fifo).Inv) : (s.bodyLeft ops).Inv :=
  h.inv ops (hi ▸ hl) hf

/-- An unknown code has its marker to send. -/
theorem hasLeft_unknown {i : Instr} (he : i ≠ .exit) (hg : i ≠ .getch) (hp : i ≠ .putch) (hgt : i ≠ .gettime)
    (hpt : i ≠ .prtime) (s : State) : HasLeft i [.tx Param.unknownMark] s := by
  cases i with
  | exit | getch | putch | gettime | prtime => contradiction
  | _ => exact .inl rfl

/-- The first micro-step of the command in `cmd` keeps the invariant. -/
theorem InWindow.exec_inv (h : InWindow s) (hf : s.fifo.Inv) (ht : exec (decodeByte s.cmd) s = .next t) : t.Inv := by
  rcases exec_cases ht with ⟨hi, rfl⟩ | ⟨hi, hsome, rfl⟩ | ⟨hi, -, -, rfl⟩ | ⟨hi, hnone, -, rfl⟩ | ⟨hi, rfl⟩ |
      ⟨hi, rfl⟩ | ⟨hi, rfl⟩ | ⟨he, hg, hp, hgt, hpt, rfl⟩
  · exact h.stepBody_inv _ (by simp) (by rw [hi]; exact .inl rfl) hf
  · have hc := s.fifo.isEmpty_eq_false.mp hsome
    exact h.advanceRd.bodyLeft_inv hi (.inr (.inl ⟨_, rfl, hc⟩)) (s.fifo.pop_inv hf hc)
  · exact h.takeRx.bodyLeft_inv hi (.inr (.inr (.inl ⟨_, rfl⟩))) hf
  · exact h.bodyLeft_inv hi (.inl ⟨rfl, s.fifo.isEmpty_eq_true.mp hnone⟩) hf
  · have hread := h.read (argAddr 0) (argAddr_isArgAddr 0 (by decide))
    rw [busRead_owned _ _ h.owns] at hread ⊢
    exact hread.bodyLeft_inv hi (.inl rfl) hf
  · exact h.getTime.bodyLeft_inv hi ⟨0, by omega, rfl, by simp⟩ hf
  · exact h.getTime.bodyLeft_inv hi ⟨0, by omega, rfl, by simp⟩ hf
  · exact h.stepBody_inv _ (by simp) (hasLeft_unknown he hg hp hgt hpt s) hf

/-! ### CTRL's step -/

/-- The step at the head of the loop: the return, or the step of the `fsm` state (R140, R152). -/
theorem State.Inv.loopHeadStep (h : s.Inv) (hp : s.pos = .loopHead) : (loopHeadStep s).Inv := by
  have hcontrol := h.control
  rw [hp] at hcontrol
  cases hr : s.run with
  | false =>
    have hidle : s.fsm = .idle := by simpa [Position.allows, hr] using hcontrol
    rw [loopHeadStep_halted hr]
    exact h.moveTo hp rfl rfl ⟨hidle, hr⟩ rfl
  | true =>
    simp only [Machine.loopHeadStep, hr, if_true]
    cases hf : s.fsm with
    | idle =>
      have hfifo := h.fifo
      rw [State.settledFifo, hp] at hfifo
      exact (h.inPoll (by rw [hp]; rfl) hf hr).idlePoll_inv hfifo
    | confirmRequest =>
      show (confirmStep s).Inv
      rw [confirmStep_eq]
      exact h.moveTo hp rfl rfl (.inl hr) rfl
    | servicing =>
      show (acquireStep s).Inv
      rw [acquireStep_eq]
      exact h.moveTo hp rfl rfl ⟨hf, hr⟩ rfl

/-- The command fetch (R147). -/
theorem State.Inv.fetchStep (h : s.Inv) (hp : s.pos = .fetch) : (fetchStep s).Inv := by
  obtain ⟨trace, lines, control, -, -, -, en, nd, fifo, cap, mem⟩ := h
  rw [State.settledFifo, hp] at fifo
  rw [hp] at trace lines control
  have hreplay : replay (BusView.window true) (readPins Param.command) = some (BusView.window false) := rfl
  rw [fetchStep_owned ((State.owns_iff s).mpr lines.1)]
  refine ⟨?_, lines.replay hreplay, control, trivial, fun _ => rfl, fun hr => ?_, en, nd, fifo, cap, mem⟩
  · simp only [replay_append, trace]
    exact hreplay
  · exact absurd (control.2.symm.trans hr) (by simp)

/-- CTRL's step keeps the invariant, at every position. -/
theorem State.Inv.ctrlStep (h : s.Inv) (ht : ctrlStep s = .next t) : t.Inv := by
  have hcontrol := h.control
  have hleft := h.left
  have hfifo := h.fifo
  unfold State.LeftFits at hleft
  unfold State.settledFifo at hfifo
  rcases ctrlStep_cases ht with ⟨hp, rfl⟩ | ⟨ops, hp, rfl⟩ | ⟨hp, rfl⟩ | ⟨hp, rfl⟩ | ⟨hp, ht⟩ | ⟨ops, hp, rfl⟩ |
      ⟨hp, rfl⟩ | ⟨hp, rfl⟩ | ⟨hp, rfl⟩ | ⟨hp, rfl⟩ | ⟨hp, rfl⟩ <;>
    rw [hp] at hcontrol hleft hfifo
  · exact h.loopHeadStep hp
  · obtain ⟨hne, b, hb⟩ := hleft
    exact (h.inPoll (by rw [hp]; rfl) hcontrol.1 hcontrol.2).stepPoll_inv hne hb hfifo
  · rw [idleSampleStep_eq]
    exact h.moveTo hp rfl rfl (.inl hcontrol.2) rfl
  · exact h.fetchStep hp
  · exact (h.inWindow (.inl hp)).exec_inv hfifo ht
  · exact (h.inWindow (.inr ⟨ops, hp⟩)).stepBody_inv ops hleft.1 hleft.2 hfifo
  · rw [releaseStep_eq]
    exact h.moveTo hp rfl rfl hcontrol rfl
  · rw [wakeLowStep_eq]
    exact h.moveTo hp rfl rfl hcontrol rfl
  · rw [wakeHighStep_eq]
    exact h.moveTo hp rfl rfl hcontrol rfl
  · rw [passEndStep_eq]
    exact h.moveTo hp rfl rfl (.inr rfl) rfl
  · exact h

theorem State.Inv.popTurn (h : s.Inv) : s.popTurn.Inv := h.of_ctrlFrame (popTurn_ctrlFrame s)

/-- Every step keeps the invariant. -/
theorem State.Inv.step (h : s.Inv) (ht : step s = .next t) : t.Inv := by
  rw [step_of_not_due (Clock.interruptDue_of_clear _ h.noneDue)] at ht
  by_cases hc : s.nextAgent = .ctrl
  · rw [hc] at ht
    exact h.popTurn.ctrlStep ht
  · exact h.popTurn.agentStep ht hc

/-! ### Entering the loop -/

/-- The table of R50 meets the launch premise, whatever it leaves open. -/
theorem entry_cleanEntry (p : EntryParams) : (State.entry p).CleanEntry :=
  ⟨rfl, rfl, rfl, rfl, rfl, rfl, rfl, rfl, rfl, ⟨Nat.zero_le _, rfl⟩, rfl⟩

/-- The table of R50 meets the invariant, with the memory in canonical form. -/
theorem entry_inv (p : EntryParams) (hm : p.m0.wf = true) : (State.entry p).Inv where
  trace := rfl
  lines := ⟨rfl, rfl, rfl, rfl, rfl, rfl, rfl⟩
  control := .inl rfl
  left := trivial
  latched := fun h => absurd h Bool.false_ne_true
  halted := fun h => absurd h.symm Bool.false_ne_true
  enabled := rfl
  noneDue := rfl
  fifo := (entry_cleanEntry p).fifo
  cap := Nat.zero_le _
  mem := hm

/-- The shell enters a returned loop in CleanEntry (R294). -/
theorem enterLoop_cleanEntry (h : s.Inv) (hp : s.pos = .returned) : (enterLoop s).CleanEntry := by
  obtain ⟨-, lines, -, -, -, -, en, nd, fifo, -, -⟩ := h
  rw [State.settledFifo, hp] at fifo
  rw [hp] at lines
  have haddr := lines.aDir_input rfl
  have hdata := lines.dDir_input rfl
  obtain ⟨hbusen, hrdyC, hwake, hwr, hrd, -, -⟩ := lines
  exact ⟨hbusen, hrdyC, hwake, haddr, hdata, hwr, hrd, en, nd, fifo, rfl⟩

/-- The shell's turn at a returned loop. -/
theorem step_of_shell_returned (hd : s.clock.interruptDue = false) (ha : s.nextAgent = .shell)
    (hp : s.pos = .returned) : step s = .next (enterLoop s.popTurn) := by
  rw [step_of_not_due hd, ha]
  simp [Machine.agentStep, shellTurn, hp]

/-! ### The transmit log -/

/-- From `s` to `t` the transmit log has not moved, or one byte has been sent by a transmitter that was ready and is no
more (R11, R38). -/
def SendsAtMostOne (s t : State) : Prop :=
  t.serial.txLog = s.serial.txLog ∨
    (s.serial.txReady = true ∧ t.serial.txReady = false ∧ ∃ b, t.serial.txLog = s.serial.txLog ++ [b])

theorem SendsAtMostOne.txLog_isPrefix (h : SendsAtMostOne s t) : s.serial.txLog <+: t.serial.txLog := by
  rcases h with heq | ⟨-, -, b, heq⟩ <;> rw [heq]
  exact List.prefix_append ..

theorem serialTx_sends (b : Byte) (s : State) : SendsAtMostOne s (serialTx b s).1 := by
  cases hr : s.serial.txReady with
  | true => rw [serialTx_ready s b hr]; exact .inr ⟨hr, rfl, b, rfl⟩
  | false => rw [serialTx_busy s b hr]; exact .inl rfl

theorem busWrite_sends (a v : Byte) (s : State) : SendsAtMostOne s (busWrite a v s).state := by
  cases ho : s.owns with
  | true => rw [busWrite_owned s a v ho]; exact .inl rfl
  | false => rw [busWrite_refused s a v ho]; exact serialTx_sends _ s

theorem busRead_sends (a : Byte) (s : State) : SendsAtMostOne s (busRead a s).state := by
  cases ho : s.owns with
  | true => rw [busRead_owned s a ho]; exact .inl rfl
  | false => rw [busRead_refused s a ho]; exact serialTx_sends _ s

theorem runOp_sends (op : MicroOp) (s : State) : SendsAtMostOne s (runOp op s).1 := by
  cases op with
  | tx b => exact serialTx_sends b s
  | busWrite a v => exact busWrite_sends a v s
  | recvArg => cases hr : s.serial.rxAvail <;> simp [runOp, hr, SendsAtMostOne]
  | _ => exact .inl rfl

theorem runFirst_sends (ops : List MicroOp) (s : State) : SendsAtMostOne s (runFirst ops s).1 := by
  cases ops with
  | nil => exact .inl rfl
  | cons op ops => exact runOp_sends op s

theorem stepBody_sends (ops : List MicroOp) (s : State) : SendsAtMostOne s (stepBody ops s) := runFirst_sends ops s

theorem exec_sends {i : Instr} (ht : exec i s = .next t) : SendsAtMostOne s t := by
  rcases exec_cases ht with ⟨-, rfl⟩ | ⟨-, -, rfl⟩ | ⟨-, -, -, rfl⟩ | ⟨-, -, -, rfl⟩ | ⟨-, rfl⟩ | ⟨-, rfl⟩ | ⟨-, rfl⟩ |
      ⟨-, -, -, -, -, rfl⟩
  · exact stepBody_sends _ s
  · exact .inl rfl
  · exact .inl rfl
  · exact .inl rfl
  · exact busRead_sends (argAddr 0) s
  · exact .inl rfl
  · exact .inl rfl
  · exact stepBody_sends _ s

theorem fetchStep_sends (s : State) : SendsAtMostOne s (fetchStep s) := by
  cases ho : s.owns with
  | true => rw [fetchStep_owned ho]; exact .inl rfl
  | false =>
    rw [fetchStep_refused ho]
    split
    · next hr => exact .inr ⟨hr, rfl, _, rfl⟩
    · exact .inl rfl

theorem idlePoll_sends (s : State) : SendsAtMostOne s (idlePoll s) := by
  unfold idlePoll pollBegin
  split <;> exact .inl rfl

theorem State.moveTo_sends (es : List PinEvent) (f : Fsm) (p : Position) (s : State) :
    SendsAtMostOne s (s.moveTo es f p) := .inl rfl

theorem loopHeadStep_sends (s : State) : SendsAtMostOne s (loopHeadStep s) := by
  unfold Machine.loopHeadStep
  split
  · split
    · exact idlePoll_sends s
    · exact confirmStep_eq s ▸ s.moveTo_sends ..
    · exact acquireStep_eq s ▸ s.moveTo_sends ..
  · exact .inl rfl

/-- CTRL's step sends at most one byte, at every position. -/
theorem ctrlStep_sends (ht : ctrlStep s = .next t) : SendsAtMostOne s t := by
  rcases ctrlStep_cases ht with ⟨-, rfl⟩ | ⟨ops, -, rfl⟩ | ⟨-, rfl⟩ | ⟨-, rfl⟩ | ⟨-, ht⟩ | ⟨ops, -, rfl⟩ | ⟨-, rfl⟩ |
      ⟨-, rfl⟩ | ⟨-, rfl⟩ | ⟨-, rfl⟩ | ⟨-, rfl⟩
  · exact loopHeadStep_sends s
  · exact runFirst_sends ops s
  · exact idleSampleStep_eq s ▸ s.moveTo_sends ..
  · exact fetchStep_sends s
  · exact exec_sends ht
  · exact stepBody_sends ops s
  all_goals exact .inl rfl

/-- Only CTRL and the shell move the transmit log. -/
theorem step_txLog_of_other (ht : step s = .next t) (hc : s.nextAgent ≠ .ctrl) (hs : s.nextAgent ≠ .shell) :
    t.serial.txLog = s.serial.txLog := by
  cases hd : s.clock.interruptDue with
  | true =>
    rw [step_of_due hd] at ht
    cases ht
    rfl
  | false =>
    rw [step_of_not_due hd] at ht
    exact (agentStep_ctrlFrame ht hc hs).txLog

theorem step_sends_of_ctrl (ht : step s = .next t) (hc : s.nextAgent = .ctrl) : SendsAtMostOne s t := by
  cases hd : s.clock.interruptDue with
  | true =>
    rw [step_of_due hd] at ht
    cases ht
    exact .inl rfl
  | false =>
    rw [step_of_ctrl hd hc] at ht
    exact ctrlStep_sends (s := s.popTurn) ht

end Sys2Proof.Machine

open Sys2Proof Sys2Proof.Machine

/-- Settles O39: by whose turn it is, and on CTRL's by its position. -/
theorem everyStepKeepsTheInvariant : Obligations.EveryStepKeepsTheInvariant := by
  intro s t h ht
  exact h.step ht

/-- Settles O25: every level change of a legal trace keeps the drive invariant, and every beginning of the pin history is
a legal trace; the latches show where the whole of it has led. -/
theorem nothingIsDrivenWithoutOwnership : Obligations.NothingIsDrivenWithoutOwnership := by
  intro s h
  constructor
  · have hg : s.pos.busView.Guarded := BusView.idle_guarded.replay h.trace
    have hl := h.lines
    obtain ⟨hbusen, -, -, hwr, hrd, -, -⟩ := h.lines
    rw [hl.aDir_output, hl.dDir_output, hwr, hrd, hbusen]
    exact hg.busen_of_driven
  · intro es hes
    obtain ⟨v, hv⟩ := replay_of_prefix hes h.trace
    have hg : v.Guarded := BusView.idle_guarded.replay hv
    exact ⟨v, hv, fun hd => ⟨hg.busen_of_driven hd, hg.rdyC (hg.busen_of_driven hd)⟩, hg.wr, hg.rd⟩

/-- Settles O47: by whose turn it is, and on CTRL's by its position. -/
theorem transmitLogOnlyGrows : Obligations.TransmitLogOnlyGrows := by
  intro s t ht
  refine ⟨fun hs => ?_, fun hc hs => step_txLog_of_other ht hc hs, fun hc hne => ?_⟩
  · by_cases hc : s.nextAgent = .ctrl
    · exact (step_sends_of_ctrl ht hc).txLog_isPrefix
    · rw [step_txLog_of_other ht hc hs]
  · exact (step_sends_of_ctrl ht hc).resolve_left hne

/-- Settles O38: the table of R50, of which the reset state is one case, and the shell's entry of a returned loop. -/
theorem entryStatesMeetTheInvariant : Obligations.EntryStatesMeetTheInvariant := by
  refine ⟨fun p hm => ⟨entry_inv p hm, entry_cleanEntry p, rfl, rfl⟩, entry_inv _ rfl, entry_cleanEntry _, ?_⟩
  intro s t h hp ha ht
  rw [step_of_shell_returned (Clock.interruptDue_of_clear _ h.noneDue) ha hp] at ht
  cases ht
  exact ⟨enterLoop_inv h.popTurn hp, enterLoop_cleanEntry h.popTurn hp, rfl, rfl⟩

end

section
/-! PROOFS. The bus memory of spec/20_memory.md: who writes it (R62), which bytes the controller writes (R61, R66), and
the target's suspension while the controller owns the bus (R156, R271, R300). -/

namespace Sys2Proof.Machine

variable {s t : State}

/-! ### The owner and the target's permissions -/

theorem State.owner_controller_iff : s.owner = .controller ↔ s.lines.busen = .asserted := by
  cases h : s.lines.busen <;> simp [State.owner, h]

theorem State.owner_target_iff : s.owner = .target ↔ s.lines.busen = .deasserted := by
  cases h : s.lines.busen <;> simp [State.owner, h]

theorem State.targetMayAccess_iff :
    s.targetMayAccess = true ↔ s.owner = .target ∧ s.rdyLine = .high ∧ s.targetHeld = false := by
  simp [State.targetMayAccess, State.owner_target_iff, and_assoc]

/-- Suspension (R62, R156 item 3). -/
theorem State.not_targetMayAccess_of_controller (h : s.owner = .controller) : s.targetMayAccess ≠ true := by
  intro hm
  obtain ⟨ho, -, -⟩ := State.targetMayAccess_iff.mp hm
  exact absurd (h.symm.trans ho) (by decide)

/-- No request while the controller owns the bus (R156 item 2). -/
theorem State.not_targetMayRequest_of_controller (h : s.owner = .controller) : s.targetMayRequest ≠ true := by
  simp [State.targetMayRequest, State.owner_controller_iff.mp h]

/-! ### What CTRL stores -/

/-- From `s` to `t` memory has not moved, or the bus was owned and the first of the micro-steps `ops`, a bus write, has
stored its byte (R120, R121). -/
def StoresFirst (ops : List MicroOp) (s t : State) : Prop :=
  t.mem = s.mem ∨
    (s.owns = true ∧ ∃ a v rest, ops = .busWrite a v :: rest ∧ t.mem = s.mem.write a.toNat v)

theorem busRead_mem (a : Byte) (s : State) : (busRead a s).state.mem = s.mem := by
  cases ho : s.owns with
  | true => rw [busRead_owned s a ho]
  | false => rw [busRead_refused s a ho]; exact serialTx_mem s _

theorem runOp_storesFirst (op : MicroOp) (ops : List MicroOp) (s : State) :
    StoresFirst (op :: ops) s (runOp op s).1 := by
  cases op with
  | tx b => exact .inl (serialTx_mem s b)
  | busWrite a v =>
    cases ho : s.owns with
    | true => exact .inr ⟨ho, a, v, ops, rfl, by rw [runOp, busWrite_owned s a v ho]⟩
    | false => exact .inl (by rw [runOp, busWrite_refused s a v ho]; exact serialTx_mem s _)
  | recvArg => cases hr : s.serial.rxAvail <;> exact .inl (by simp [runOp, hr])
  | _ => exact .inl rfl

theorem runFirst_storesFirst (ops : List MicroOp) (s : State) : StoresFirst ops s (runFirst ops s).1 := by
  cases ops with
  | nil => exact .inl rfl
  | cons op ops => exact runOp_storesFirst op ops s

theorem stepBody_tx_mem (b : Byte) (ops : List MicroOp) (s : State) : (stepBody (.tx b :: ops) s).mem = s.mem :=
  serialTx_mem s b

/-- The first micro-step of a command stores nothing. -/
theorem exec_mem {i : Instr} (ht : exec i s = .next t) : t.mem = s.mem := by
  rcases exec_cases ht with ⟨-, rfl⟩ | ⟨-, -, rfl⟩ | ⟨-, -, -, rfl⟩ | ⟨-, -, -, rfl⟩ | ⟨-, rfl⟩ | ⟨-, rfl⟩ | ⟨-, rfl⟩ |
      ⟨-, -, -, -, -, rfl⟩
  · exact stepBody_tx_mem ..
  · rfl
  · rfl
  · rfl
  · exact busRead_mem (argAddr 0) s
  · rfl
  · rfl
  · exact stepBody_tx_mem ..

theorem fetchStep_mem (s : State) : (fetchStep s).mem = s.mem := by
  cases ho : s.owns with
  | true => rw [fetchStep_owned ho]
  | false =>
    rw [fetchStep_refused ho]
    split <;> rfl

theorem loopHeadStep_mem (s : State) : (loopHeadStep s).mem = s.mem := by
  unfold Machine.loopHeadStep
  split
  · split
    · unfold idlePoll pollBegin
      split <;> rfl
    · rw [confirmStep_eq]; rfl
    · rfl
  · rfl

/-- CTRL's step, at every position, stores at most what the micro-step it has next to make says. -/
theorem ctrlStep_storesFirst (ht : ctrlStep s = .next t) : StoresFirst s.pos.left s t := by
  rcases ctrlStep_cases ht with ⟨-, rfl⟩ | ⟨ops, hp, rfl⟩ | ⟨-, rfl⟩ | ⟨-, rfl⟩ | ⟨-, ht⟩ | ⟨ops, hp, rfl⟩ | ⟨-, rfl⟩ |
      ⟨-, rfl⟩ | ⟨-, rfl⟩ | ⟨-, rfl⟩ | ⟨-, rfl⟩
  · exact .inl (loopHeadStep_mem s)
  · rw [hp]; exact runFirst_storesFirst ops s
  · exact .inl (by rw [idleSampleStep_eq]; rfl)
  · exact .inl (fetchStep_mem s)
  · exact .inl (exec_mem ht)
  · rw [hp]; exact runFirst_storesFirst ops s
  all_goals exact .inl rfl

/-- The bus writes a command has left store to argument bytes (R61, R66). -/
theorem HasLeft.isArgAddr_of_busWrite {i : Instr} {ops : List MicroOp} (h : HasLeft i ops s) {a v : Byte}
    (hm : .busWrite a v ∈ ops) : isArgAddr a = true := by
  cases i with
  | getch =>
    rcases h with ⟨rfl, -⟩ | ⟨b, rfl, -⟩ | ⟨b, rfl⟩ | ⟨rfl, -⟩
    · simp at hm
    · obtain ⟨rfl, -⟩ : a = argAddr 0 ∧ v = b := by simpa using hm
      rfl
    · obtain ⟨rfl, -⟩ : a = argAddr 0 ∧ v = b := by simpa using hm
      rfl
    · simp at hm
  | gettime =>
    obtain ⟨n, -, rfl, -⟩ := h
    have hm := List.mem_of_mem_drop hm
    simp only [timeWrites, List.mem_cons, MicroOp.busWrite.injEq, List.not_mem_nil, or_false] at hm
    rcases hm with ⟨rfl, -⟩ | ⟨rfl, -⟩ | ⟨rfl, -⟩ | ⟨rfl, -⟩ <;> rfl
  | prtime =>
    obtain ⟨n, -, rfl, -⟩ := h
    obtain ⟨b, -, hb⟩ := List.mem_map.mp hm
    cases hb
  | exit =>
    rcases h with rfl | ⟨rfl, -⟩ | ⟨rfl, -⟩ <;> simp at hm
  | _ =>
    rcases h with rfl | ⟨rfl, -⟩ <;> simp at hm

/-- Under the invariant a bus write CTRL has left, at any position, is to an argument byte. -/
theorem State.Inv.isArgAddr_of_busWrite (h : s.Inv) {a v : Byte} (hm : .busWrite a v ∈ s.pos.left) :
    isArgAddr a = true := by
  have hleft := h.left
  unfold State.LeftFits at hleft
  cases hp : s.pos with
  | polling ops =>
    rw [hp] at hm hleft
    obtain ⟨-, b, hb⟩ := hleft
    exact absurd (hb.subset hm) (by simp)
  | command ops =>
    rw [hp] at hm hleft
    exact hleft.2.isArgAddr_of_busWrite hm
  | _ => rw [hp] at hm; exact absurd hm List.not_mem_nil

theorem exists_argAddr_of_isArgAddr {a : Byte} (h : isArgAddr a = true) : ∃ i < 4, a = argAddr i := by
  revert a; decide

/-- Under the invariant the micro-step CTRL has next to make leaves every byte alone but the four argument bytes. -/
theorem State.Inv.memRead_of_storesFirst (h : s.Inv) (hs : StoresFirst s.pos.left s t) {a : Byte}
    (ha : ∀ i < 4, a ≠ argAddr i) : t.memRead a = s.memRead a := by
  unfold State.memRead
  rcases hs with hmem | ⟨-, b, v, rest, hops, hmem⟩
  · rw [hmem]
  · obtain ⟨i, hi, rfl⟩ := exists_argAddr_of_isArgAddr (h.isArgAddr_of_busWrite (hops ▸ List.mem_cons_self))
    rw [hmem]
    exact Memory.read_write_other _ _ fun heq => ha i hi (BitVec.eq_of_toNat_eq heq)

/-! ### The other agents -/

/-- The target's turn changes memory only while the target may access the bus (R62, R156). -/
theorem tgtTurn_mem (h : tgtTurn s = .next t) (hne : t.mem ≠ s.mem) : s.targetMayAccess = true := by
  rcases tgtTurn_cases h with rfl | ⟨a, v, rest, -, hm, rfl⟩ | ⟨a, rest, -, -, rfl⟩ | ⟨rest, -, -, rfl⟩ |
      ⟨rest, -, rfl⟩ | ⟨rest, -, -, rfl⟩
  case inr.inl => exact hm
  all_goals exact absurd rfl hne

/-- While the controller owns the bus, the target's turn lets its act wait, or releases RDY (R156, R271). -/
theorem tgtTurn_suspended (ho : s.owner = .controller) (h : tgtTurn s = .next t) :
    t = s ∨ ∃ rest, t = { s with rdyT := .released, env := { s.env with script := rest } } := by
  have haccess := State.not_targetMayAccess_of_controller ho
  rcases tgtTurn_cases h with rfl | ⟨a, v, rest, -, hm, -⟩ | ⟨a, rest, -, hm, -⟩ | ⟨rest, -, hr, -⟩ | ⟨rest, -, rfl⟩ |
      ⟨rest, -, hm, -⟩
  · exact .inl rfl
  · exact absurd hm haccess
  · exact absurd hm haccess
  · exact absurd hr (State.not_targetMayRequest_of_controller ho)
  · exact .inr ⟨rest, rfl⟩
  · exact absurd hm haccess

/-- Contention is the target driving the bus the controller owns, and nothing else (R300). -/
theorem tgtTurn_eq_busContention_iff :
    tgtTurn s = .fault .busContention ↔ s.owner = .controller ∧ ∃ rest, s.env.script = .driveBus :: rest := by
  unfold tgtTurn
  cases hs : s.env.script with
  | nil => simp
  | cons act rest =>
    cases act with
    | store a v | load a | rdyLow =>
      dsimp only
      split <;> simp
    | rdyRelease => simp
    | driveBus =>
      by_cases ho : s.owner = .controller
      · simp [ho]
      · simp only [ho, if_false, false_and, iff_false]
        split <;> simp

/-! ### One step of the machine -/

theorem step_storesFirst_of_ctrl (ht : step s = .next t) (hc : s.nextAgent = .ctrl) : StoresFirst s.pos.left s t := by
  cases hd : s.clock.interruptDue with
  | true =>
    rw [step_of_due hd] at ht
    cases ht
    exact .inl rfl
  | false =>
    rw [step_of_ctrl hd hc] at ht
    exact ctrlStep_storesFirst (s := s.popTurn) ht

theorem step_of_tgt (hd : s.clock.interruptDue = false) (ha : s.nextAgent = .tgt) : step s = tgtTurn s.popTurn := by
  rw [step_of_not_due hd, ha]
  rfl

theorem step_mem_of_tgt (ht : step s = .next t) (ha : s.nextAgent = .tgt) (hne : t.mem ≠ s.mem) :
    s.targetMayAccess = true := by
  cases hd : s.clock.interruptDue with
  | true =>
    rw [step_of_due hd] at ht
    cases ht
    exact absurd rfl hne
  | false =>
    rw [step_of_tgt hd ha] at ht
    exact tgtTurn_mem (s := s.popTurn) ht hne

/-- Only CTRL and the target change memory. -/
theorem step_mem_of_other (ht : step s = .next t) (hc : s.nextAgent ≠ .ctrl) (hg : s.nextAgent ≠ .tgt) :
    t.mem = s.mem := by
  rcases step_cases ht with ⟨-, rfl⟩ | ⟨-, ⟨ha, -⟩ | ⟨-, rfl⟩ | ⟨ha, -⟩ | ⟨-, rfl⟩ | ⟨-, rfl⟩ | ⟨-, rfl⟩⟩
  · rfl
  · exact absurd ha hc
  · rfl
  · exact absurd ha hg
  · unfold hostRxTurn
    split
    · rfl
    · split <;> rfl
  · rfl
  · unfold shellTurn
    split <;> rfl

end Sys2Proof.Machine

open Sys2Proof Sys2Proof.Machine

/-- Settles O40: by whose turn it is; CTRL stores by a bus write, whose guard is the ownership, and the target where it
may access the bus. -/
theorem memoryChangesOnlyThroughTheOwner : Obligations.MemoryChangesOnlyThroughTheOwner := by
  intro s t ht hne
  cases ha : s.nextAgent with
  | ctrl =>
    obtain ⟨howns, -⟩ := (step_storesFirst_of_ctrl ht ha).resolve_left hne
    exact .inl ⟨rfl, State.owner_controller_iff.mpr (s.owns_iff.mp howns)⟩
  | tgt => exact .inr ⟨rfl, State.targetMayAccess_iff.mp (step_mem_of_tgt ht ha hne)⟩
  | _ => exact absurd (step_mem_of_other ht (by simp [ha]) (by simp [ha])) hne

/-- Settles O41: a bus write CTRL has left is one of its command's, to an argument byte, and no agent but CTRL and the
target stores. -/
theorem controllerWritesOnlyArgumentBytes : Obligations.ControllerWritesOnlyArgumentBytes := by
  intro s t h hg ht a ha
  by_cases hc : s.nextAgent = .ctrl
  · exact h.memRead_of_storesFirst (step_storesFirst_of_ctrl ht hc) ha
  · rw [State.memRead, step_mem_of_other ht hc hg, State.memRead]

/-- Settles O42: what the suspended target's turn can be, and when it is a fault. -/
theorem targetIsSuspendedWhileTheControllerOwns : Obligations.TargetIsSuspendedWhileTheControllerOwns := by
  intro s hd ha ho
  have howner : s.popTurn.owner = .controller := ho
  rw [step_of_tgt hd ha]
  constructor
  · intro t ht
    rcases tgtTurn_suspended howner ht with rfl | ⟨rest, rfl⟩
    · exact ⟨rfl, rfl, rfl, rfl, .inl rfl⟩
    · exact ⟨rfl, rfl, rfl, rfl, .inr rfl⟩
  · rw [tgtTurn_eq_busContention_iff]
    exact (and_iff_right howner).symm

end

section
/-! PROOFS. The encoding of spec/30_encoding.md: decoder and encoder agree (R90, R91, R100), every byte lies in one row
of the table (R100), and the pass of an unknown code (R92). -/

namespace Sys2Proof

/-! ### The encoder -/

/-- Below a row's fixed bits there are only its free bits. -/
theorem Instr.two_pow_freeBits_dvd_rowMatch (i : Instr) : 2 ^ i.freeBits ∣ i.rowMatch.toNat := by
  cases i <;> simp [Instr.freeBits, Instr.rowMatch]

theorem Instr.freeBits_le (i : Instr) : i.freeBits ≤ 8 := by
  cases i <;> simp [Instr.freeBits]

/-- A command's code is its row's fixed bits plus the number its free bits spell (R91). -/
theorem encodeByte_toNat {i : Instr} (h : i.WellFormed) : (encodeByte i).toNat = i.rowMatch.toNat + i.freeValue := by
  have hfree : i.freeValue < 2 ^ 8 := h.trans_le (Nat.pow_le_pow_right Nat.two_pos i.freeBits_le)
  obtain ⟨k, hk⟩ := i.two_pow_freeBits_dvd_rowMatch
  rw [encodeByte, BitVec.toNat_or, BitVec.toNat_ofNat, Nat.mod_eq_of_lt hfree, hk, Nat.two_pow_add_eq_or_of_lt h]

/-- The free bits are the low bits of the encoded byte. -/
theorem lowBits_encodeByte {i : Instr} (h : i.WellFormed) : lowBits i.freeBits (encodeByte i) = i.freeValue := by
  obtain ⟨k, hk⟩ := i.two_pow_freeBits_dvd_rowMatch
  rw [lowBits, encodeByte_toNat h, hk, Nat.mul_add_mod, Nat.mod_eq_of_lt h]

/-- Where a row fixes a single bit to 1, just above its free bits, that bit is the highest set bit of its codes. -/
theorem getLsbD_encodeByte {i : Instr} (h : i.WellFormed) (hm : i.rowMatch.toNat = 2 ^ i.freeBits) {k : Nat}
    (hk : i.freeBits ≤ k) : (encodeByte i).getLsbD k = decide (k = i.freeBits) := by
  rw [BitVec.getLsbD, encodeByte_toNat h, hm]
  obtain rfl | hlt := hk.eq_or_lt
  · simp [Nat.testBit_two_pow_add_eq, Nat.testBit_lt_two_pow h]
  · have hsum : 2 ^ i.freeBits + i.freeValue < 2 ^ k :=
      calc 2 ^ i.freeBits + i.freeValue
        _ < 2 ^ i.freeBits + 2 ^ i.freeBits := Nat.add_lt_add_left h _
        _ = 2 ^ (i.freeBits + 1) := (Nat.two_pow_succ _).symm
        _ ≤ 2 ^ k := Nat.pow_le_pow_right Nat.two_pos hlt
    simp [Nat.testBit_lt_two_pow hsum, hlt.ne']

/-! ### Decoder and encoder are inverse -/

/-- The decoder gives back the command that was encoded: for the codes from 0x08 on by the highest set bit, below it by
the value. -/
theorem decodeByte_encodeByte {i : Instr} (h : i.WellFormed) : decodeByte (encodeByte i) = i := by
  cases i with
  | exit | getch | putch | gettime | prtime | unknown05 => rfl
  | unknown06 c =>
    obtain rfl | rfl := Nat.le_one_iff_eq_zero_or_eq_one.mp (Nat.lt_succ_iff.mp h) <;> rfl
  | unknown08 c | unknown10 c | unknown20 c | unknown40 c | unknown80 c =>
    have hlow := lowBits_encodeByte h
    have hbit := fun k => getLsbD_encodeByte (k := k) h rfl
    simp only [Instr.freeBits, Instr.freeValue] at hlow hbit
    simp [decodeByte, hbit, hlow, -BitVec.getLsbD_eq_getElem]

theorem lowBits_eight (b : Byte) : lowBits 8 b = b.toNat := Nat.mod_eq_of_lt b.isLt

theorem lowBits_succ_of_set {n : Nat} {b : Byte} (h : b.getLsbD n = true) :
    lowBits (n + 1) b = 2 ^ n + lowBits n b := by
  rw [BitVec.getLsbD] at h
  rw [lowBits, lowBits, Nat.mod_pow_succ, ← Nat.toNat_testBit, h]
  simp [Nat.add_comm]

theorem lowBits_succ_of_clear {n : Nat} {b : Byte} (h : ¬b.getLsbD n = true) :
    lowBits (n + 1) b = lowBits n b := by
  rw [BitVec.getLsbD, Bool.not_eq_true] at h
  rw [lowBits, lowBits, Nat.mod_pow_succ, ← Nat.toNat_testBit, h]
  simp

/-- The encoder gives back the byte that was decoded, whether bit 7 to bit 3 is its highest set bit or it is one of the
eight codes below. -/
theorem encodeByte_decodeByte (b : Byte) : encodeByte (decodeByte b) = b := by
  apply BitVec.eq_of_toNat_eq
  rw [encodeByte_toNat (decodeByte_wellFormed b), ← lowBits_eight b]
  unfold decodeByte
  split_ifs with h7 h6 h5 h4 h3 hexit hgetch hputch hgettime hprtime hunknown05
  · rw [lowBits_succ_of_set h7]; rfl
  · rw [lowBits_succ_of_clear h7, lowBits_succ_of_set h6]; rfl
  · rw [lowBits_succ_of_clear h7, lowBits_succ_of_clear h6, lowBits_succ_of_set h5]; rfl
  · rw [lowBits_succ_of_clear h7, lowBits_succ_of_clear h6, lowBits_succ_of_clear h5, lowBits_succ_of_set h4]; rfl
  · rw [lowBits_succ_of_clear h7, lowBits_succ_of_clear h6, lowBits_succ_of_clear h5, lowBits_succ_of_clear h4,
      lowBits_succ_of_set h3]
    rfl
  · subst b; rfl
  · subst b; rfl
  · subst b; rfl
  · subst b; rfl
  · subst b; rfl
  · subst b; rfl
  · have hlt : b.toNat < 8 := by
      rw [← lowBits_eight b, lowBits_succ_of_clear h7, lowBits_succ_of_clear h6, lowBits_succ_of_clear h5,
        lowBits_succ_of_clear h4, lowBits_succ_of_clear h3]
      exact lowBits_lt 3 b
    obtain rfl | rfl : b = 0x06 ∨ b = 0x07 := by bv_omega
    · rfl
    · rfl

/-- Decoding takes exactly the bytes of the encoding (R90). -/
theorem decode_encode {i : Instr} (h : i.WellFormed) (rest : List Byte) :
    decode (encode i ++ rest) = .ok (i, rest) := by
  rw [encode, List.singleton_append, decode_cons, decodeByte_encodeByte h]

/-! ### The rows of the table -/

/-- The encoded byte lies in the command's own row, which is one of the table. -/
theorem encodeByte_fitsRow {i : Instr} (h : i.WellFormed) :
    fitsRow (encodeByte i) (i.rowMatch, i.rowMask) = true ∧ (i.rowMatch, i.rowMask) ∈ opcodeRows := by
  cases i with
  | exit => exact Laws.EncodeRow.exit h
  | getch => exact Laws.EncodeRow.getch h
  | putch => exact Laws.EncodeRow.putch h
  | gettime => exact Laws.EncodeRow.gettime h
  | prtime => exact Laws.EncodeRow.prtime h
  | unknown05 => exact Laws.EncodeRow.unknown05 h
  | unknown06 c => exact Laws.EncodeRow.unknown06 c h
  | unknown08 c => exact Laws.EncodeRow.unknown08 c h
  | unknown10 c => exact Laws.EncodeRow.unknown10 c h
  | unknown20 c => exact Laws.EncodeRow.unknown20 c h
  | unknown40 c => exact Laws.EncodeRow.unknown40 c h
  | unknown80 c => exact Laws.EncodeRow.unknown80 c h

/-- Any two rows of the table differ at a bit that both of them fix (R100). -/
theorem opcodeRows_differ : opcodeRows.Pairwise fun r r' => r.1 &&& r'.2 ≠ r'.1 &&& r.2 := by decide

/-- Two rows that one byte fits agree at the bits that both of them fix. -/
theorem fitsRow_agree {b : Byte} {r r' : Byte × Byte} (h : fitsRow b r = true) (h' : fitsRow b r' = true) :
    r.1 &&& r'.2 = r'.1 &&& r.2 := by
  simp only [fitsRow, beq_iff_eq] at h h'
  rw [← h, ← h', BitVec.and_assoc, BitVec.and_assoc, BitVec.and_comm r.2]

/-- A byte fits no two rows of the table (R100). -/
theorem filter_fitsRow_length_le_one (b : Byte) : (opcodeRows.filter (fitsRow b)).length ≤ 1 := by
  have hnone : (opcodeRows.filter (fitsRow b)).Pairwise fun _ _ => False :=
    (opcodeRows_differ.filter _).imp_of_mem fun hr hr' hne =>
      hne (fitsRow_agree (List.mem_filter.mp hr).2 (List.mem_filter.mp hr').2)
  match hrows : opcodeRows.filter (fitsRow b) with
  | [] | [_] => simp
  | r :: r' :: rows =>
    rw [hrows] at hnone
    exact (List.rel_of_pairwise_cons hnone List.mem_cons_self).elim

end Sys2Proof

namespace Sys2Proof.Machine

variable {s : State}

/-! ### A pass from the fetch to its end -/

/-- `s` after the fetch with the bus owned: the byte read from the command register is in `cmd` (R147). -/
def State.atDispatch (s : State) : State :=
  { s with
    lines := s.lines.afterRead Param.command
    pins := s.pins ++ readPins Param.command
    cmd := s.memRead Param.command
    pos := .dispatch }

theorem ctrlStep_of_fetch_owned (hp : s.pos = .fetch) (ho : s.owns = true) : ctrlStep s = .next s.atDispatch := by
  rw [ctrlStep_of_fetch hp, fetchStep_owned ho, State.atDispatch]

/-- Dispatch of an unknown code: its `?` is the one micro-step there is (R176). -/
theorem ctrlStep_of_dispatch_unknown (hp : s.pos = .dispatch) (hu : 5 ≤ s.cmd.toNat) :
    ctrlStep s = .next (stepBody [.tx Param.unknownMark] s) := by
  rw [ctrlStep_of_dispatch hp, exec_of_unknown s hu, doUnknown_eq]

theorem State.moveTo_moveTo (es es' : List PinEvent) (f f' : Fsm) (p p' : Position) :
    (s.moveTo es f p).moveTo es' f' p' = s.moveTo (es ++ es') f' p' := by
  simp [State.moveTo]

/-- What every pass ends with: the window closes, the wake pulse is given, and `fsm` is Idle (R149, R150, R151; D4). -/
theorem run_release {n : Nat} (hq : s.Quiet) (hp : s.pos = .release) :
    core.run (n + 4) s =
      core.run n (s.moveTo [.busen .deasserted, .rdyC .released, .wake .low, .wake .high] .idle .loopHead) :=
  calc core.run (n + 4) s
    _ = core.run (n + 3) (s.moveTo [.busen .deasserted, .rdyC .released] s.fsm .wakeLow) :=
        run_of_quiet hq (by rw [ctrlStep_of_release hp, releaseStep_eq])
    _ = core.run (n + 2) (s.moveTo [.busen .deasserted, .rdyC .released, .wake .low] s.fsm .wakeHigh) :=
        run_of_quiet hq (by rw [ctrlStep_of_wakeLow rfl, wakeLowStep_eq, State.moveTo_moveTo]; rfl)
    _ = core.run (n + 1) (s.moveTo [.busen .deasserted, .rdyC .released, .wake .low, .wake .high] s.fsm .passEnd) :=
        run_of_quiet hq (by rw [ctrlStep_of_wakeHigh rfl, wakeHighStep_eq, State.moveTo_moveTo]; rfl)
    _ = core.run n (s.moveTo [.busen .deasserted, .rdyC .released, .wake .low, .wake .high] .idle .loopHead) :=
        run_of_quiet hq (by rw [ctrlStep_of_passEnd rfl, passEndStep_eq, State.moveTo_moveTo]; rfl)

end Sys2Proof.Machine

open Sys2Proof Sys2Proof.Machine

/-- Settles O3: the one byte decoded is the encoded one, which gives its command back. -/
theorem encodeThenDecodeGivesCommandBack : Obligations.EncodeThenDecodeGivesCommandBack :=
  fun _ h rest => decode_encode h rest

/-- Settles O13: the fetch, the `?` of Dispatch sent or left to send, and the end every pass has. -/
theorem unknownCodePassEndsLikeAnyOther : Obligations.UnknownCodePassEndsLikeAnyOther := by
  intro s hq hp hbus hu
  have ho : s.owns = true := s.owns_iff.mpr hbus
  have hquiet : s.atDispatch.Quiet := hq
  have hfetch := ctrlStep_of_fetch_owned hp ho
  have hdispatch := ctrlStep_of_dispatch_unknown (s := s.atDispatch) rfl hu
  constructor
  · intro hr
    rw [stepBody_tx_ready s.atDispatch _ _ hr] at hdispatch
    have hend := run_release (n := 0) (s := (s.atDispatch.send Param.unknownMark).bodyLeft []) hq rfl
    refine (run_of_quiet hq hfetch).trans ((run_of_quiet hquiet hdispatch).trans (hend.trans (congrArg _ ?_)))
    simp only [State.moveTo, State.bodyLeft, State.send, State.atDispatch, List.append_assoc]
    rfl
  · intro hr
    rw [stepBody_tx_busy s.atDispatch _ _ hr] at hdispatch
    exact (run_of_quiet hq hfetch).trans (run_of_quiet hquiet hdispatch)

/-- Settles O1, by evaluating the decoder at each word. -/
theorem tableWordsDecodeToTheirCommands : Obligations.TableWordsDecodeToTheirCommands :=
  ⟨rfl, rfl, rfl, rfl, rfl, rfl, rfl, rfl, rfl, rfl, rfl, rfl, rfl⟩

/-- Settles O2: a byte is the encoding of the command it decodes to, so it lies in that command's row, and no byte lies
in two rows. -/
theorem everyByteIsExactlyOneCommand : Obligations.EveryByteIsExactlyOneCommand := by
  intro b
  have hwf := decodeByte_wellFormed b
  obtain ⟨hfits, hrow⟩ := encodeByte_fitsRow hwf
  rw [encodeByte_decodeByte] at hfits
  have hmem := List.mem_filter.mpr ⟨hrow, hfits⟩
  refine ⟨le_antisymm (filter_fitsRow_length_le_one b) (List.length_pos_of_mem hmem), hwf, hrow, hfits, ?_⟩
  rw [encode, encodeByte_decodeByte]

end

section
/-! PROOFS. The guarded bus of spec/40_bus_transport.md: the pin sequences (R120 to R127), the round trip (R131), and the
guard as the commands meet it (R132, R251). -/

namespace Sys2Proof.Machine

variable {s t : State}

/-! ### Accesses with the bus owned -/

theorem State.owns_of_asserted (h : s.lines.busen = .asserted) : s.owns = true := s.owns_iff.mpr h

/-- An owned read gives the addressed byte (R124, R127). -/
theorem busRead_result_owned (a : Byte) (h : s.owns = true) : (busRead a s).result = s.memRead a := by
  rw [busRead_owned s a h]

/-- A bus write, done or refused, leaves the ownership as it was. -/
theorem busWrite_owns (a v : Byte) (s : State) : (busWrite a v s).state.owns = s.owns := by
  rw [State.owns, (busWrite_frame s a v).busen, State.owns]

/-- An owned write stores its byte (R122, R123). -/
theorem busWrite_mem_same (a v : Byte) (h : s.owns = true) : (busWrite a v s).state.memRead a = v := by
  rw [busWrite_owned s a v h]
  exact Memory.read_write_same s.mem a.toNat v

/-! ### The guard -/

theorem State.not_owns_of_deasserted (h : s.lines.busen = .deasserted) : s.owns = false := by simp [State.owns, h]

/-- From `s` to `t` no latch and no byte of memory has changed, and no level change has been made at the pins. -/
structure BusUntouched (s t : State) : Prop where
  lines : t.lines = s.lines
  pins : t.pins = s.pins
  mem : t.mem = s.mem

theorem BusUntouched.bodyLeft (h : BusUntouched s t) (ops : List MicroOp) : BusUntouched s (t.bodyLeft ops) :=
  ⟨h.lines, h.pins, h.mem⟩

theorem serialTx_busUntouched (b : Byte) (s : State) : BusUntouched s (serialTx b s).1 := by
  cases hr : s.serial.txReady with
  | true => rw [serialTx_ready s b hr]; exact ⟨rfl, rfl, rfl⟩
  | false => rw [serialTx_busy s b hr]; exact ⟨rfl, rfl, rfl⟩

/-- A refused read touches the serial port only (R125, R132). -/
theorem busRead_busUntouched (a : Byte) (h : s.owns = false) : BusUntouched s (busRead a s).state := by
  rw [busRead_refused s a h]
  exact serialTx_busUntouched Param.guardMark s

/-- A refused write touches the serial port only (R121, R132). -/
theorem busWrite_busUntouched (a v : Byte) (h : s.owns = false) : BusUntouched s (busWrite a v s).state := by
  rw [busWrite_refused s a v h]
  exact serialTx_busUntouched Param.guardMark s

/-- Of the micro-steps only a bus write reaches the bus, and without ownership it is refused. -/
theorem runOp_busUntouched (op : MicroOp) (h : s.owns = false) : BusUntouched s (runOp op s).1 := by
  cases op with
  | tx b => exact serialTx_busUntouched b s
  | busWrite a v => exact busWrite_busUntouched a v h
  | recvArg =>
    cases hr : s.serial.rxAvail with
    | true => rw [runOp, serialRxRaw_some s hr]; exact ⟨rfl, rfl, rfl⟩
    | false => rw [runOp, serialRxRaw_none s hr]; exact ⟨rfl, rfl, rfl⟩
  | _ => exact ⟨rfl, rfl, rfl⟩

theorem stepBody_busUntouched (ops : List MicroOp) (h : s.owns = false) : BusUntouched s (stepBody ops s) := by
  cases ops with
  | nil => exact ⟨rfl, rfl, rfl⟩
  | cons op ops =>
    rw [stepBody_cons]
    exact (runOp_busUntouched op h).bodyLeft _

/-- Of the commands only PUTCH begins with a bus access, and without ownership it is refused. -/
theorem exec_busUntouched {i : Instr} (h : s.owns = false) (ht : exec i s = .next t) : BusUntouched s t := by
  rcases exec_cases ht with ⟨-, rfl⟩ | ⟨-, -, rfl⟩ | ⟨-, -, -, rfl⟩ | ⟨-, -, -, rfl⟩ | ⟨-, rfl⟩ | ⟨-, rfl⟩ | ⟨-, rfl⟩ |
      ⟨-, -, -, -, -, rfl⟩
  · exact stepBody_busUntouched _ h
  · exact ⟨rfl, rfl, rfl⟩
  · exact ⟨rfl, rfl, rfl⟩
  · exact ⟨rfl, rfl, rfl⟩
  · exact (busRead_busUntouched (argAddr 0) h).bodyLeft _
  · exact ⟨rfl, rfl, rfl⟩
  · exact ⟨rfl, rfl, rfl⟩
  · exact stepBody_busUntouched _ h

end Sys2Proof.Machine

open Sys2Proof Sys2Proof.Machine

/-- Settles O18: by the command's first micro-step, and by the micro-step next to make of what is left of one. -/
theorem commandsWithoutOwnershipNeverReachTheBus : Obligations.CommandsWithoutOwnershipNeverReachTheBus := by
  intro i ops s t hbus ht
  have ho := State.not_owns_of_deasserted hbus
  suffices h : BusUntouched s t from ⟨h.lines, h.pins, h.mem⟩
  rcases ht with hexec | ⟨hp, hstep⟩
  · exact exec_busUntouched ho hexec
  · rw [ctrlStep_of_command hp] at hstep
    cases hstep
    exact stepBody_busUntouched ops ho

/-- Settles O21: the write keeps the ownership, so both reads give the bytes memory then holds. -/
theorem writeThenReadRoundTrips : Obligations.WriteThenReadRoundTrips := by
  intro s a v hbus
  have ho := State.owns_of_asserted hbus
  have ho' : (busWrite a v s).state.owns = true := (busWrite_owns a v s).trans ho
  constructor
  · rw [busRead_result_owned a ho', busWrite_mem_same a v ho]
  · intro b hb
    rw [busRead_result_owned b ho', busRead_result_owned b ho, busWrite_mem_other s a v hb]

/-- Settles O22: both refusals are one `SerialTx` of the marker, sent at once or left to send. -/
theorem refusedAccessOnlySendsTheMarker : Obligations.RefusedAccessOnlySendsTheMarker := by
  intro s a v hbus
  have ho := State.not_owns_of_deasserted hbus
  rw [busWrite_refused s a v ho, busRead_refused s a ho]
  refine ⟨rfl, rfl, fun hr => ?_, fun hr => ?_⟩
  · rw [serialTx_ready s _ hr]
    exact ⟨rfl, rfl, rfl, rfl⟩
  · rw [serialTx_busy s _ hr]
    exact ⟨rfl, rfl, rfl, rfl⟩

/-- Settles O23: the guard passes, and the write goes through its six level changes. -/
theorem writesFollowThePinSequence : Obligations.WritesFollowThePinSequence := by
  intro s a v hbus
  rw [busWrite_owned s a v (State.owns_of_asserted hbus)]
  exact ⟨rfl, rfl, rfl⟩

/-- Settles O24: the guard passes, and the read goes through its four level changes. -/
theorem readsFollowThePinSequence : Obligations.ReadsFollowThePinSequence := by
  intro s a hbus
  rw [busRead_owned s a (State.owns_of_asserted hbus)]
  exact ⟨rfl, rfl, rfl⟩

end

section
/-! PROOFS. The handshake of spec/41_handshake_fsm.md: one wake pulse for each window of the pin history (R149, R150,
R262), the Idle step and the transitions T1 to T4 (R141 to R151), the command fetch (R147), whole passes (R145, R152,
R157), the one end of the loop (R152), the FIFO's place in it (R154), and the target's side of the handshake (R156). -/

namespace Sys2Proof.Machine

variable {s t : State}

/-! ### Windows and wake pulses in a trace (R149, R150, R262) -/

/-- A trace that has led to a view has opened, closed and answered with a wake pulse as many windows, but for the window
still open, the pulse still owed and the pulse under way. -/
structure BusView.Balanced (es : List PinEvent) (v : BusView) : Prop where
  pulse : v.wake = .low → v.wakeDue = true ∧ v.busen = .deasserted
  opened : es.count (.busen .asserted) =
    es.count (.wake .high) + (if v.busen = .asserted ∨ v.wakeDue = true then 1 else 0)
  begun : es.count (.wake .low) = es.count (.wake .high) + (if v.wake = .low then 1 else 0)
  closed : es.count (.busen .asserted) = es.count (.busen .deasserted) + (if v.busen = .asserted then 1 else 0)

theorem BusView.idle_balanced : BusView.Balanced [] BusView.idle := by
  constructor <;> simp [BusView.idle]

/-- A legal level change keeps the balance: only those of `BUSEN` and `WAKE` count, and of these each comes only after
the one before it in the order of Acquire, Release and WakePulse. -/
theorem BusView.Balanced.after {es : List PinEvent} {v w : BusView} (h : BusView.Balanced es v) {e : PinEvent}
    (hw : v.after e = some w) : BusView.Balanced (es ++ [e]) w := by
  obtain ⟨hpulse, hopened, hbegun, hclosed⟩ := h
  cases e with
  | addrOut a | addrIn | dataOut d | dataIn =>
    obtain ⟨-, heq⟩ := Option.ite_none_right_eq_some.mp hw
    cases heq
    constructor <;> simpa [List.count_append]
  | rdyC l | wr l | rd l =>
    cases l
    all_goals
      obtain ⟨-, heq⟩ := Option.ite_none_right_eq_some.mp hw
      cases heq
      constructor <;> simpa [List.count_append]
  | busen l | wake l =>
    cases l
    all_goals
      obtain ⟨hc, heq⟩ := Option.ite_none_right_eq_some.mp hw
      cases heq
      simp only [Bool.and_eq_true, beq_iff_eq, Bool.not_eq_true'] at hc
      constructor <;> simp_all [List.count_append]

theorem BusView.Balanced.replay {fs es : List PinEvent} {v w : BusView} (h : BusView.Balanced es v)
    (hw : replay v fs = some w) : BusView.Balanced (es ++ fs) w := by
  induction fs generalizing es v with
  | nil => cases hw; simpa using h
  | cons e fs ih =>
    obtain ⟨u, hu, hw⟩ := replay_cons_eq_some.mp hw
    simpa using ih (h.after hu) hw

theorem Position.owesPulse_iff (p : Position) :
    p.owesPulse = true ↔ p.busView.busen = .asserted ∨ p.busView.wakeDue = true := by
  simp [Position.owesPulse]

theorem Position.busView_wake_low_iff (p : Position) : p.busView.wake = .low ↔ p = .wakeHigh := by
  cases p <;> simp [Position.busView, BusView.window, BusView.idle]

/-! ### The head of the loop and the Idle step (R140, R141) -/

theorem State.rdyLine_low_iff : s.rdyLine = .low ↔ s.rdyT = .low ∨ s.lines.rdyC = .low := by
  simp [State.rdyLine, or_iff_not_imp_left]

theorem State.rdyLine_high_iff : s.rdyLine = .high ↔ s.rdyT = .released ∧ s.lines.rdyC = .released := by
  cases ht : s.rdyT <;> cases hc : s.lines.rdyC <;> simp [State.rdyLine, ht, hc]

theorem loopHeadStep_idle (hr : s.run = true) (hf : s.fsm = .idle) : loopHeadStep s = idlePoll s := by
  simp [loopHeadStep, hr, hf]

theorem loopHeadStep_confirmRequest (hr : s.run = true) (hf : s.fsm = .confirmRequest) :
    loopHeadStep s = confirmStep s := by
  simp [loopHeadStep, hr, hf]

theorem loopHeadStep_servicing (hr : s.run = true) (hf : s.fsm = .servicing) : loopHeadStep s = acquireStep s := by
  simp [loopHeadStep, hr, hf]

/-- A move without a level change is one of `fsm` and `pos` alone. -/
theorem State.moveTo_nil (f : Fsm) (p : Position) (s : State) : s.moveTo [] f p = { s with fsm := f, pos := p } := by
  simp [State.moveTo]

/-- SerialPoll changes the serial port and the FIFO alone (R200 to R203). -/
theorem serialPoll_frame (s : State) :
    ∃ serial fifo, (serialPoll s).1 = { s with serial := serial, fifo := fifo } := by
  simp only [serialPoll, pollBegin]
  split
  · split <;> exact ⟨_, _, rfl⟩
  · exact ⟨_, _, rfl⟩

/-- SerialPoll does not look at where CTRL stands. -/
theorem serialPoll_setCtrl (f : Fsm) (p : Position) (s : State) :
    (serialPoll { s with fsm := f, pos := p }).1 = { (serialPoll s).1 with fsm := f, pos := p } := by
  simp only [serialPoll, pollBegin]
  split
  · split <;> rfl
  · rfl

/-- `s` after its Idle step's SerialPoll (R141). -/
def State.polled (s : State) : State := { (serialPoll s).1 with pos := .idleSample }

/-- `s` after its Idle step (R141, R142). -/
def State.idled (s : State) : State :=
  { (serialPoll s).1 with fsm := if s.rdyLine = .low then .confirmRequest else .idle, pos := .loopHead }

/-- A poll with nothing to store is one step (R141, R200, R202). -/
theorem step_idlePoll_short (hq : s.Quiet) (hr : s.run = true) (hf : s.fsm = .idle) (hp : s.pos = .loopHead)
    (h : s.serial.rxAvail = false ∨ s.fifo.count = Config.fifoCap) : step s = .next s.polled := by
  rw [step_of_quiet hq, ctrlStep_of_loopHead hp, loopHeadStep_idle hr hf, idlePoll_short h, State.polled]

/-- A poll that stores a byte begins by taking it out of the receiver (R141, R200). -/
theorem step_idlePoll_long (hq : s.Quiet) (hr : s.run = true) (hf : s.fsm = .idle) (hp : s.pos = .loopHead)
    (h : s.serial.rxAvail = true) (hc : s.fifo.count < Config.fifoCap) :
    step s = .next { s.takeRx with pos := .polling [.bufStore s.serial.rxData, .wrAdvance, .countUp] } := by
  rw [step_of_quiet hq, ctrlStep_of_loopHead hp, loopHeadStep_idle hr hf, idlePoll_long h hc]

/-- A poll that stores a byte is four steps (R200). -/
theorem run_idlePoll_long {n : Nat} (hq : s.Quiet) (hr : s.run = true) (hf : s.fsm = .idle) (hp : s.pos = .loopHead)
    (h : s.serial.rxAvail = true) (hc : s.fifo.count < Config.fifoCap) :
    core.run (n + 4) s = core.run n s.polled :=
  calc core.run (n + 4) s
    _ = core.run (n + 3) { s.takeRx with pos := .polling [.bufStore s.serial.rxData, .wrAdvance, .countUp] } :=
        run_succ (step_idlePoll_long hq hr hf hp h hc)
    _ = core.run (n + 2)
          { s.takeRx with fifo := s.fifo.store s.serial.rxData, pos := .polling [.wrAdvance, .countUp] } :=
        run_of_quiet hq (ctrlStep_of_polling (ops := [.bufStore _, .wrAdvance, .countUp]) rfl)
    _ = core.run (n + 1)
          { s.takeRx with fifo := (s.fifo.store s.serial.rxData).advanceWr, pos := .polling [.countUp] } :=
        run_of_quiet hq (ctrlStep_of_polling (ops := [.wrAdvance, .countUp]) rfl)
    _ = core.run n { s.takeRx with fifo := s.fifo.push s.serial.rxData, pos := .idleSample } :=
        run_of_quiet hq (ctrlStep_of_polling (ops := [.countUp]) rfl)
    _ = core.run n s.polled := by rw [State.polled, serialPoll_kept s h hc]

/-- The RDY sample: T1 if the line is low (R141, R142). -/
theorem step_idleSample (hq : s.Quiet) (hp : s.pos = .idleSample) :
    step s = .next { s with fsm := if s.rdyLine = .low then .confirmRequest else s.fsm, pos := .loopHead } := by
  rw [step_of_quiet hq, ctrlStep_of_idleSample hp, idleSampleStep_eq, State.moveTo_nil]

/-- The RDY sample ends the Idle step. -/
theorem step_polled (hq : s.Quiet) (hf : s.fsm = .idle) : step s.polled = .next s.idled := by
  obtain ⟨serial, fifo, hpoll⟩ := serialPoll_frame s
  rw [State.polled, State.idled, hpoll, ← hf]
  exact step_idleSample hq rfl

/-! ### From the confirm sample to the fetch (R143 to R147) -/

/-- `s` after Acquire, in a pass of its own (R145, R146). -/
def State.windowOpened (s : State) : State := s.moveTo [.rdyC .low, .busen .asserted] .servicing .fetch

/-- A request confirmed low takes the bus: T3 and Acquire (R145, R146; D3). -/
theorem run_confirm_acquire {n : Nat} (hq : s.Quiet) (hr : s.run = true) (hp : s.pos = .loopHead)
    (hf : s.fsm = .confirmRequest) (hrdy : s.rdyLine = .low) :
    core.run (n + 2) s = core.run n s.windowOpened :=
  calc core.run (n + 2) s
    _ = core.run (n + 1) (s.moveTo [] .servicing .loopHead) :=
        run_of_quiet hq (by
          rw [ctrlStep_of_loopHead hp, loopHeadStep_confirmRequest hr hf, confirmStep_eq, if_pos hrdy])
    _ = core.run n s.windowOpened :=
        run_of_quiet hq (by
          rw [ctrlStep_of_loopHead rfl, loopHeadStep_servicing (s := s.moveTo ..) hr rfl, acquireStep_eq,
            State.moveTo_moveTo]
          rfl)

/-- From the end of a poll, the line low at the RDY sample and at the confirm sample, to the fetch (R141 to R146). -/
theorem run_polled_low {n : Nat} (hq : s.Quiet) (hr : s.run = true) (hf : s.fsm = .idle) (hrdy : s.rdyLine = .low) :
    core.run (n + 3) s.polled = core.run n s.idled.windowOpened := by
  refine (run_succ (step_polled hq hf)).trans ?_
  obtain ⟨serial, fifo, hpoll⟩ := serialPoll_frame s
  rw [State.idled, hpoll]
  exact run_confirm_acquire hq hr rfl (if_pos hrdy) hrdy

/-- What `placeCommand` makes ready to be fetched: the bus acquired, and the byte at the command register. -/
def State.beforeFetch (s : State) (b : Byte) : State :=
  { (acquire s).memWrite Param.command b with
    fsm := .servicing
    clock := { s.clock with ovfPending := false }
    env := { s.env with turns := [] } }

theorem State.placeCommand_eq (b : Byte) : s.placeCommand b = (s.beforeFetch b).atDispatch :=
  fetchStep_owned (s := s.beforeFetch b) rfl

theorem State.placeCommand_cmd (b : Byte) : (s.placeCommand b).cmd = b := by
  rw [State.placeCommand_eq]
  exact Memory.read_write_same s.mem Param.command.toNat b

theorem State.placeCommand_pos (b : Byte) : (s.placeCommand b).pos = .dispatch := by
  rw [State.placeCommand_eq]
  rfl

theorem State.placeCommand_quiet (b : Byte) : (s.placeCommand b).Quiet := by
  rw [State.placeCommand_eq]
  exact ⟨rfl, rfl⟩

theorem decodeTableWord_eight {w : Nat} (hw : w < 256) :
    decodeTableWord 8 w = some (decodeByte (BitVec.ofNat 8 w)) := by
  rw [decodeTableWord, Nat.mod_eq_of_lt (b := 2 ^ 8) hw, decode_cons]

theorem State.withFetchWord_eight {w : Nat} (hw : w < 256) :
    s.withFetchWord 8 w = s.placeCommand (BitVec.ofNat 8 w) := by
  rw [State.withFetchWord, Nat.mod_eq_of_lt (b := 2 ^ 8) hw]

/-! ### Dispatch of PUTCH and EXIT (R171, R173) -/

/-- `s` after the first micro-step of a PUTCH with the bus owned: the argument byte has been read and is to be sent. -/
def State.putchRead (s : State) : State :=
  { s with
    lines := s.lines.afterRead (argAddr 0)
    pins := s.pins ++ readPins (argAddr 0)
    pos := .command [.tx (s.memRead (argAddr 0))] }

theorem ctrlStep_of_dispatch_putch (hp : s.pos = .dispatch) (hc : s.cmd = 0x02) (ho : s.owns = true) :
    ctrlStep s = .next s.putchRead := by
  have hi : decodeByte s.cmd = .putch := by rw [hc]; rfl
  rw [ctrlStep_of_dispatch hp, hi, exec_putch_owned s ho]
  rfl

theorem ctrlStep_of_dispatch_exit (hp : s.pos = .dispatch) (hc : s.cmd = 0x00) (hr : s.serial.txReady = true) :
    ctrlStep s = .next ((s.send Param.exitByte).bodyLeft [.clearRun]) := by
  have hi : decodeByte s.cmd = .exit := by rw [hc]; rfl
  rw [ctrlStep_of_dispatch hp, hi, exec_exit, stepBody_tx_ready s _ _ hr]

/-- A confirmed PUTCH request, up to the byte to be sent (R143 to R147, R173). -/
theorem run_putch_fetch {n : Nat} (hq : s.Quiet) (hr : s.run = true) (hp : s.pos = .loopHead)
    (hf : s.fsm = .confirmRequest) (hrdy : s.rdyLine = .low) (hcmd : s.memRead Param.command = 0x02) :
    core.run (n + 4) s = core.run n s.windowOpened.atDispatch.putchRead :=
  calc core.run (n + 4) s
    _ = core.run (n + 2) s.windowOpened := run_confirm_acquire hq hr hp hf hrdy
    _ = core.run (n + 1) s.windowOpened.atDispatch := run_of_quiet hq (ctrlStep_of_fetch_owned rfl rfl)
    _ = core.run n s.windowOpened.atDispatch.putchRead := run_of_quiet hq (ctrlStep_of_dispatch_putch rfl hcmd rfl)

/-- After the loop has returned CTRL's turn changes nothing (R152). -/
theorem step_of_returned (hq : s.Quiet) (hp : s.pos = .returned) : step s = .next s := by
  rw [step_of_quiet hq, ctrlStep_of_returned hp]

/-- The last byte of a command goes out, the transmitter ready (R11). -/
theorem run_last_tx {n : Nat} {b : Byte} (hq : s.Quiet) (hp : s.pos = .command [.tx b])
    (hr : s.serial.txReady = true) : core.run (n + 1) s = core.run n { s.send b with pos := .release } :=
  run_of_quiet hq (by rw [ctrlStep_of_command hp, stepBody_tx_ready s b [] hr]; rfl)

/-- `s` after an EXIT: 0x19 sent and `run` cleared (R171). -/
def State.exited (s : State) : State := { s.send Param.exitByte with run := false, pos := .release }

/-- EXIT, from its Dispatch to the end of its body (R171; D5, D27). -/
theorem run_exit {n : Nat} (hq : s.Quiet) (hp : s.pos = .dispatch) (hc : s.cmd = 0x00)
    (hr : s.serial.txReady = true) : core.run (n + 2) s = core.run n s.exited :=
  (run_of_quiet hq (ctrlStep_of_dispatch_exit hp hc hr)).trans
    (run_of_quiet hq (ctrlStep_of_command (ops := [.clearRun]) rfl))

/-! ### The kinds of CTRL's step -/

/-- What CTRL's step is: a move outside the operations, the start of SerialPoll, the fetch, Dispatch, or the next
micro-step of the operation in progress. -/
theorem ctrlStep_kinds (ht : ctrlStep s = .next t) :
    (s.pos.left = [] ∧ ∃ es f p, p.left = [] ∧ t = s.moveTo es f p) ∨
    (s.pos = .loopHead ∧ s.run = true ∧ s.fsm = .idle ∧ t = idlePoll s) ∨
    (s.pos = .fetch ∧ t = fetchStep s) ∨
    (s.pos = .dispatch ∧ exec (decodeByte s.cmd) s = .next t) ∨
    ∃ p : Position, p.left = (runFirst s.pos.left s).2 ∧ t = { (runFirst s.pos.left s).1 with pos := p } := by
  rcases ctrlStep_cases ht with ⟨hp, rfl⟩ | ⟨ops, hp, rfl⟩ | ⟨hp, rfl⟩ | ⟨hp, rfl⟩ | ⟨hp, ht⟩ | ⟨ops, hp, rfl⟩ |
      ⟨hp, rfl⟩ | ⟨hp, rfl⟩ | ⟨hp, rfl⟩ | ⟨hp, rfl⟩ | ⟨hp, rfl⟩ <;>
    rw [hp]
  · cases hr : s.run with
    | false => exact .inl ⟨rfl, _, _, _, rfl, loopHeadStep_halted hr⟩
    | true =>
      cases hf : s.fsm with
      | idle => exact .inr (.inl ⟨rfl, rfl, rfl, loopHeadStep_idle hr hf⟩)
      | confirmRequest =>
        exact .inl ⟨rfl, _, _, _, rfl, (loopHeadStep_confirmRequest hr hf).trans (confirmStep_eq s)⟩
      | servicing => exact .inl ⟨rfl, _, _, _, rfl, (loopHeadStep_servicing hr hf).trans (acquireStep_eq s)⟩
  · exact .inr (.inr (.inr (.inr ⟨_, Position.left_inPoll _, rfl⟩)))
  · exact .inl ⟨rfl, _, _, _, rfl, idleSampleStep_eq s⟩
  · exact .inr (.inr (.inl ⟨rfl, rfl⟩))
  · exact .inr (.inr (.inr (.inl ⟨rfl, ht⟩)))
  · exact .inr (.inr (.inr (.inr ⟨_, Position.left_inBody _, rfl⟩)))
  · exact .inl ⟨rfl, _, _, _, rfl, releaseStep_eq s⟩
  · exact .inl ⟨rfl, _, _, _, rfl, wakeLowStep_eq s⟩
  · exact .inl ⟨rfl, _, _, _, rfl, wakeHighStep_eq s⟩
  · exact .inl ⟨rfl, _, _, _, rfl, passEndStep_eq s⟩
  · refine .inl ⟨rfl, [], t.fsm, t.pos, by rw [hp]; rfl, ?_⟩
    rw [State.moveTo_nil]

/-- Under the invariant a micro-step that is left is one of an Idle step's poll, or of the command in `cmd`. -/
theorem State.Inv.left_cases (h : s.Inv) {op : MicroOp} {rest : List MicroOp} (hl : s.pos.left = op :: rest) :
    (s.pos = .polling (op :: rest) ∧ s.fsm = .idle ∧ ∃ b, op :: rest <:+ [.bufStore b, .wrAdvance, .countUp]) ∨
      (s.pos = .command (op :: rest) ∧ HasLeft (decodeByte s.cmd) (op :: rest) s) := by
  have hleft := h.left
  have hcontrol := h.control
  unfold State.LeftFits at hleft
  cases hp : s.pos with
  | polling ops =>
    rw [hp] at hleft hcontrol hl
    obtain rfl : ops = op :: rest := hl
    exact .inl ⟨rfl, hcontrol.1, hleft.2⟩
  | command ops =>
    rw [hp] at hleft hl
    obtain rfl : ops = op :: rest := hl
    exact .inr ⟨rfl, hleft.2⟩
  | _ => rw [hp] at hl; cases hl

/-! ### What clears `run` (R33, R152) -/

theorem busRead_run (a : Byte) (s : State) : (busRead a s).state.run = s.run := by
  cases ho : s.owns with
  | true => rw [busRead_owned s a ho]
  | false => rw [busRead_refused s a ho]; exact serialTx_run s _

theorem runFirst_run (ops : List MicroOp) (s : State) :
    (runFirst ops s).1.run = s.run ∨ ∃ rest, ops = .clearRun :: rest := by
  cases ops with
  | nil => exact .inl rfl
  | cons op ops =>
    by_cases h : op = .clearRun
    · exact .inr ⟨ops, by rw [h]⟩
    · exact .inl (runOp_run s op h)

theorem exec_run {i : Instr} (ht : exec i s = .next t) : t.run = s.run := by
  rcases exec_cases ht with ⟨-, rfl⟩ | ⟨-, -, rfl⟩ | ⟨-, -, -, rfl⟩ | ⟨-, -, -, rfl⟩ | ⟨-, rfl⟩ | ⟨-, rfl⟩ | ⟨-, rfl⟩ |
      ⟨-, -, -, -, -, rfl⟩
  · exact serialTx_run s Param.exitByte
  · rfl
  · rfl
  · rfl
  · exact busRead_run (argAddr 0) s
  · rfl
  · rfl
  · exact serialTx_run s Param.unknownMark

theorem fetchStep_run (s : State) : (fetchStep s).run = s.run := by
  cases ho : s.owns with
  | true => rw [fetchStep_owned ho]
  | false =>
    rw [fetchStep_refused ho]
    split <;> rfl

theorem idlePoll_run (s : State) : (idlePoll s).run = s.run := by
  unfold idlePoll pollBegin
  split <;> rfl

/-- CTRL's step changes `run` only where clearing it is the micro-step next to make. -/
theorem ctrlStep_run (ht : ctrlStep s = .next t) : t.run = s.run ∨ ∃ rest, s.pos.left = .clearRun :: rest := by
  rcases ctrlStep_kinds ht with ⟨-, es, f, p, -, rfl⟩ | ⟨-, -, -, rfl⟩ | ⟨-, rfl⟩ | ⟨-, ht⟩ | ⟨p, -, rfl⟩
  · exact .inl rfl
  · exact .inl (idlePoll_run s)
  · exact .inl (fetchStep_run s)
  · exact .inl (exec_run ht)
  · exact runFirst_run s.pos.left s

theorem shellTurn_run (hr : s.run = true) : (shellTurn s).run = true := by
  unfold shellTurn
  split
  · rfl
  · exact hr

/-- Only CTRL clears `run`. -/
theorem step_run_of_other (ht : step s = .next t) (hd : s.clock.interruptDue = false) (hc : s.nextAgent ≠ .ctrl)
    (hr : s.run = true) : t.run = true := by
  rw [step_of_not_due hd] at ht
  by_cases hs : s.nextAgent = .shell
  · rw [hs] at ht
    cases ht
    exact shellTurn_run (s := s.popTurn) hr
  · exact (agentStep_ctrlFrame ht hc hs).run.trans hr

/-- The command that has `run` to clear is EXIT, with the acknowledgement sent and nothing else left (R171). -/
theorem HasLeft.of_clearRun {i : Instr} {rest : List MicroOp} (h : HasLeft i (.clearRun :: rest) s) :
    i = .exit ∧ rest = [] ∧ [Param.exitByte] <:+ s.serial.txLog := by
  cases i with
  | exit =>
    rcases h with h | ⟨h, htx⟩ | ⟨h, -⟩
    · simp at h
    · exact ⟨rfl, (List.cons.inj h).2, htx⟩
    · simp at h
  | getch =>
    rcases h with ⟨h, -⟩ | ⟨b, h, -⟩ | ⟨b, h⟩ | ⟨h, -⟩ <;> simp at h
  | gettime =>
    obtain ⟨n, -, h, -⟩ := h
    have hm : MicroOp.clearRun ∈ timeWrites s.clock.snapLo s.clock.snapHi :=
      List.mem_of_mem_drop (h ▸ List.mem_cons_self)
    simp [timeWrites] at hm
  | prtime =>
    obtain ⟨n, -, h, -⟩ := h
    obtain ⟨b, -, hb⟩ := List.mem_map.mp (h ▸ List.mem_cons_self)
    cases hb
  | _ => rcases h with h | ⟨h, -⟩ <;> simp at h

/-- Under the invariant `run` is to be cleared only at the end of an EXIT. -/
theorem State.Inv.of_clearRun (h : s.Inv) {rest : List MicroOp} (hl : s.pos.left = .clearRun :: rest) :
    s.pos = .command [.clearRun] ∧ decodeByte s.cmd = .exit ∧ [Param.exitByte] <:+ s.serial.txLog := by
  rcases h.left_cases hl with ⟨-, -, b, hb⟩ | ⟨hp, hleft⟩
  · exact absurd (hb.subset List.mem_cons_self) (by simp)
  · obtain ⟨hi, rfl, htx⟩ := hleft.of_clearRun
    exact ⟨hp, hi, htx⟩

/-! ### What moves the FIFO (R154, R200, R204) -/

/-- The FIFO with the micro-steps `ops` carried out. -/
def Fifo.settle (ops : List MicroOp) (f : Fifo) : Fifo := ops.foldl (fun g op => op.onFifo g) f

theorem State.settledFifo_eq (s : State) : s.settledFifo = s.fifo.settle s.pos.left := rfl

theorem Fifo.settle_append (ops ops' : List MicroOp) (f : Fifo) : f.settle (ops ++ ops') = (f.settle ops).settle ops' :=
  List.foldl_append

/-- Micro-steps that transmit leave the FIFO alone. -/
theorem Fifo.settle_map_tx (bs : List Byte) (f : Fifo) : f.settle (bs.map .tx) = f := by
  induction bs with
  | nil => rfl
  | cons b bs ih => exact ih

theorem serialTx_left (b : Byte) (s : State) : ∃ bs : List Byte, (serialTx b s).2 = bs.map .tx := by
  cases hr : s.serial.txReady with
  | true => exact ⟨[], by rw [serialTx_ready s b hr]; rfl⟩
  | false => exact ⟨[b], by rw [serialTx_busy s b hr]; rfl⟩

theorem busRead_left (a : Byte) (s : State) : ∃ bs : List Byte, (busRead a s).left = bs.map .tx := by
  cases ho : s.owns with
  | true => exact ⟨[], by rw [busRead_owned s a ho]; rfl⟩
  | false => rw [busRead_refused s a ho]; exact serialTx_left _ s

theorem busWrite_left (a v : Byte) (s : State) : ∃ bs : List Byte, (busWrite a v s).left = bs.map .tx := by
  cases ho : s.owns with
  | true => exact ⟨[], by rw [busWrite_owned s a v ho]; rfl⟩
  | false => rw [busWrite_refused s a v ho]; exact serialTx_left _ s

theorem runOp_fifo (op : MicroOp) (s : State) : (runOp op s).1.fifo = op.onFifo s.fifo := (runOp_frame s op).fifo

/-- What a micro-step leaves to be done in its place does nothing more to the FIFO. -/
theorem Fifo.settle_runOp_left (op : MicroOp) (s : State) (f : Fifo) : f.settle (runOp op s).2 = f := by
  cases op with
  | tx b =>
    obtain ⟨bs, hbs⟩ := serialTx_left b s
    rw [runOp, hbs, Fifo.settle_map_tx]
  | busWrite a v =>
    obtain ⟨bs, hbs⟩ := busWrite_left a v s
    rw [runOp, hbs, Fifo.settle_map_tx]
  | recvArg =>
    cases hr : s.serial.rxAvail with
    | true => rw [runOp, serialRxRaw_some s hr]; rfl
    | false => rw [runOp, serialRxRaw_none s hr]; rfl
  | _ => rfl

/-- A micro-step leaves the FIFO on its way to where it is once the operation is done. -/
theorem runFirst_settled (ops : List MicroOp) (s : State) :
    (runFirst ops s).1.fifo.settle (runFirst ops s).2 = s.fifo.settle ops := by
  cases ops with
  | nil => rfl
  | cons op ops =>
    rw [runFirst, Fifo.settle_append, Fifo.settle_runOp_left, runOp_fifo]
    rfl

theorem runFirst_fifo (ops : List MicroOp) (s : State) :
    (runFirst ops s).1.fifo = s.fifo ∨ ∃ op rest, ops = op :: rest ∧ (runFirst ops s).1.fifo = op.onFifo s.fifo := by
  cases ops with
  | nil => exact .inl rfl
  | cons op ops => exact .inr ⟨op, ops, rfl, runOp_fifo op s⟩

theorem stepBody_settledFifo (ops : List MicroOp) (s : State) :
    (stepBody ops s).settledFifo = s.fifo.settle ops := by
  rw [State.settledFifo_eq, stepBody, State.bodyLeft_pos, Position.left_inBody]
  exact runFirst_settled ops s

/-- From `s` to `t` the FIFO has not moved, nor is any of it left to be moved. -/
structure FifoKept (s t : State) : Prop where
  fifo : t.fifo = s.fifo
  settled : t.settledFifo = s.fifo

theorem FifoKept.of_left_nil (hf : t.fifo = s.fifo) (hl : t.pos.left = []) : FifoKept s t :=
  ⟨hf, by rw [State.settledFifo_eq, hl]; exact hf⟩

/-- A command whose first micro-step and those left of it transmit leaves the FIFO alone. -/
theorem stepBody_tx_fifoKept (b : Byte) (ops : List MicroOp) (s : State)
    (h : s.fifo.settle ops = s.fifo) : FifoKept s (stepBody (.tx b :: ops) s) :=
  ⟨runOp_fifo (.tx b) s, (stepBody_settledFifo (.tx b :: ops) s).trans h⟩

/-- Dispatch moves the FIFO only for a GETCH with a byte buffered (R172, R204). -/
theorem exec_fifo {i : Instr} (ht : exec i s = .next t) :
    FifoKept s t ∨ (i = .getch ∧ 0 < s.fifo.count ∧ t.settledFifo = s.fifo.pop) := by
  rcases exec_cases ht with ⟨-, rfl⟩ | ⟨hi, hsome, rfl⟩ | ⟨-, -, -, rfl⟩ | ⟨-, -, -, rfl⟩ | ⟨-, rfl⟩ | ⟨-, rfl⟩ |
      ⟨-, rfl⟩ | ⟨-, -, -, -, -, rfl⟩
  · exact .inl (stepBody_tx_fifoKept _ _ s rfl)
  · exact .inr ⟨hi, s.fifo.isEmpty_eq_false.mp hsome, rfl⟩
  · exact .inl ⟨rfl, rfl⟩
  · exact .inl ⟨rfl, rfl⟩
  · obtain ⟨bs, hbs⟩ := busRead_left (argAddr 0) s
    have hf : (busRead (argAddr 0) s).state.fifo = s.fifo := (busRead_frame s (argAddr 0)).fifo
    refine .inl ⟨hf, ?_⟩
    rw [State.settledFifo_eq, State.bodyLeft_pos, Position.left_inBody, hbs, Fifo.settle_append, Fifo.settle_map_tx]
    exact hf
  · exact .inl ⟨rfl, rfl⟩
  · exact .inl ⟨rfl, s.fifo.settle_map_tx s.getTime.clock.snapText⟩
  · exact .inl (stepBody_tx_fifoKept _ _ s rfl)

theorem fetchStep_fifoKept (hp : s.pos = .fetch) : FifoKept s (fetchStep s) := by
  cases ho : s.owns with
  | true => rw [fetchStep_owned ho]; exact ⟨rfl, rfl⟩
  | false =>
    rw [fetchStep_refused ho]
    split
    · exact ⟨rfl, rfl⟩
    · exact .of_left_nil rfl (by rw [hp]; rfl)

/-- SerialPoll moves the FIFO only for a byte in the receiver that there is room for (R200 to R202). -/
theorem idlePoll_fifo (s : State) :
    FifoKept s (idlePoll s) ∨
      (s.serial.rxAvail = true ∧ s.fifo.count < Config.fifoCap ∧ (idlePoll s).fifo = s.fifo ∧
        (idlePoll s).settledFifo = s.fifo.push s.serial.rxData) := by
  unfold idlePoll pollBegin
  split
  · next hr =>
    split
    · exact .inl ⟨rfl, rfl⟩
    · next hfull => exact .inr ⟨hr, by simpa [Fifo.isFull] using hfull, rfl, rfl⟩
  · exact .inl ⟨rfl, rfl⟩

/-- What CTRL's step does to the FIFO, at every position. -/
theorem ctrlStep_fifo (ht : ctrlStep s = .next t) :
    (t.fifo = s.fifo ∧ t.settledFifo = s.settledFifo) ∨
    (s.pos = .loopHead ∧ s.run = true ∧ s.fsm = .idle ∧ s.serial.rxAvail = true ∧ s.fifo.count < Config.fifoCap ∧
      t.fifo = s.fifo ∧ t.settledFifo = s.fifo.push s.serial.rxData) ∨
    (s.pos = .dispatch ∧ decodeByte s.cmd = .getch ∧ 0 < s.fifo.count ∧ t.settledFifo = s.fifo.pop) ∨
    (∃ op rest, s.pos.left = op :: rest ∧ t.fifo = op.onFifo s.fifo ∧ t.settledFifo = s.settledFifo) := by
  have kept : s.pos.left = [] → FifoKept s t → t.fifo = s.fifo ∧ t.settledFifo = s.settledFifo := fun hl hk =>
    ⟨hk.fifo, by rw [hk.settled, State.settledFifo_eq, hl]; rfl⟩
  rcases ctrlStep_kinds ht with ⟨hl, es, f, p, hpl, rfl⟩ | ⟨hp, hr, hf, rfl⟩ | ⟨hp, rfl⟩ | ⟨hp, ht⟩ | ⟨p, hpl, rfl⟩
  · exact .inl (kept hl (.of_left_nil rfl hpl))
  · rcases idlePoll_fifo s with hk | ⟨hrx, hc, hfifo, hsettled⟩
    · exact .inl (kept (by rw [hp]; rfl) hk)
    · exact .inr (.inl ⟨hp, hr, hf, hrx, hc, hfifo, hsettled⟩)
  · exact .inl (kept (by rw [hp]; rfl) (fetchStep_fifoKept hp))
  · rcases exec_fifo ht with hk | ⟨hi, hc, hsettled⟩
    · exact .inl (kept (by rw [hp]; rfl) hk)
    · exact .inr (.inr (.inl ⟨hp, hi, hc, hsettled⟩))
  · have hsettled : State.settledFifo { (runFirst s.pos.left s).1 with pos := p } = s.settledFifo := by
      rw [State.settledFifo_eq, hpl]
      exact runFirst_settled s.pos.left s
    rcases runFirst_fifo s.pos.left s with hfifo | ⟨op, rest, hl, hfifo⟩
    · exact .inl ⟨hfifo, hsettled⟩
    · exact .inr (.inr (.inr ⟨op, rest, hl, hfifo, hsettled⟩))

/-- Another agent's turn leaves the FIFO alone, and what is left to be done to it. -/
theorem step_fifo_of_other (ht : step s = .next t) (hd : s.clock.interruptDue = false) (hc : s.nextAgent ≠ .ctrl) :
    t.fifo = s.fifo ∧ t.settledFifo = s.settledFifo := by
  rw [step_of_not_due hd] at ht
  by_cases hs : s.nextAgent = .shell
  · rw [hs] at ht
    cases ht
    unfold shellTurn
    split
    · next hp =>
      have hp : s.pos = .returned := hp
      exact ⟨rfl, by rw [s.settledFifo_eq, hp]; rfl⟩
    · exact ⟨rfl, rfl⟩
  · have f := agentStep_ctrlFrame ht hc hs
    exact ⟨f.fifo, by rw [State.settledFifo_eq, f.pos, f.fifo]; rfl⟩

/-- Of the commands only a GETCH has a micro-step on the FIFO left, the count of the byte it took (R204). -/
theorem HasLeft.of_onFifo {i : Instr} {op : MicroOp} {rest : List MicroOp} (h : HasLeft i (op :: rest) s) {f : Fifo}
    (hf : op.onFifo f ≠ f) : i = .getch ∧ ∃ b, op :: rest = [.countDown, .busWrite (argAddr 0) b] := by
  cases i with
  | getch =>
    rcases h with ⟨h, -⟩ | ⟨b, h, -⟩ | ⟨b, h⟩ | ⟨h, -⟩
    · cases h; exact absurd rfl hf
    · exact ⟨rfl, b, h⟩
    · cases h; exact absurd rfl hf
    · cases h
  | exit => rcases h with h | ⟨h, -⟩ | ⟨h, -⟩ <;> cases h <;> exact absurd rfl hf
  | gettime =>
    obtain ⟨n, -, h, -⟩ := h
    have hm : op ∈ timeWrites s.clock.snapLo s.clock.snapHi := List.mem_of_mem_drop (h ▸ List.mem_cons_self)
    simp only [timeWrites, List.mem_cons, List.not_mem_nil, or_false] at hm
    rcases hm with rfl | rfl | rfl | rfl <;> exact absurd rfl hf
  | prtime =>
    obtain ⟨n, -, h, -⟩ := h
    obtain ⟨b, -, rfl⟩ := List.mem_map.mp (h ▸ List.mem_cons_self)
    exact absurd rfl hf
  | _ => rcases h with h | ⟨h, -⟩ <;> cases h; exact absurd rfl hf

/-- Under the invariant a micro-step on the FIFO is one of an Idle step's poll, or the count of a GETCH. -/
theorem State.Inv.of_onFifo (h : s.Inv) {op : MicroOp} {rest : List MicroOp} (hl : s.pos.left = op :: rest)
    (hf : op.onFifo s.fifo ≠ s.fifo) :
    (s.fsm = .idle ∧ ∃ ops, s.pos = .polling ops) ∨
      (decodeByte s.cmd = .getch ∧ ∃ b, s.pos = .command [.countDown, .busWrite (argAddr 0) b]) := by
  rcases h.left_cases hl with ⟨hp, hidle, -⟩ | ⟨hp, hleft⟩
  · exact .inl ⟨hidle, _, hp⟩
  · obtain ⟨hi, b, hops⟩ := hleft.of_onFifo hf
    exact .inr ⟨hi, b, by rw [hp, hops]⟩

/-- Only the byte 0x01 is GETCH. -/
theorem getch_of_decodeByte {b : Byte} (h : decodeByte b = .getch) : b = 0x01 := by
  rw [← encodeByte_decodeByte b, h]
  rfl

/-- While a GETCH runs, `cmd` and the command register hold its code (R147). -/
theorem State.Inv.cmd_of_getch (h : s.Inv) (hp : s.pos.afterFetch = true) (hi : decodeByte s.cmd = .getch) :
    s.cmd = 0x01 ∧ s.mem.read 0xF0 = 0x01 :=
  ⟨getch_of_decodeByte hi, (h.latched hp).symm.trans (getch_of_decodeByte hi)⟩

/-! ### The target's turn, act by act (R156, R263, R300) -/

theorem State.targetHeld_eq_false_iff : s.targetHeld = false ↔ s.fsm ≠ .servicing ∨ s.pos = .passEnd := by
  simp [State.targetHeld, imp_iff_not_or]

theorem State.targetMayRequest_iff :
    s.targetMayRequest = true ↔ s.lines.busen = .deasserted ∧ s.fsm ≠ .servicing := by
  simp [State.targetMayRequest]

variable {a v : Byte} {rest : List TgtAct}

theorem tgtTurn_nil (h : s.env.script = []) : tgtTurn s = .next s := by simp [tgtTurn, h]

theorem tgtTurn_store (h : s.env.script = .store a v :: rest) :
    tgtTurn s =
      .next (if s.targetMayAccess then { s.memWrite a v with env := { s.env with script := rest } } else s) := by
  cases hm : s.targetMayAccess <;> simp [tgtTurn, h, hm]

theorem tgtTurn_load (h : s.env.script = .load a :: rest) :
    tgtTurn s =
      .next (if s.targetMayAccess then
        { s with env := { s.env with script := rest, seen := s.env.seen ++ [(a, s.memRead a)] } } else s) := by
  cases hm : s.targetMayAccess <;> simp [tgtTurn, h, hm]

theorem tgtTurn_rdyLow (h : s.env.script = .rdyLow :: rest) :
    tgtTurn s =
      .next (if s.targetMayRequest then { s with rdyT := .low, env := { s.env with script := rest } } else s) := by
  cases hm : s.targetMayRequest <;> simp [tgtTurn, h, hm]

theorem tgtTurn_rdyRelease (h : s.env.script = .rdyRelease :: rest) :
    tgtTurn s = .next { s with rdyT := .released, env := { s.env with script := rest } } := by
  simp [tgtTurn, h]

theorem tgtTurn_driveBus (h : s.env.script = .driveBus :: rest) :
    tgtTurn s =
      if s.owner = .controller then .fault .busContention
      else if s.targetMayAccess then .next { s with env := { s.env with script := rest } }
      else .fault .targetContract := by
  simp [tgtTurn, h]

end Sys2Proof.Machine

open Sys2Proof Sys2Proof.Machine

/-- Settles O26: every level change of a legal trace keeps the balance, and the trace of a state of the invariant is
legal and has led to what its position says. -/
theorem oneWakePulseForEachWindow : Obligations.OneWakePulseForEachWindow := by
  intro s t h ht
  have hinv : t.Inv := by
    rcases ht with rfl | ht
    · exact h
    · exact h.step ht
  obtain ⟨-, hopened, hbegun, hclosed⟩ := BusView.idle_balanced.replay hinv.trace
  obtain ⟨hbusen, -⟩ := hinv.lines
  simp only [Position.owesPulse_iff, ← Position.busView_wake_low_iff, hbusen]
  exact ⟨hopened, hbegun, hclosed⟩

/-- Settles O32: the request is confirmed, the command fetched and its byte read and sent, and the pass ends as every
pass does. -/
theorem putchPassMakesExactlyTheseMoves : Obligations.PutchPassMakesExactlyTheseMoves := by
  intro s hq hr hp hf hlow hcmd
  have hrdy : s.rdyLine = .low := State.rdyLine_low_iff.mpr (.inl hlow)
  constructor
  · intro htx
    have hrun :=
      calc core.run 9 s
        _ = core.run 5 s.windowOpened.atDispatch.putchRead := run_putch_fetch hq hr hp hf hrdy hcmd
        _ = core.run 4 _ := run_last_tx hq rfl htx
        _ = core.run 0 _ := run_release hq rfl
    refine hrun.trans (congrArg _ ?_)
    simp only [State.moveTo, State.send, State.putchRead, State.atDispatch, State.windowOpened, List.append_assoc, hp]
    rw [← hcmd]
    rfl
  · intro htx
    refine (run_putch_fetch (n := 0) hq hr hp hf hrdy hcmd).trans (congrArg _ ?_)
    simp only [State.moveTo, State.putchRead, State.atDispatch, State.windowOpened, List.append_assoc]
    rw [← hcmd]
    rfl

/-- Settles O33: the fetch, the two micro-steps of EXIT, the end of the pass, and the loop test. -/
theorem exitPassReturnsToTheShell : Obligations.ExitPassReturnsToTheShell := by
  intro s h hq hp htx hcmd
  have hlines := h.lines
  have hfifo := h.fifo
  rw [State.settledFifo, hp] at hfifo
  rw [hp] at hlines
  have hdata := hlines.dDir_input rfl
  obtain ⟨hbusen, -, -, hwr, -⟩ := hlines
  have hrun :=
    calc core.run 8 s
      _ = core.run 7 s.atDispatch := run_of_quiet hq (ctrlStep_of_fetch_owned hp (State.owns_of_asserted hbusen))
      _ = core.run 5 s.atDispatch.exited := run_exit hq rfl hcmd htx
      _ = core.run 1 _ := run_release hq rfl
      _ = core.run 0 _ := run_of_quiet hq (by rw [ctrlStep_of_loopHead rfl, loopHeadStep_halted rfl])
  refine ⟨_, hrun, rfl, rfl, rfl, rfl, ?_, ?_, rfl, rfl, rfl, ?_⟩
  · exact ⟨rfl, rfl, rfl, rfl, hdata, hwr, rfl, h.enabled, h.noneDue, hfifo, rfl⟩
  · rw [State.moveTo_moveTo]
    exact List.append_assoc ..
  · exact step_of_returned hq rfl

/-- Settles O34: whose turn it is, and on CTRL's the micro-step next to make. -/
theorem onlyExitStopsTheLoop : Obligations.OnlyExitStopsTheLoop := by
  intro s t h ht hr hr'
  have hd := Clock.interruptDue_of_clear _ h.noneDue
  by_cases hc : s.nextAgent = .ctrl
  · rw [step_of_ctrl hd hc] at ht
    obtain ⟨rest, hl⟩ := (ctrlStep_run ht).resolve_left fun heq => by simp [hr, hr'] at heq
    obtain ⟨hp, hi, htx⟩ := h.of_clearRun hl
    have hcmd := exit_of_decodeByte hi
    exact ⟨hc, hp, hcmd, (h.latched (by rw [hp]; rfl)).symm.trans hcmd, htx⟩
  · simp [step_run_of_other ht hd hc hr] at hr'

/-- Settles O43, act by act. -/
theorem targetActsByItsContract : Obligations.TargetActsByItsContract := by
  rintro s p a v rest hd ha rfl
  have hstep : step s = tgtTurn s.popTurn := step_of_tgt hd ha
  refine ⟨?_, fun hs => ?_, ⟨Memory.read_write_same .., fun b hb => Memory.read_write_other _ _ hb⟩, fun hs => ?_,
    fun hs => ?_, fun hs => ?_, fun hs => ?_, fun hs => ?_⟩
  · rw [State.targetMayAccess_iff, State.owner_target_iff, State.rdyLine_high_iff, State.targetHeld_eq_false_iff,
      and_assoc]
  · rw [hstep, tgtTurn_store (s := s.popTurn) hs]; rfl
  · rw [hstep, tgtTurn_load (s := s.popTurn) hs]; rfl
  · rw [hstep, tgtTurn_rdyLow (s := s.popTurn) hs]
    simp only [State.targetMayRequest_iff]
    rfl
  · rw [hstep, tgtTurn_rdyRelease (s := s.popTurn) hs]; rfl
  · rw [hstep, tgtTurn_driveBus (s := s.popTurn) hs]
    simp only [State.owner_controller_iff]
    rfl
  · rw [hstep, tgtTurn_nil (s := s.popTurn) hs]; rfl

/-- Settles O45: whose turn it is, and on CTRL's what its step does to the FIFO. -/
theorem fifoMovesOnlyInIdleAndGetch : Obligations.FifoMovesOnlyInIdleAndGetch := by
  intro s t h ht
  have hd := Clock.interruptDue_of_clear _ h.noneDue
  by_cases hc : s.nextAgent = .ctrl
  · rw [step_of_ctrl hd hc] at ht
    rcases ctrlStep_fifo ht with ⟨hfifo, hsettled⟩ | ⟨hp, hr, hf, hrx, hroom, hfifo, hsettled⟩ |
        ⟨hp, hi, hcount, hsettled⟩ | ⟨op, rest, hl, hfifo, hsettled⟩
    · exact ⟨fun hne => absurd hfifo hne, fun hne => absurd hsettled hne⟩
    · exact ⟨fun hne => absurd hfifo hne, fun _ => ⟨hc, .inl ⟨hp, hr, hf, hrx, hroom, hsettled⟩⟩⟩
    · have hp : s.pos = .dispatch := hp
      obtain ⟨hcmd, hreg⟩ := h.cmd_of_getch (by rw [hp]; rfl) hi
      exact ⟨fun _ => ⟨hc, .inr (.inl ⟨hcmd, hreg, hp, hcount⟩)⟩,
        fun _ => ⟨hc, .inr ⟨hp, hcmd, hreg, hcount, hsettled⟩⟩⟩
    · refine ⟨fun hne => ⟨hc, ?_⟩, fun hne => absurd hsettled hne⟩
      rcases h.of_onFifo hl (hfifo ▸ hne) with hpoll | ⟨hi, b, hp⟩
      · exact .inl hpoll
      · obtain ⟨hcmd, hreg⟩ := h.cmd_of_getch (by rw [hp]; rfl) hi
        exact .inr (.inr ⟨hcmd, hreg, b, hp⟩)
  · obtain ⟨hfifo, hsettled⟩ := step_fifo_of_other ht hd hc
    exact ⟨fun hne => absurd hfifo hne, fun hne => absurd hsettled hne⟩

/-- Settles O4: CTRL's turn is its step at the fetch and at Dispatch. -/
theorem stepRunsTheFetchedCommand : Obligations.StepRunsTheFetchedCommand := by
  intro s hd hc
  rw [step_of_ctrl hd hc]
  constructor
  · intro hp hbus
    rw [ctrlStep_of_fetch_owned (s := s.popTurn) hp (State.owns_of_asserted hbus)]
    rfl
  · intro hp
    rw [ctrlStep_of_dispatch (s := s.popTurn) hp]
    rfl

/-- Settles O5: the placed byte is stored, then fetched, and the state at Dispatch is a quiet one. -/
theorem placedByteIsTheNextCommand : Obligations.PlacedByteIsTheNextCommand := by
  intro s w hw
  have hcmd := s.placeCommand_cmd (BitVec.ofNat 8 w)
  have hquiet := s.placeCommand_quiet (BitVec.ofNat 8 w)
  rw [State.withFetchWord_eight hw]
  refine ⟨_, decodeTableWord_eight hw, decodeByte_wellFormed _, ?_, hcmd, ?_, ?_, ?_, ?_⟩
  · rw [step_of_quiet hquiet, ctrlStep_of_dispatch (s.placeCommand_pos _), hcmd]
  all_goals rw [State.placeCommand_eq]
  · exact Memory.read_write_same ..
  · exact fun a ha => Memory.read_write_other _ _ ha
  · rfl
  · rfl

/-- Settles O27: the poll, short or long, and the RDY sample. -/
theorem idlePollsOnceThenSamples : Obligations.IdlePollsOnceThenSamples := by
  rintro s u hq hr hf hp - rfl
  simp only [← State.rdyLine_low_iff]
  have hsample (n : Nat) : core.run (n + 1) s.polled = core.run n s.idled := run_succ (step_polled hq hf)
  refine ⟨fun h => ?_, fun h hc => ?_⟩
  · have hpoll := step_idlePoll_short hq hr hf hp h
    exact ⟨hpoll, (run_succ hpoll).trans (hsample 0)⟩
  · exact ⟨step_idlePoll_long hq hr hf hp h hc, run_idlePoll_long (n := 0) hq hr hf hp h hc,
      (run_idlePoll_long (n := 1) hq hr hf hp h hc).trans (hsample 0)⟩

/-- Settles O28, by the RDY sample. -/
theorem firstLowSampleOnlyMakesACandidate : Obligations.FirstLowSampleOnlyMakesACandidate := by
  intro s hq hp hrdy
  rw [step_idleSample hq hp, if_pos hrdy]

/-- Settles O29, by the confirm sample. -/
theorem glitchHasNoSideEffect : Obligations.GlitchHasNoSideEffect := by
  intro s hq hr hp hf hrdy
  rw [step_of_quiet hq, ctrlStep_of_loopHead hp, loopHeadStep_confirmRequest hr hf, confirmStep_eq, hrdy,
    State.moveTo_nil, ← hp]
  rfl

/-- Settles O30: the confirm sample, then Acquire. -/
theorem confirmedRequestTakesTheBus : Obligations.ConfirmedRequestTakesTheBus :=
  fun _ hq hr hp hf hrdy => run_confirm_acquire (n := 0) hq hr hp hf hrdy

/-- Settles O31, by the end every pass has. -/
theorem passEndsWithReleaseThenOneWakePulse : Obligations.PassEndsWithReleaseThenOneWakePulse :=
  fun _ hq hp => run_release (n := 0) hq hp

/-- Settles O36: T4, an Idle step whose sample is low, the confirm sample and Acquire. -/
theorem heldRequestIsServedAgain : Obligations.HeldRequestIsServedAgain := by
  intro s u hq hr hp hlow _ hu
  obtain ⟨serial, fifo, hpoll⟩ := serialPoll_frame s
  have hrdy : (s.moveTo [] .idle .loopHead).rdyLine = .low := State.rdyLine_low_iff.mpr (.inl hlow)
  have hnext : (s.moveTo [] .idle .loopHead).Quiet := hq
  have hend (n : Nat) : core.run (n + 1) s = core.run n (s.moveTo [] .idle .loopHead) :=
    run_of_quiet hq (by rw [ctrlStep_of_passEnd hp, passEndStep_eq])
  have hserve : core.run 3 (s.moveTo [] .idle .loopHead).polled = .next u := by
    refine (run_polled_low (n := 0) hnext hr rfl hrdy).trans (congrArg _ ?_)
    rw [State.idled, hrdy, State.moveTo_nil, serialPoll_setCtrl, hu, hpoll]
    rfl
  refine ⟨by rw [hu, hpoll], fun h => ?_, fun h hc => ?_⟩
  · exact (hend 4).trans ((run_succ (step_idlePoll_short hnext hr rfl rfl h)).trans hserve)
  · exact (hend 7).trans ((run_idlePoll_long hnext hr rfl rfl h hc).trans hserve)

/-- Settles O59: the shell's turn, by whether the loop has returned. -/
theorem shellEntersOnlyAReturnedLoop : Obligations.ShellEntersOnlyAReturnedLoop := by
  intro s rest hd ht
  have hturn : step s = .next (shellTurn s.popTurn) := step_of_turn hd ht
  rw [hturn, State.popTurn_of_turns ht]
  constructor
  · intro hp
    rw [shellTurn, if_pos hp]
    rfl
  · intro hp
    rw [shellTurn, if_neg hp]

end

section
/-! PROOFS. The commands of spec/42_command_dispatch.md: what each comes to with CTRL alone (R171 to R176), what it has
come to whatever the other agents do meanwhile, and what its micro-steps leave alone (R177, R179). -/

namespace Sys2Proof.Machine

variable {s t : State} {i : Instr}

/-! ### Bus writes left of a command -/

theorem Memory.read_write (m : Memory) (a b : Nat) (v : Byte) :
    (m.write a v).read b = if b = a then v else m.read b := by
  split
  · next h => rw [h, Memory.read_write_same]
  · next h => exact Memory.read_write_other m v h

/-- `s` after a bus write with the bus owned (R122, R123). -/
def State.written (a v : Byte) (s : State) : State :=
  { s with lines := s.lines.afterWrite a v, mem := s.mem.write a.toNat v, pins := s.pins ++ writePins a v }

theorem stepBody_busWrite_owned (a v : Byte) (ops : List MicroOp) (h : s.owns = true) :
    stepBody (.busWrite a v :: ops) s = (s.written a v).bodyLeft ops := stepBody_write s a v ops h

theorem State.written_memRead_other (v : Byte) {a b : Byte} (h : b ≠ a) : (s.written a v).memRead b = s.memRead b :=
  Memory.read_write_other s.mem v fun h' => h (BitVec.eq_of_toNat_eq h')

/-- The next bus write of a command, no other agent's turn before it. -/
theorem run_busWrite {n : Nat} {a v : Byte} {ops : List MicroOp} (hq : s.Quiet)
    (hp : s.pos = .command (.busWrite a v :: ops)) (ho : s.owns = true) :
    core.run (n + 1) s = core.run n ((s.written a v).bodyLeft ops) :=
  run_of_quiet hq (by rw [ctrlStep_of_command hp, stepBody_busWrite_owned a v ops ho])

/-! ### What the invariant says within a command -/

theorem State.Inv.owns_of_command (h : s.Inv) {ops : List MicroOp} (hp : s.pos = .command ops) : s.owns = true :=
  (h.inWindow (.inr ⟨ops, hp⟩)).owns

theorem State.Inv.hasLeft_of_command (h : s.Inv) {ops : List MicroOp} (hp : s.pos = .command ops) :
    ops ≠ [] ∧ HasLeft (decodeByte s.cmd) ops s := by
  have hleft := h.left
  unfold State.LeftFits at hleft
  rwa [hp] at hleft

/-- Before Release nothing is left of the command whose code stands in the command register (R147, R149). -/
theorem State.Inv.hasLeft_of_release (h : s.Inv) (hp : s.pos = .release) {b : Byte} (hb : s.mem.read 0xF0 = b) :
    HasLeft (decodeByte b) [] s := by
  have hcmd : s.cmd = b := (h.latched (by rw [hp]; rfl)).trans hb
  have hleft := h.left
  unfold State.LeftFits at hleft
  rwa [hp, hcmd] at hleft

/-- A step of the machine within a command: another agent's, which leaves the command where it is, or CTRL's. -/
theorem State.Inv.step_of_command (h : s.Inv) (ht : Machine.step s = .next t) {ops : List MicroOp}
    (hp : s.pos = .command ops) :
    (s.nextAgent ≠ .ctrl ∧ t.pos = .command ops ∧ t.fifo = s.fifo) ∨ t = stepBody ops s.popTurn := by
  have hd := Clock.interruptDue_of_clear _ h.noneDue
  by_cases hc : s.nextAgent = .ctrl
  · rw [step_of_ctrl hd hc, ctrlStep_of_command (s := s.popTurn) hp] at ht
    exact .inr (Host.Outcome.next.inj ht).symm
  · obtain ⟨hpos, hfifo, -⟩ := step_of_other ht hd hc (by simp [hp])
    exact .inl ⟨hc, hpos.trans hp, hfifo⟩

/-- A step of the machine at Dispatch: another agent's, or the first micro-step of the command in the command register
(R148). -/
theorem State.Inv.step_of_dispatch (h : s.Inv) (ht : Machine.step s = .next t) (hp : s.pos = .dispatch) :
    (s.nextAgent ≠ .ctrl ∧ t.pos = .dispatch ∧ t.fifo = s.fifo) ∨
      exec (decodeByte (s.memRead Param.command)) s.popTurn = .next t := by
  have hd := Clock.interruptDue_of_clear _ h.noneDue
  by_cases hc : s.nextAgent = .ctrl
  · rw [step_of_ctrl hd hc, ctrlStep_of_dispatch (s := s.popTurn) hp] at ht
    rw [← h.latched (by rw [hp]; rfl)]
    exact .inr ht
  · obtain ⟨hpos, hfifo, -⟩ := step_of_other ht hd hc (by simp [hp])
    exact .inl ⟨hc, hpos.trans hp, hfifo⟩

/-- The write that ends a command has stored its byte once CTRL stands before Release. -/
theorem State.Inv.mem_of_last_busWrite (h : s.Inv) (ht : Machine.step s = .next t) (hq : t.pos = .release) {a v : Byte}
    (hp : s.pos = .command [.busWrite a v]) : t.memRead a = v := by
  rcases h.step_of_command ht hp with ⟨-, hpos, -⟩ | rfl
  · rw [hq] at hpos
    cases hpos
  · rw [stepBody_busWrite_owned (s := s.popTurn) a v [] (h.owns_of_command hp)]
    exact Memory.read_write_same s.mem a.toNat v

/-! ### The next micro-step that is left of a command -/

/-- Of GETTIME the next of its four writes is left (R174). -/
theorem HasLeft.gettime_cons {op : MicroOp} {ops : List MicroOp} (h : HasLeft .gettime (op :: ops) s) :
    ∃ n < 4, op = .busWrite (argAddr n) (s.clock.snapByte n) := by
  obtain ⟨n, hn, hops, -⟩ := h
  have hlt : n < 4 := by
    have hlen : (op :: ops).length = 4 - n := by rw [hops, List.length_drop]; rfl
    rw [List.length_cons] at hlen
    omega
  rw [timeWrites_drop s.clock n hlt] at hops
  exact ⟨n, hlt, (List.cons.inj hops).1⟩

/-- A command that stores nothing has a byte to send next, or is an EXIT with `run` to clear. -/
theorem HasLeft.nonStoring_cons {op : MicroOp} {ops : List MicroOp} (h : HasLeft i (op :: ops) s) (hg : i ≠ .getch)
    (hgt : i ≠ .gettime) : (∃ b, op = .tx b) ∨ (i = .exit ∧ op = .clearRun) := by
  cases i with
  | getch | gettime => contradiction
  | exit =>
    rcases h with h | ⟨h, -⟩ | ⟨h, -⟩
    · cases h; exact .inl ⟨_, rfl⟩
    · cases h; exact .inr ⟨rfl, rfl⟩
    · cases h
  | prtime =>
    obtain ⟨n, -, h, -⟩ := h
    obtain ⟨b, -, rfl⟩ := List.mem_map.mp (h ▸ List.mem_cons_self)
    exact .inl ⟨b, rfl⟩
  | _ =>
    rcases h with h | ⟨h, -⟩
    · cases h; exact .inl ⟨_, rfl⟩
    · cases h

/-! ### What a command has come to when nothing is left of it -/

theorem HasLeft.exit_nil (h : HasLeft .exit [] s) : [Param.exitByte] <:+ s.serial.txLog ∧ s.run = false := by
  rcases h with h | ⟨h, -⟩ | ⟨-, htx, hrun⟩
  · cases h
  · cases h
  · exact ⟨htx, hrun⟩

theorem HasLeft.getch_nil (h : HasLeft .getch [] s) :
    s.lines.aOut = argAddr 0 ∧ s.memRead (argAddr 0) = s.lines.dOut := by
  rcases h with ⟨h, -⟩ | ⟨b, h, -⟩ | ⟨b, h⟩ | ⟨-, haddr, hdata⟩
  · cases h
  · cases h
  · cases h
  · exact ⟨haddr, hdata⟩

theorem HasLeft.putch_nil (h : HasLeft .putch [] s) : [s.memRead (argAddr 0)] <:+ s.serial.txLog := by
  rcases h with h | ⟨-, htx⟩
  · cases h
  · exact htx

theorem HasLeft.gettime_nil (h : HasLeft .gettime [] s) : ∀ i < 4, s.memRead (argAddr i) = s.clock.snapByte i := by
  obtain ⟨n, hn, hops, hstored⟩ := h
  have hlen : 4 - n = 0 := (List.length_drop (l := timeWrites _ _)).symm.trans (congrArg _ hops.symm)
  exact fun i hi => hstored i (by omega)

theorem HasLeft.prtime_nil (h : HasLeft .prtime [] s) : s.clock.snapText <:+ s.serial.txLog := by
  obtain ⟨n, hn, hops, hsent⟩ := h
  have hdrop : s.clock.snapText.drop n = [] := List.map_eq_nil_iff.mp hops.symm
  rwa [List.take_of_length_le (List.drop_eq_nil_iff.mp hdrop)] at hsent

/-- A byte from 0x05 on decodes to no command of a lower code. -/
theorem decodeByte_ne_of_unknown {b : Byte} (h : 5 ≤ b.toNat) (hi : (encodeByte i).toNat < 5) : decodeByte b ≠ i := by
  rintro rfl
  rw [encodeByte_decodeByte] at hi
  omega

theorem HasLeft.unknown_nil {b : Byte} (h : HasLeft (decodeByte b) [] s) (hu : 5 ≤ b.toNat) :
    [Param.unknownMark] <:+ s.serial.txLog := by
  have hne (i : Instr) : (encodeByte i).toNat < 5 → decodeByte b ≠ i := decodeByte_ne_of_unknown hu
  cases hi : decodeByte b with
  | exit | getch | putch | gettime | prtime => exact absurd hi (hne _ (by decide))
  | _ =>
    rw [hi] at h
    rcases h with h | ⟨-, htx⟩
    · cases h
    · exact htx

/-! ### The micro-steps of a command: its first, and those left of it -/

/-- A micro-step of a command is its first, or one left of it in a state of the invariant. -/
theorem Takes.exec_or_stepBody (h : Takes i s t) :
    exec i s = .next t ∨
      ∃ op ops, s.owns = true ∧ HasLeft i (op :: ops) s ∧ t = stepBody (op :: ops) s := by
  rcases h with hexec | ⟨hinv, hi, ⟨ops, hp⟩, hstep⟩
  · exact .inl hexec
  · obtain ⟨hne, hleft⟩ := hinv.hasLeft_of_command hp
    obtain ⟨op, rest, rfl⟩ := List.exists_cons_of_ne_nil hne
    rw [ctrlStep_of_command hp] at hstep
    exact .inr ⟨op, rest, hinv.owns_of_command hp, hi ▸ hleft, (Host.Outcome.next.inj hstep).symm⟩

theorem Takes.sends (h : Takes i s t) : SendsAtMostOne s t := by
  rcases h.exec_or_stepBody with ht | ⟨op, ops, -, -, rfl⟩
  · exact exec_sends ht
  · exact stepBody_sends _ s

/-- What no command touches (R177): the handshake, the target's drive, the command latch and the environment. -/
structure HandshakeKept (s t : State) : Prop where
  busen : t.lines.busen = s.lines.busen
  rdyC : t.lines.rdyC = s.lines.rdyC
  wake : t.lines.wake = s.lines.wake
  fsm : t.fsm = s.fsm
  rdyT : t.rdyT = s.rdyT
  cmd : t.cmd = s.cmd
  env : t.env = s.env

theorem BodyFrame.handshakeKept {f : Fifo} (h : BodyFrame { s with fifo := f } t) (ops : List MicroOp) :
    HandshakeKept s (t.bodyLeft ops) := { h with }

theorem stepBody_handshakeKept (op : MicroOp) (ops : List MicroOp) (s : State) :
    HandshakeKept s (stepBody (op :: ops) s) := (runOp_frame s op).handshakeKept _

theorem exec_handshakeKept (ht : exec i s = .next t) : HandshakeKept s t := by
  rcases exec_cases ht with ⟨-, rfl⟩ | ⟨-, -, rfl⟩ | ⟨-, -, -, rfl⟩ | ⟨-, -, -, rfl⟩ | ⟨-, rfl⟩ | ⟨-, rfl⟩ | ⟨-, rfl⟩ |
      ⟨-, -, -, -, -, rfl⟩
  · exact stepBody_handshakeKept _ _ s
  · exact ⟨rfl, rfl, rfl, rfl, rfl, rfl, rfl⟩
  · exact ⟨rfl, rfl, rfl, rfl, rfl, rfl, rfl⟩
  · exact ⟨rfl, rfl, rfl, rfl, rfl, rfl, rfl⟩
  · exact (busRead_frame s (argAddr 0)).handshakeKept (f := s.fifo) _
  · exact ⟨rfl, rfl, rfl, rfl, rfl, rfl, rfl⟩
  · exact ⟨rfl, rfl, rfl, rfl, rfl, rfl, rfl⟩
  · exact stepBody_handshakeKept _ _ s

/-! ### The commands that store nothing -/

/-- A transmission moves the transmitter alone (R11). -/
theorem serialTx_only (b : Byte) (s : State) :
    ∃ log ready, (serialTx b s).1 = { s with serial := { s.serial with txLog := log, txReady := ready } } := by
  cases hr : s.serial.txReady with
  | true => rw [serialTx_ready s b hr]; exact ⟨_, _, rfl⟩
  | false => rw [serialTx_busy s b hr]; exact ⟨s.serial.txLog, s.serial.txReady, rfl⟩

/-- A read moves the address latches and `RD`, or, refused, the transmitter (R125, R126). -/
theorem busRead_only (a : Byte) (s : State) :
    ∃ aDir aOut rd pins log ready,
      (busRead a s).state =
        { s with
          lines := { s.lines with aDir := aDir, aOut := aOut, rd := rd }
          pins := pins
          serial := { s.serial with txLog := log, txReady := ready } } := by
  cases ho : s.owns with
  | true =>
    rw [busRead_owned s a ho]
    exact ⟨_, _, _, _, s.serial.txLog, s.serial.txReady, rfl⟩
  | false =>
    obtain ⟨log, ready, heq⟩ := serialTx_only Param.guardMark s
    rw [busRead_refused s a ho]
    exact ⟨s.lines.aDir, s.lines.aOut, s.lines.rd, s.pins, log, ready, heq⟩

/-- What a micro-step of EXIT, PUTCH, PRTIME or an unknown code can be. -/
theorem Takes.nonStoring_cases (h : Takes i s t) (hg : i ≠ .getch) (hgt : i ≠ .gettime) :
    (∃ b ops, t = stepBody (.tx b :: ops) s) ∨
    (i = .exit ∧ ∃ ops, t = stepBody (.clearRun :: ops) s) ∨
    (i = .putch ∧ ∃ ops, t = (busRead (argAddr 0) s).state.bodyLeft ops) ∨
    (i = .prtime ∧ ∃ ops, t = s.getTime.bodyLeft ops) := by
  rcases h.exec_or_stepBody with ht | ⟨op, ops, -, hleft, rfl⟩
  · rcases exec_cases ht with ⟨-, rfl⟩ | ⟨hi, -⟩ | ⟨hi, -⟩ | ⟨hi, -⟩ | ⟨hi, rfl⟩ | ⟨hi, -⟩ | ⟨hi, rfl⟩ |
        ⟨-, -, -, -, -, rfl⟩
    · exact .inl ⟨_, _, rfl⟩
    · exact absurd hi hg
    · exact absurd hi hg
    · exact absurd hi hg
    · exact .inr (.inr (.inl ⟨hi, _, rfl⟩))
    · exact absurd hi hgt
    · exact .inr (.inr (.inr ⟨hi, _, rfl⟩))
    · exact .inl ⟨_, _, rfl⟩
  · rcases hleft.nonStoring_cons hg hgt with ⟨b, rfl⟩ | ⟨hi, rfl⟩
    · exact .inl ⟨b, ops, rfl⟩
    · exact .inr (.inl ⟨hi, ops, rfl⟩)

/-! ### The commands that store -/

/-- What a micro-step of GETCH can be: one on the FIFO or the receiver, or the write of its byte (R172). -/
theorem Takes.getch_cases (h : Takes .getch s t) :
    (∃ fifo avail ops,
      t = ({ s with fifo := fifo, serial := { s.serial with rxAvail := avail } } : State).bodyLeft ops) ∨
    ∃ b ops, t = (s.written (argAddr 0) b).bodyLeft ops := by
  rcases h.exec_or_stepBody with ht | ⟨op, ops, ho, hleft, rfl⟩
  · cases hf : s.fifo.isEmpty with
    | false =>
      rw [exec_getch_buffered s hf] at ht
      cases ht
      exact .inl ⟨_, s.serial.rxAvail, _, rfl⟩
    | true =>
      cases hr : s.serial.rxAvail with
      | true => rw [exec_getch_raw s hf hr] at ht; cases ht; exact .inl ⟨s.fifo, _, _, rfl⟩
      | false => rw [exec_getch_wait s hf hr] at ht; cases ht; exact .inl ⟨s.fifo, s.serial.rxAvail, _, rfl⟩
  · rcases hleft with ⟨hops, -⟩ | ⟨b, hops, -⟩ | ⟨b, hops⟩ | ⟨hops, -⟩ <;> cases hops
    · cases hr : s.serial.rxAvail with
      | true => rw [stepBody_recvArg s _ hr]; exact .inl ⟨s.fifo, _, _, rfl⟩
      | false => rw [stepBody_recvArg_wait s _ hr]; exact .inl ⟨s.fifo, s.serial.rxAvail, _, rfl⟩
    · rw [stepBody_countDown]
      exact .inl ⟨_, s.serial.rxAvail, _, rfl⟩
    · rw [stepBody_busWrite_owned _ _ _ ho]
      exact .inr ⟨b, _, rfl⟩

/-- What a micro-step of GETTIME can be: `get_time`, or one of its four writes (R174). -/
theorem Takes.gettime_cases (h : Takes .gettime s t) :
    (∃ ops, t = s.getTime.bodyLeft ops) ∨ ∃ n < 4, ∃ v ops, t = (s.written (argAddr n) v).bodyLeft ops := by
  rcases h.exec_or_stepBody with ht | ⟨op, ops, ho, hleft, rfl⟩
  · rw [exec_gettime] at ht
    cases ht
    exact .inl ⟨_, rfl⟩
  · obtain ⟨n, hn, rfl⟩ := hleft.gettime_cons
    rw [stepBody_busWrite_owned _ _ _ ho]
    exact .inr ⟨n, hn, _, _, rfl⟩

/-! ### `get_time` with interrupts enabled and none pending -/

theorem State.getTime_of_enabled (he : s.clock.ien = true) (hp : s.clock.ovfPending = false) :
    s.getTime = { s with clock := { s.clock with snapLo := s.clock.tlo, snapHi := s.clock.thi } } := by
  rw [State.getTime, Clock.getTime_of_clear _ hp, ← he]

/-! ### The four writes of GETTIME (R64, R174) -/

theorem argAddr_toNat (n : Nat) (h : n < 4) : (argAddr n).toNat = 0xF1 + n := by
  revert n; decide

/-- `s` after the four writes of GETTIME with the bus owned. -/
def State.timeWritten (lo hi : Word16) (s : State) : State :=
  (((s.written (argAddr 0) (lowByte lo)).written (argAddr 1) (highByte lo)).written (argAddr 2) (lowByte hi)).written
    (argAddr 3) (highByte hi)

theorem State.timeWritten_mem (lo hi : Word16) (s : State) :
    (s.timeWritten lo hi).mem =
      (((s.mem.write 0xF1 (lowByte lo)).write 0xF2 (highByte lo)).write 0xF3 (lowByte hi)).write 0xF4 (highByte hi) :=
  rfl

theorem State.timeWritten_read_other (lo hi : Word16) (s : State) {a : Nat} (h : a < 0xF1 ∨ 0xF4 < a) :
    (s.timeWritten lo hi).mem.read a = s.mem.read a := by
  rw [State.timeWritten_mem, Memory.read_write_other _ _ (by omega), Memory.read_write_other _ _ (by omega),
    Memory.read_write_other _ _ (by omega), Memory.read_write_other _ _ (by omega)]

/-- The four bytes stored are those of the snapshot, least significant first. -/
theorem State.timeWritten_read_snapByte (c : Clock) (s : State) {n : Nat} (h : n < 4) :
    (s.timeWritten c.snapLo c.snapHi).mem.read (0xF1 + n) = c.snapByte n := by
  rw [State.timeWritten_mem]
  have hn : n = 0 ∨ n = 1 ∨ n = 2 ∨ n = 3 := by omega
  rcases hn with rfl | rfl | rfl | rfl <;>
    simp [Memory.read_write, c.snapByte_zero, c.snapByte_one, c.snapByte_two, c.snapByte_three]

/-- GETTIME's four writes, no other agent's turn between them. -/
theorem run_timeWrites {n : Nat} {lo hi : Word16} (hq : s.Quiet) (hp : s.pos = .command (timeWrites lo hi))
    (ho : s.owns = true) : core.run (n + 4) s = core.run n ((s.timeWritten lo hi).bodyLeft []) :=
  calc core.run (n + 4) s
    _ = core.run (n + 3) _ := run_busWrite hq hp ho
    _ = core.run (n + 2) _ := run_busWrite hq rfl ho
    _ = core.run (n + 1) _ := run_busWrite hq rfl ho
    _ = core.run n ((s.timeWritten lo hi).bodyLeft []) := run_busWrite hq rfl ho

/-! ### A GETCH that waits (R205) -/

theorem ctrlStep_of_recvArg_none (hp : s.pos = .command [.recvArg]) (hr : s.serial.rxAvail = false) :
    ctrlStep s = .next s := by
  rw [ctrlStep_of_command hp, stepBody_recvArg_wait s [] hr, State.bodyLeft_of_pos hp]

theorem ctrlStep_of_recvArg_some (hp : s.pos = .command [.recvArg]) (hr : s.serial.rxAvail = true) :
    ctrlStep s = .next (s.takeRx.bodyLeft [.busWrite (argAddr 0) s.serial.rxData]) := by
  rw [ctrlStep_of_command hp, stepBody_recvArg s [] hr]
  rfl

end Sys2Proof.Machine

open Sys2Proof Sys2Proof.Machine

/-- Settles O15: by the command's first micro-step, and by the one next to make of those left of it. -/
theorem commandsNeverTouchTheHandshake : Obligations.CommandsNeverTouchTheHandshake := by
  intro i s t h
  have hkept : HandshakeKept s t := by
    rcases h.exec_or_stepBody with ht | ⟨op, ops, -, -, rfl⟩
    · exact exec_handshakeKept ht
    · exact stepBody_handshakeKept op ops s
  exact ⟨hkept.busen, hkept.rdyC, hkept.wake, hkept.fsm, hkept.rdyT, hkept.cmd, hkept.env⟩

/-- Settles O16: a micro-step of such a command is a transmission, the end of an EXIT, the read of a PUTCH or the
`get_time` of a PRTIME. -/
theorem nonStoringCommandsFrame : Obligations.NonStoringCommandsFrame := by
  intro i s t hg hgt h
  have hlog := h.sends.txLog_isPrefix
  rcases h.nonStoring_cases hg hgt with ⟨b, ops, rfl⟩ | ⟨hi, ops, rfl⟩ | ⟨hi, ops, rfl⟩ | ⟨hi, ops, rfl⟩
  · obtain ⟨log, ready, heq⟩ := serialTx_only b s
    rw [stepBody_cons, runOp, heq] at hlog ⊢
    exact ⟨fun _ => rfl, rfl, rfl, rfl, fun _ => rfl, fun he hp => ⟨rfl, rfl, he, hp⟩, fun _ => rfl,
      fun _ => ⟨rfl, rfl⟩, rfl, rfl, rfl, hlog⟩
  · exact ⟨fun _ => rfl, rfl, rfl, rfl, fun _ => rfl, fun he hp => ⟨rfl, rfl, he, hp⟩, fun hne => absurd hi hne,
      fun _ => ⟨rfl, rfl⟩, rfl, rfl, rfl, hlog⟩
  · obtain ⟨aDir, aOut, rd, pins, log, ready, heq⟩ := busRead_only (argAddr 0) s
    rw [heq] at hlog ⊢
    exact ⟨fun _ => rfl, rfl, rfl, rfl, fun _ => rfl, fun he hp => ⟨rfl, rfl, he, hp⟩, fun _ => rfl,
      fun hne => absurd hi hne, rfl, rfl, rfl, hlog⟩
  · refine ⟨fun _ => rfl, rfl, rfl, rfl, fun hne => absurd hi hne, fun he hp => ?_, fun _ => rfl,
      fun _ => ⟨rfl, rfl⟩, rfl, rfl, rfl, hlog⟩
    rw [State.getTime_of_enabled he hp]
    exact ⟨rfl, rfl, he, hp⟩

/-- Settles O17: the only memory a micro-step of GETCH or GETTIME changes is the byte of a write that is its own. -/
theorem storingCommandsFrame : Obligations.StoringCommandsFrame := by
  refine fun s t => ⟨fun h => ?_, fun h => ?_⟩
  · have hlog := h.sends.txLog_isPrefix
    rcases h.getch_cases with ⟨fifo, avail, ops, rfl⟩ | ⟨b, ops, rfl⟩
    · exact ⟨fun _ _ => rfl, rfl, rfl, rfl, rfl, hlog, fun _ => ⟨rfl, rfl⟩⟩
    · exact ⟨fun _ ha => State.written_memRead_other b ha, rfl, rfl, rfl, rfl, hlog, fun _ => ⟨rfl, rfl⟩⟩
  · have hlog := h.sends.txLog_isPrefix
    rcases h.gettime_cases with ⟨ops, rfl⟩ | ⟨n, hn, v, ops, rfl⟩
    · exact ⟨fun _ _ => rfl, rfl, rfl, rfl, rfl, rfl, hlog, fun _ => ⟨rfl, rfl⟩⟩
    · exact ⟨fun _ ha => State.written_memRead_other v (ha n hn), rfl, rfl, rfl, rfl, rfl, hlog, fun _ => ⟨rfl, rfl⟩⟩

/-- Settles O14: before Release the invariant says that nothing is left of the command, and what it has then come to. -/
theorem commandsLeaveTheirResults : Obligations.CommandsLeaveTheirResults := by
  intro s t h ht hp
  have hdone {b : Byte} (hb : t.mem.read 0xF0 = b) : HasLeft (decodeByte b) [] t := (h.step ht).hasLeft_of_release hp hb
  refine ⟨fun hb => (hdone hb).exit_nil, fun hb => ?_, fun hb => (hdone hb).putch_nil, fun hb i hi => ?_,
    fun hb => (hdone hb).prtime_nil, fun hu => (hdone rfl).unknown_nil hu⟩
  · obtain ⟨haddr, hdata⟩ := (hdone hb).getch_nil
    exact ⟨haddr, hdata, fun b hs => h.mem_of_last_busWrite ht hp hs⟩
  · rw [← argAddr_toNat i hi]
    exact (hdone hb).gettime_nil i hi

/-- Settles O60: at Dispatch by what there is to take, and within the GETCH by what is left of it. -/
theorem getchCarriesItsByteToTheMailbox : Obligations.GetchCarriesItsByteToTheMailbox := by
  intro s t h hreg ht
  have hcmd : s.memRead Param.command = 0x01 := hreg
  constructor
  · intro hp
    refine (h.step_of_dispatch ht hp).imp id fun hexec => ?_
    rw [hcmd] at hexec
    cases hf : s.fifo.isEmpty with
    | false =>
      have hcons := s.fifo.contents_pop (s.fifo.isEmpty_eq_false.mp hf)
      cases (exec_getch_buffered s.popTurn hf).symm.trans hexec
      exact .inl ⟨_, _, hcons, rfl, rfl, rfl⟩
    | true =>
      have hcount := s.fifo.isEmpty_eq_true.mp hf
      cases hr : s.serial.rxAvail with
      | true =>
        cases (exec_getch_raw s.popTurn hf hr).symm.trans hexec
        exact .inr ⟨hcount, rfl, rfl, rfl⟩
      | false =>
        cases (exec_getch_wait s.popTurn hf hr).symm.trans hexec
        exact .inr ⟨hcount, rfl, rfl, rfl⟩
  · intro ops hp
    rcases h.step_of_command ht hp with ⟨hc, hpos, hfifo⟩ | rfl
    · exact .inl ⟨hpos, hfifo, .inl hc⟩
    obtain ⟨hne, hleft⟩ := h.hasLeft_of_command hp
    rw [h.latched (by rw [hp]; rfl), hcmd] at hleft
    rcases hleft with ⟨rfl, hcount⟩ | ⟨b, rfl, -⟩ | ⟨b, rfl⟩ | ⟨rfl, -⟩
    · cases hr : s.serial.rxAvail with
      | true =>
        rw [stepBody_recvArg s.popTurn [] hr]
        exact .inr (.inl ⟨rfl, hcount, rfl, rfl, rfl, rfl⟩)
      | false =>
        rw [stepBody_recvArg_wait s.popTurn [] hr]
        exact .inl ⟨rfl, rfl, .inr ⟨rfl, rfl⟩⟩
    · exact .inr (.inr (.inl ⟨b, rfl, rfl, rfl⟩))
    · rw [stepBody_busWrite_owned (s := s.popTurn) _ _ _ (h.owns_of_command hp)]
      exact .inr (.inr (.inr ⟨b, rfl, rfl, rfl, Memory.read_write_same ..⟩))
    · exact absurd rfl hne

/-- Settles O10: `get_time` gives the counter's words, and the four writes store their bytes. -/
theorem gettimeStoresTheTimeLittleEndian : Obligations.GettimeStoresTheTimeLittleEndian := by
  intro s hbus he hp
  have ho := State.owns_of_asserted hbus
  refine ⟨_, exec_gettime s, ?_, fun hq => ?_⟩
  · rw [State.getTime_of_enabled he hp]
    rfl
  rw [State.getTime_of_enabled he hp]
  refine ⟨_, run_timeWrites (n := 0) hq rfl ho, rfl, fun i hi => ?_, fun a ha => ?_, rfl, rfl, rfl, rfl, rfl, rfl, rfl,
    rfl, rfl, ?_⟩
  · rw [Clock.time_of_clear _ hp]
    exact State.timeWritten_read_snapByte { s.clock with snapLo := s.clock.tlo, snapHi := s.clock.thi } _ hi
  · exact State.timeWritten_read_other _ _ _ ha
  · rfl

/-- Settles O11: `get_time` gives the words to print, and the nine bytes left are sent in order. -/
theorem prtimePrintsTheTimeInHex : Obligations.PrtimePrintsTheTimeInHex := by
  intro s rest text he hp htext
  have hd := Clock.interruptDue_of_clear _ hp
  have hexec := exec_prtime s
  rw [State.getTime_of_enabled he hp] at hexec
  refine ⟨_, hexec, by rw [htext]; rfl, ?_⟩
  subst htext
  exact run_pending (bs := timeText s.clock.tlo s.clock.thi) (List.cons_ne_nil _ _) rfl hd rfl

/-- Settles O6: the transmission, sent or left to do, and then the end of EXIT. -/
theorem exitTransmitsAckThenClearsRun : Obligations.ExitTransmitsAckThenClearsRun := by
  intro s
  rw [exec_exit]
  refine ⟨fun hr => ?_, fun hr => ?_⟩
  · rw [stepBody_tx_ready s _ _ hr]
    exact ⟨_, rfl, rfl, fun hq => run_of_quiet hq (ctrlStep_of_command (ops := [.clearRun]) rfl)⟩
  · rw [stepBody_tx_busy s _ _ hr]
    rfl

/-- Settles O7: the oldest byte leaves the FIFO in two micro-steps, and the third stores it. -/
theorem getchDeliversTheOldestBufferedByte : Obligations.GetchDeliversTheOldestBufferedByte := by
  intro s hbus hc
  have ho := State.owns_of_asserted hbus
  refine ⟨_, _, _, s.fifo.contents_pop hc, exec_getch_buffered s (s.fifo.isEmpty_eq_false.mpr hc), rfl, fun hq => ?_⟩
  have hcount := run_of_quiet (n := 1)
    (s := ({ s with fifo := s.fifo.advanceRd } : State).bodyLeft [.countDown, .busWrite (argAddr 0) s.fifo.front]) hq
    (ctrlStep_of_command (ops := [.countDown, .busWrite (argAddr 0) s.fifo.front]) rfl)
  exact ⟨_, hcount.trans (run_busWrite hq rfl ho), rfl, rfl, Memory.read_write_same ..,
    fun a ha => Memory.read_write_other _ _ ha⟩

/-- Settles O8: the receiver's byte is taken at the first step that finds one there, at Dispatch or while waiting, and
then stored. -/
theorem getchFallsBackToTheRawReceiver : Obligations.GetchFallsBackToTheRawReceiver := by
  intro s hbus hc
  have ho := State.owns_of_asserted hbus
  have hempty := s.fifo.isEmpty_eq_true.mpr hc
  refine ⟨fun hr => ?_, fun hr => ⟨exec_getch_wait s hempty hr, ctrlStep_of_recvArg_none rfl hr, fun b => ?_⟩⟩
  · refine ⟨_, exec_getch_raw s hempty hr, rfl, fun hq => ?_⟩
    exact ⟨_, run_busWrite (n := 0) hq rfl ho, rfl, Memory.read_write_same ..,
      fun a ha => Memory.read_write_other _ _ ha⟩
  · have hexec := exec_getch_raw { s with serial := { s.serial with rxAvail := true, rxData := b } } hempty rfl
    exact (ctrlStep_of_recvArg_some rfl rfl).trans hexec.symm

/-- Settles O9: the owned read, and the transmission of the byte it gave. -/
theorem putchTransmitsTheArgumentByte : Obligations.PutchTransmitsTheArgumentByte := by
  intro s hbus
  refine ⟨_, exec_putch_owned s (State.owns_of_asserted hbus), rfl, fun hq hr => ?_, fun hq hr => ?_⟩
  · exact run_last_tx (n := 0) hq rfl hr
  · exact run_succ (transmissionWaitsForTheTransmitter _ _ _ hq rfl hr)

/-- Settles O12: every row has the meaning of one transmission, sent or left to do. -/
theorem unknownTransmitsTheMarkerOnly : Obligations.UnknownTransmitsTheMarkerOnly := by
  intro s c i hi
  have hexec : exec i s = .next (stepBody [.tx Param.unknownMark] s) := by
    simp only [List.mem_cons, List.not_mem_nil, or_false] at hi
    rcases hi with rfl | rfl | rfl | rfl | rfl | rfl | rfl <;> rfl
  rw [hexec]
  refine ⟨fun hr => ?_, fun hr => ?_⟩
  · rw [stepBody_tx_ready s _ _ hr]
    rfl
  · rw [stepBody_tx_busy s _ _ hr]
    rfl

end

section
/-! PROOFS. The serial input buffer of spec/43_serial_input_fifo.md: one SerialPoll (R200 to R203), bytes polled one
after another (R207), one call of getch (R204, R205), calls one after another (R206), and the GETCH that waits (R205).
-/

namespace Sys2Proof.Machine

variable {s : State} {b : Byte}

/-! ### Bytes received one after another (R207) -/

/-- With room, a received byte becomes the newest (R200, R201). -/
theorem State.receive_of_room (hc : s.fifo.count < Config.fifoCap) :
    s.receive b =
      { s with serial := { s.serial with rxAvail := false, rxData := b }, fifo := s.fifo.push b } :=
  congrArg Prod.fst (serialPoll_kept { s with serial := { s.serial with rxAvail := true, rxData := b } } rfl hc)

/-- A full FIFO drops a received byte (R202). -/
theorem State.receive_of_full (hc : s.fifo.count = Config.fifoCap) :
    s.receive b = { s with serial := { s.serial with rxAvail := false, rxData := b } } :=
  congrArg Prod.fst (serialPoll_dropped { s with serial := { s.serial with rxAvail := true, rxData := b } } rfl hc)

/-- Of the bytes buffered followed by a received one the first 255 are retained; the transmit log and the memory are as
before (R207). -/
theorem State.receive_retains (b : Byte) (h : s.fifo.Inv) :
    (s.receive b).fifo.contents = (s.fifo.contents ++ [b]).take Config.fifoCap ∧ (s.receive b).fifo.Inv ∧
      (s.receive b).serial.txLog = s.serial.txLog ∧ (s.receive b).mem = s.mem := by
  rcases h.1.lt_or_eq with hroom | hfull
  · have hlen : (s.fifo.contents ++ [b]).length ≤ Config.fifoCap := by simpa using hroom
    rw [State.receive_of_room hroom, List.take_of_length_le hlen]
    exact ⟨s.fifo.contents_push b h hroom, s.fifo.push_inv b h hroom, rfl, rfl⟩
  · have hlen : s.fifo.contents.length = Config.fifoCap := s.fifo.contents_length.trans hfull
    rw [State.receive_of_full hfull, List.take_left' hlen]
    exact ⟨rfl, h, rfl, rfl⟩

/-- What was cut off before an append is cut off after it. -/
theorem take_append_take {α : Type} (n : Nat) (xs ys : List α) : (xs.take n ++ ys).take n = (xs ++ ys).take n := by
  have hroom : n - min n xs.length = n - xs.length := by omega
  rw [List.take_append, List.take_append, List.take_take, Nat.min_self, List.length_take, hroom]

theorem State.receiveAll_retains (bs : List Byte) (h : s.fifo.Inv) :
    (s.receiveAll bs).fifo.contents = (s.fifo.contents ++ bs).take Config.fifoCap ∧ (s.receiveAll bs).fifo.Inv ∧
      (s.receiveAll bs).serial.txLog = s.serial.txLog ∧ (s.receiveAll bs).mem = s.mem := by
  induction bs generalizing s with
  | nil =>
    have hlen : s.fifo.contents.length ≤ Config.fifoCap := s.fifo.contents_length.trans_le h.1
    rw [List.append_nil, List.take_of_length_le hlen]
    exact ⟨rfl, h, rfl, rfl⟩
  | cons b bs ih =>
    obtain ⟨hcontents, hinv, htx, hmem⟩ := State.receive_retains b h
    obtain ⟨hrest, hinvRest, htxRest, hmemRest⟩ := ih hinv
    refine ⟨?_, hinvRest, htxRest.trans htx, hmemRest.trans hmem⟩
    calc ((s.receive b).receiveAll bs).fifo.contents
      _ = ((s.fifo.contents ++ [b]).take Config.fifoCap ++ bs).take Config.fifoCap := by rw [hrest, hcontents]
      _ = (s.fifo.contents ++ b :: bs).take Config.fifoCap := by rw [take_append_take, ← List.append_cons]

/-! ### Calls of getch (R204, R206) -/

/-- With bytes buffered, getch takes the head of the sequence and touches nothing else. -/
theorem getch_of_contents {rest : List Byte} (hinv : s.fifo.Inv) (h : s.fifo.contents = b :: rest) :
    ∃ f : Fifo, getch s = some (b, { s with fifo := f }) ∧ f.contents = rest ∧ f.Inv ∧ f.count + 1 = s.fifo.count := by
  have hcount : s.fifo.count = rest.length + 1 := by rw [← s.fifo.contents_length, h, List.length_cons]
  have hpos : 0 < s.fifo.count := hcount ▸ rest.length.succ_pos
  obtain ⟨hfront, hpop⟩ := List.cons.inj (h.symm.trans (s.fifo.contents_pop hpos))
  rw [getch_buffered s (s.fifo.isEmpty_eq_false.mpr hpos), ← hfront]
  exact ⟨_, rfl, hpop.symm, s.fifo.pop_inv hinv hpos, Nat.sub_add_cancel hpos⟩

/-- `n` calls take the first `n` of the sequence and touch nothing else. -/
theorem getchCalls_of_le (n : Nat) (hinv : s.fifo.Inv) (hn : n ≤ s.fifo.count) :
    ∃ f : Fifo, getchCalls n s = some (s.fifo.contents.take n, { s with fifo := f }) ∧
      f.contents = s.fifo.contents.drop n ∧ f.Inv := by
  induction n generalizing s with
  | zero => exact ⟨s.fifo, rfl, rfl, hinv⟩
  | succ n ih =>
    obtain ⟨b, rest, h⟩ := List.exists_cons_of_length_pos (s.fifo.contents_length.symm ▸ Nat.zero_lt_of_lt hn)
    obtain ⟨f, hget, hrest, hf, hcount⟩ := getch_of_contents hinv h
    obtain ⟨g, hcalls, hg, hginv⟩ := ih (s := { s with fifo := f }) hf (by simp only; omega)
    refine ⟨g, ?_, ?_, hginv⟩
    · simp only [getchCalls, hget, hcalls, hrest, h, List.take_succ_cons]
    · rw [hg, hrest, h, List.drop_succ_cons]

end Sys2Proof.Machine

open Sys2Proof Sys2Proof.Machine

/-- Settles O48: push appends, and keeps the invariants. -/
theorem pollKeepsAByteWhileThereIsRoom : Obligations.PollKeepsAByteWhileThereIsRoom := by
  intro s h
  refine ⟨fun hrx hroom => ?_, fun hrx => serialPoll_none s hrx⟩
  rw [serialPoll_kept s hrx hroom]
  exact ⟨rfl, s.fifo.contents_push _ h hroom, s.fifo.push_inv _ h hroom, rfl, rfl⟩

/-- Settles O50, by whether a byte is buffered. -/
theorem getchTakesTheOldestByte : Obligations.GetchTakesTheOldestByte := by
  intro s h
  refine ⟨fun b rest hcontents => ?_, fun hempty => getch_raw s (s.fifo.isEmpty_eq_true.mpr hempty)⟩
  obtain ⟨f, hget, hrest, hf, hcount⟩ := getch_of_contents h hcontents
  exact ⟨_, hget, hrest, hf, hcount, rfl⟩

/-- Settles O51: the calls take the sequence from its head, and that sequence is the bytes received. -/
theorem getchCallsReturnReceiveOrder : Obligations.GetchCallsReturnReceiveOrder := by
  intro n s h
  refine ⟨fun hn => ?_, fun hempty bs hfit hn => ?_⟩
  · obtain ⟨f, hcalls, hrest, hf⟩ := getchCalls_of_le n h hn
    exact ⟨_, hcalls, hrest, hf, rfl⟩
  · obtain ⟨hretained, hinv, -, -⟩ := State.receiveAll_retains bs h
    have hnil : s.fifo.contents = [] := List.length_eq_zero_iff.mp (s.fifo.contents_length.trans hempty)
    rw [hnil, List.nil_append, List.take_of_length_le hfit] at hretained
    have hcount : n ≤ (s.receiveAll bs).fifo.count := by rwa [← Fifo.contents_length, hretained]
    obtain ⟨f, hcalls, -⟩ := getchCalls_of_le n hinv hcount
    exact ⟨_, hretained ▸ hcalls⟩

/-- Settles O52, by induction on the bytes received. -/
theorem firstBytesUpToCapacityAreRetained : Obligations.FirstBytesUpToCapacityAreRetained :=
  fun bs _ h => State.receiveAll_retains bs h

/-- Settles O37: the raw receive stays left to do, in a window, where the bus is owned and `RDY_c` is low. -/
theorem waitingGetchHoldsTheBus : Obligations.WaitingGetchHoldsTheBus := by
  intro s ops h hq hp hrx
  obtain ⟨hbusen, hrdy, -⟩ := (h.inWindow (.inr ⟨_, hp⟩)).lines
  refine ⟨?_, State.owner_controller_iff.mpr hbusen, State.rdyLine_low_iff.mpr (.inr hrdy)⟩
  rw [step_of_quiet hq, ctrlStep_of_command hp, stepBody_recvArg_wait s ops hrx, State.bodyLeft_of_pos hp]

/-- Settles O49: with no room left SerialPoll makes none of the append's writes. -/
theorem pollDropsAByteWhenFull : Obligations.PollDropsAByteWhenFull :=
  fun s hfull hrx => serialPoll_dropped s hrx hfull

end

section
/-! PROOFS. The clock of spec/44_clock_service.md: a Tick moves the logical time by one, whether its wrap is counted at
once (R221) or left pending (R229); any number of Ticks and the read of the time (R223, R225, R228); the overflow
interrupt (R222, R229, R260). -/

namespace Sys2Proof.Machine

variable (c : Clock)

/-! ### The logical time (R41, R225) -/

/-- While an increment is owed, the logical time is what it will be once the handler has run. -/
theorem Clock.time_overflowISR (hp : c.ovfPending = true) : c.overflowISR.time = c.time := by
  rw [c.overflowISR.time_of_clear rfl, Clock.time, if_pos hp]
  rfl

theorem Clock.takeInterrupt_time : c.takeInterrupt.time = c.time := by
  cases hd : c.interruptDue with
  | false => rw [c.takeInterrupt_of_not_due hd]
  | true =>
    obtain ⟨hp, -⟩ := Bool.and_eq_true_iff.mp hd
    rw [c.takeInterrupt_of_due hd, c.time_overflowISR hp]

/-- Enabling or disabling interrupts does not move the logical time. -/
theorem Clock.setIen_time (v : Bool) : (c.setIen v).time = c.time :=
  Clock.takeInterrupt_time { c with ien := v }

/-- A Tick moves the logical time by one (R226), enabled or not: at a wrap the increment is owed before any handler
runs. -/
theorem Clock.tick_time (hp : c.ovfPending = false) : c.tick.time = c.time + 1 := by
  rw [Clock.tick, Clock.takeInterrupt_time, c.time_of_clear hp]
  split_ifs with hwrap
  · rw [hwrap, Clock.time, if_pos rfl]
    exact Clock.append_wrap c.thi
  · exact (Clock.time_of_clear { c with tlo := c.tlo + 1 } hp).trans (Clock.append_succ_of_ne c.thi c.tlo hwrap)

/-- With interrupts enabled a wrap clears `tlo` and is counted in `thi` at once (R220, R221). -/
theorem Clock.tick_words (he : c.ien = true) (hp : c.ovfPending = false) :
    c.tick.tlo = c.tlo + 1 ∧ c.tick.thi = if c.tlo = 0xFFFF then c.thi + 1 else c.thi := by
  by_cases hwrap : c.tlo = 0xFFFF
  · rw [(c.tick_of_enabled he hp).trans (if_pos hwrap), if_pos hwrap, hwrap]
    exact ⟨rfl, rfl⟩
  · rw [(c.tick_of_enabled he hp).trans (if_neg hwrap), if_neg hwrap]
    exact ⟨rfl, rfl⟩

/-- `n` Ticks with interrupts enabled and none pending move the logical time by `n` and leave none pending (R228). -/
theorem Clock.ticks_time (n : Nat) (he : c.ien = true) (hp : c.ovfPending = false) :
    (c.ticks n).time = c.time + BitVec.ofNat 32 n ∧ (c.ticks n).ovfPending = false := by
  induction n generalizing c with
  | zero => exact ⟨(BitVec.add_zero _).symm, hp⟩
  | succ n ih =>
    obtain ⟨he', hp'⟩ := c.tick_enabled he hp
    obtain ⟨htime, hnone⟩ := ih c.tick he' hp'
    refine ⟨?_, hnone⟩
    calc (c.tick.ticks n).time
      _ = c.time + 1 + BitVec.ofNat 32 n := by rw [htime, c.tick_time hp]
      _ = c.time + BitVec.ofNat 32 (1 + n) := by rw [BitVec.ofNat_add, ← BitVec.add_assoc]; rfl
      _ = c.time + BitVec.ofNat 32 (n + 1) := by rw [Nat.add_comm]

/-! ### The read of the time (R223) -/

theorem Clock.getTime_time (hp : c.ovfPending = false) : c.getTime.time = c.time := by
  rw [c.getTime_of_clear hp, c.time_of_clear hp]
  exact Clock.time_of_clear _ hp

/-- With none pending, the pair `get_time` takes is the logical time (R225). -/
theorem Clock.getTime_snapshot (hp : c.ovfPending = false) : c.getTime.snapshot = c.time := by
  rw [c.getTime_of_clear hp, c.time_of_clear hp]
  rfl

/-- The value of a snapshot is `snapHi * 2^16 + snapLo` (R94, R225). -/
theorem Clock.snapshot_toNat : c.snapshot.toNat = c.snapHi.toNat * 65536 + c.snapLo.toNat := by
  rw [Clock.snapshot, BitVec.toNat_append, ← Nat.shiftLeft_add_eq_or_of_lt c.snapLo.isLt, Nat.shiftLeft_eq]

end Sys2Proof.Machine

open Sys2Proof Sys2Proof.Machine

/-- Settles O53: the time, the two words and the frame of a Tick, each by its lemma. -/
theorem tickAdvancesTheTimeByOne : Obligations.TickAdvancesTheTimeByOne := by
  intro c he hp
  obtain ⟨he', hp'⟩ := c.tick_enabled he hp
  obtain ⟨hlo, hhi⟩ := c.tick_snap
  obtain ⟨htlo, hthi⟩ := c.tick_words he hp
  exact ⟨c.tick_time hp, htlo, hthi, hp', he', hlo, hhi⟩

/-- Settles O54: each read takes the logical time, which `n` Ticks move by `n`. -/
theorem readsDifferByTheTicksBetween : Obligations.ReadsDifferByTheTicksBetween := by
  intro n c _ hp
  obtain ⟨he', hp'⟩ := c.getTime_enabled
  obtain ⟨htime, hnone⟩ := c.getTime.ticks_time n he' hp'
  refine ⟨?_, c.getTime_snapshot hp⟩
  calc (c.getTime.ticks n).getTime.snapshot
    _ = (c.getTime.ticks n).time := Clock.getTime_snapshot _ hnone
    _ = c.getTime.time + BitVec.ofNat 32 n := htime
    _ = c.getTime.snapshot + BitVec.ofNat 32 n := by rw [c.getTime_time hp, c.getTime_snapshot hp]

/-- Settles O55: the pair is that of the clock as it stands, whose logical time it is. -/
theorem getTimeReadsOneInstant : Obligations.GetTimeReadsOneInstant := by
  intro c hp
  refine ⟨c.getTime_of_clear hp, ?_, c.getTime_snapshot hp⟩
  rw [c.getTime_of_clear hp]
  exact Clock.snapshot_toNat _

/-- Settles O56: the disabled Tick leaves the interrupt pending, so enabling makes it due; neither moves the time but
the Tick's own increment. -/
theorem overflowWaitsWhileDisabled : Obligations.OverflowWaitsWhileDisabled := by
  intro c he hp hwrap
  have htick : c.tick = { c with tlo := 0, ovfPending := true } := (c.tick_of_disabled he).trans (if_pos hwrap)
  have htime := c.tick_time hp
  refine ⟨htick, htime, ?_, (c.tick.setIen_time true).trans htime⟩
  rw [htick, Clock.setIen, Clock.takeInterrupt_of_due _ rfl, Clock.overflowISR, ← hp]

/-- Settles O57: the interrupt is due, and the handler is the step. -/
theorem interruptTouchesOnlyTheOverflowCount : Obligations.InterruptTouchesOnlyTheOverflowCount := by
  intro s hp he
  have hdue : s.clock.interruptDue = true := Bool.and_eq_true_iff.mpr ⟨hp, he⟩
  rw [step_of_due hdue, State.takeInterrupt, Clock.takeInterrupt_of_due _ hdue, Clock.overflowISR]

end

section
/-! PROOFS. The modes of spec/60_exceptions.md: the bus changes hands only by Acquire and Release and Servicing is entered
only by the confirm sample (R265), the target makes no request while one is being serviced (R263), and the logical time
moves only by the counter's turn (R267). -/

namespace Sys2Proof.Machine

variable {s t : State}

/-! ### The logical time and `get_time` -/

/-- `get_time` does not move the logical time, whether an increment is owed or not. -/
theorem Clock.time_getTime (c : Clock) : c.getTime.time = c.time :=
  calc c.getTime.time
    _ = (c.setIen false).time := Clock.setIen_time _ true
    _ = c.time := c.setIen_time false

/-- Of the commands only GETTIME and PRTIME touch the clock at their first micro-step, to read it (R174, R175). -/
theorem exec_time {i : Instr} (ht : exec i s = .next t) : t.clock.time = s.clock.time := by
  have hsend (b : Byte) (ops : List MicroOp) : (stepBody (.tx b :: ops) s).clock.time = s.clock.time :=
    congrArg Clock.time (serialTx_frame s b).clock
  rcases exec_cases ht with ⟨-, rfl⟩ | ⟨-, -, rfl⟩ | ⟨-, -, -, rfl⟩ | ⟨-, -, -, rfl⟩ | ⟨-, rfl⟩ | ⟨-, rfl⟩ | ⟨-, rfl⟩ |
      ⟨-, -, -, -, -, rfl⟩
  · exact hsend ..
  · rfl
  · rfl
  · rfl
  · exact congrArg Clock.time (busRead_frame s (argAddr 0)).clock
  · exact s.clock.time_getTime
  · exact s.clock.time_getTime
  · exact hsend ..

/-! ### What CTRL's operations leave alone -/

/-- What SerialPoll, the fetch and the commands leave as it was: the owner of the bus, `fsm`, the target's drive of RDY and
the logical time. -/
structure OperationFrame (s t : State) : Prop where
  busen : t.lines.busen = s.lines.busen
  fsm : t.fsm = s.fsm
  rdyT : t.rdyT = s.rdyT
  time : t.clock.time = s.clock.time

theorem exec_operationFrame {i : Instr} (ht : exec i s = .next t) : OperationFrame s t :=
  { exec_handshakeKept ht with time := exec_time ht }

theorem runFirst_operationFrame (ops : List MicroOp) (s : State) : OperationFrame s (runFirst ops s).1 := by
  cases ops with
  | nil => exact ⟨rfl, rfl, rfl, rfl⟩
  | cons op ops => exact { runOp_frame s op with time := congrArg Clock.time (runOp_frame s op).clock }

theorem fetchStep_operationFrame (s : State) : OperationFrame s (fetchStep s) := by
  cases ho : s.owns with
  | true => rw [fetchStep_owned ho]; exact ⟨rfl, rfl, rfl, rfl⟩
  | false =>
    rw [fetchStep_refused ho]
    split <;> exact ⟨rfl, rfl, rfl, rfl⟩

theorem idlePoll_operationFrame (s : State) : OperationFrame s (idlePoll s) := by
  unfold idlePoll pollBegin
  split <;> exact ⟨rfl, rfl, rfl, rfl⟩

/-- CTRL's step, at every position, neither drives RDY for the target nor moves the logical time. -/
theorem ctrlStep_rdyT_time (ht : ctrlStep s = .next t) : t.rdyT = s.rdyT ∧ t.clock.time = s.clock.time := by
  rcases ctrlStep_kinds ht with ⟨-, es, f, p, -, rfl⟩ | ⟨-, -, -, rfl⟩ | ⟨-, rfl⟩ | ⟨-, ht⟩ | ⟨p, -, rfl⟩
  · exact ⟨rfl, rfl⟩
  · exact ⟨(idlePoll_operationFrame s).rdyT, (idlePoll_operationFrame s).time⟩
  · exact ⟨(fetchStep_operationFrame s).rdyT, (fetchStep_operationFrame s).time⟩
  · exact ⟨(exec_operationFrame ht).rdyT, (exec_operationFrame ht).time⟩
  · exact ⟨(runFirst_operationFrame s.pos.left s).rdyT, (runFirst_operationFrame s.pos.left s).time⟩

/-! ### Mode changes (R265) -/

theorem State.owner_of_busen (h : t.lines.busen = s.lines.busen) : t.owner = s.owner := by
  rw [State.owner, h, State.owner]

/-- From `s` to `t` the bus has not changed hands, and Servicing has not been entered. -/
structure ModesKept (s t : State) : Prop where
  owner : t.owner = s.owner
  servicing : t.fsm = .servicing → s.fsm = .servicing

theorem OperationFrame.modesKept (h : OperationFrame s t) : ModesKept s t :=
  ⟨State.owner_of_busen h.busen, h.fsm.symm.trans⟩

theorem idleSampleStep_modesKept (s : State) : ModesKept s (idleSampleStep s) := by
  unfold idleSampleStep
  split
  · exact ⟨rfl, fun h => nomatch h⟩
  · exact ⟨rfl, id⟩

theorem confirmStep_owner (s : State) : (confirmStep s).owner = s.owner := by
  rw [confirmStep_eq]
  rfl

/-- The confirm sample goes on to Servicing only where it finds RDY low (R143, R145). -/
theorem rdyLine_of_confirmStep_servicing (h : (confirmStep s).fsm = .servicing) : s.rdyLine = .low := by
  by_contra hlow
  rw [confirmStep_eq, if_neg hlow] at h
  exact nomatch h

/-- The head of the loop: Acquire while servicing, the confirm sample of a candidate, and otherwise no mode change. -/
theorem loopHeadStep_modes (s : State) :
    ModesKept s (loopHeadStep s) ∨ (s.fsm = .servicing ∧ loopHeadStep s = acquireStep s) ∨
      (s.fsm = .confirmRequest ∧ loopHeadStep s = confirmStep s) := by
  cases hr : s.run with
  | false => exact .inl (loopHeadStep_halted hr ▸ ⟨rfl, id⟩)
  | true =>
    cases hf : s.fsm with
    | idle => exact .inl (loopHeadStep_idle hr hf ▸ (idlePoll_operationFrame s).modesKept)
    | confirmRequest => exact .inr (.inr ⟨rfl, loopHeadStep_confirmRequest hr hf⟩)
    | servicing => exact .inr (.inl ⟨rfl, loopHeadStep_servicing hr hf⟩)

/-- CTRL changes a mode in Acquire, in Release and in the confirm sample, at no other position. -/
theorem ctrlStep_modes (ht : ctrlStep s = .next t) :
    ModesKept s t ∨ (s.pos = .loopHead ∧ s.fsm = .servicing ∧ t = acquireStep s) ∨
      (s.pos = .loopHead ∧ s.fsm = .confirmRequest ∧ t = confirmStep s) ∨ (s.pos = .release ∧ t = releaseStep s) := by
  rcases ctrlStep_cases ht with ⟨hp, rfl⟩ | ⟨ops, -, rfl⟩ | ⟨-, rfl⟩ | ⟨-, rfl⟩ | ⟨-, ht⟩ | ⟨ops, -, rfl⟩ | ⟨hp, rfl⟩ |
      ⟨-, rfl⟩ | ⟨-, rfl⟩ | ⟨-, rfl⟩ | ⟨-, rfl⟩
  · rcases loopHeadStep_modes s with hkept | ⟨hf, heq⟩ | ⟨hf, heq⟩
    · exact .inl hkept
    · exact .inr (.inl ⟨hp, hf, heq⟩)
    · exact .inr (.inr (.inl ⟨hp, hf, heq⟩))
  · exact .inl { (runFirst_operationFrame ops s).modesKept with }
  · exact .inl (idleSampleStep_modesKept s)
  · exact .inl (fetchStep_operationFrame s).modesKept
  · exact .inl (exec_operationFrame ht).modesKept
  · exact .inl { (runFirst_operationFrame ops s).modesKept with }
  · exact .inr (.inr (.inr ⟨hp, rfl⟩))
  · exact .inl ⟨rfl, id⟩
  · exact .inl ⟨rfl, id⟩
  · exact .inl ⟨rfl, fun h => nomatch h⟩
  · exact .inl ⟨rfl, id⟩

theorem shellTurn_modesKept (s : State) : ModesKept s (shellTurn s) := by
  unfold shellTurn
  split
  · exact ⟨rfl, fun h => nomatch h⟩
  · exact ⟨rfl, id⟩

/-- A mode changes only on CTRL's turn, in Acquire, in Release and in the confirm sample. -/
theorem step_modes (ht : step s = .next t) (hd : s.clock.interruptDue = false) :
    ModesKept s t ∨ (s.nextAgent = .ctrl ∧
      ((s.pos = .loopHead ∧ s.fsm = .servicing ∧ t = acquireStep s.popTurn) ∨
       (s.pos = .loopHead ∧ s.fsm = .confirmRequest ∧ t = confirmStep s.popTurn) ∨
       (s.pos = .release ∧ t = releaseStep s.popTurn))) := by
  by_cases hc : s.nextAgent = .ctrl
  · rw [step_of_ctrl hd hc] at ht
    rcases ctrlStep_modes ht with hk | hchange
    · exact .inl { hk with }
    · exact .inr ⟨hc, hchange⟩
  · rw [step_of_not_due hd] at ht
    by_cases hs : s.nextAgent = .shell
    · rw [hs] at ht
      cases ht
      exact .inl { shellTurn_modesKept s.popTurn with }
    · have f := agentStep_ctrlFrame ht hc hs
      exact .inl ⟨State.owner_of_busen (congrArg Lines.busen f.lines), f.fsm.symm.trans⟩

/-! ### The other agents: the target's drive of RDY, and the clock -/

theorem hostRxTurn_rdyT_clock (s : State) : (hostRxTurn s).rdyT = s.rdyT ∧ (hostRxTurn s).clock = s.clock := by
  unfold hostRxTurn
  split
  · exact ⟨rfl, rfl⟩
  · split <;> exact ⟨rfl, rfl⟩

theorem shellTurn_rdyT_clock (s : State) : (shellTurn s).rdyT = s.rdyT ∧ (shellTurn s).clock = s.clock := by
  unfold shellTurn
  split <;> exact ⟨rfl, rfl⟩

/-- The target pulls RDY low only where it may make a request (R156 item 2, R263). -/
theorem tgtTurn_pulls_rdyT (h : tgtTurn s = .next t) (hr : s.rdyT = .released) (hl : t.rdyT = .low) :
    s.targetMayRequest = true := by
  have hne : t.rdyT ≠ s.rdyT := by rw [hr, hl]; decide
  rcases tgtTurn_cases h with rfl | ⟨a, v, rest, -, -, rfl⟩ | ⟨a, rest, -, -, rfl⟩ | ⟨rest, -, hm, -⟩ |
      ⟨rest, -, rfl⟩ | ⟨rest, -, -, rfl⟩
  · exact absurd rfl hne
  · exact absurd rfl hne
  · exact absurd rfl hne
  · exact hm
  · exact nomatch hl
  · exact absurd rfl hne

theorem tgtTurn_clock (h : tgtTurn s = .next t) : t.clock = s.clock := by
  rcases tgtTurn_cases h with rfl | ⟨a, v, rest, -, -, rfl⟩ | ⟨a, rest, -, -, rfl⟩ | ⟨rest, -, -, rfl⟩ |
      ⟨rest, -, rfl⟩ | ⟨rest, -, -, rfl⟩ <;> rfl

/-- Only the target moves its drive of RDY (R23). -/
theorem step_rdyT_of_other (ht : step s = .next t) (hg : s.nextAgent ≠ .tgt) : t.rdyT = s.rdyT := by
  rcases step_cases ht with ⟨-, rfl⟩ | ⟨-, ⟨-, hc⟩ | ⟨-, rfl⟩ | ⟨ha, -⟩ | ⟨-, rfl⟩ | ⟨-, rfl⟩ | ⟨-, rfl⟩⟩
  · rfl
  · exact (ctrlStep_rdyT_time hc).1
  · rfl
  · exact absurd ha hg
  · exact (hostRxTurn_rdyT_clock s.popTurn).1
  · rfl
  · exact (shellTurn_rdyT_clock s.popTurn).1

/-- Only the counter moves the logical time: neither the overflow interrupt nor another agent's turn does. -/
theorem step_time_of_other (ht : step s = .next t) (hg : s.nextAgent ≠ .tmr) : t.clock.time = s.clock.time := by
  rcases step_cases ht with ⟨-, rfl⟩ | ⟨-, ⟨-, hc⟩ | ⟨ha, -⟩ | ⟨-, hturn⟩ | ⟨-, rfl⟩ | ⟨-, rfl⟩ | ⟨-, rfl⟩⟩
  · exact s.clock.takeInterrupt_time
  · exact (ctrlStep_rdyT_time hc).2
  · exact absurd ha hg
  · exact congrArg Clock.time (tgtTurn_clock (s := s.popTurn) hturn)
  · exact congrArg Clock.time (hostRxTurn_rdyT_clock s.popTurn).2
  · rfl
  · exact congrArg Clock.time (shellTurn_rdyT_clock s.popTurn).2

end Sys2Proof.Machine

open Sys2Proof Sys2Proof.Machine

/-- Settles O35: a step that does not keep the modes is Acquire, the confirm sample or Release. -/
theorem modesChangeOnlyByAcquireAndRelease : Obligations.ModesChangeOnlyByAcquireAndRelease := by
  intro s t h ht
  have hien := (h.step ht).enabled
  have hsame (heq : t.owner = s.owner) {o o' : Owner} (ho : s.owner = o) (ho' : t.owner = o') :
      o' = o := ho'.symm.trans (heq.trans ho)
  rcases step_modes ht (Clock.interruptDue_of_clear _ h.noneDue) with hk | ⟨hc, ⟨hp, hf, rfl⟩ | ⟨hp, hf, rfl⟩ |
      ⟨hp, rfl⟩⟩
  · exact ⟨fun ho ho' => (nomatch hsame hk.owner ho ho'), fun ho ho' => (nomatch hsame hk.owner ho ho'),
      fun hne hs => absurd (hk.servicing hs) hne, h.enabled, hien⟩
  · exact ⟨fun _ _ => ⟨hc, hp, hf, rfl, rfl⟩, fun _ ho' => (nomatch ho'), fun hne _ => absurd hf hne, h.enabled, hien⟩
  · have howner := confirmStep_owner s.popTurn
    exact ⟨fun ho ho' => (nomatch hsame howner ho ho'), fun ho ho' => (nomatch hsame howner ho ho'),
      fun _ hs => ⟨hc, hp, hf, rdyLine_of_confirmStep_servicing (s := s.popTurn) hs⟩, h.enabled, hien⟩
  · exact ⟨fun _ ho' => (nomatch ho'), fun _ _ => ⟨hc, hp, rfl, rfl⟩, fun hne hs => absurd hs hne, h.enabled, hien⟩

/-- Settles O44: only the target moves its drive of RDY, and pulls it low only where it may make a request. -/
theorem noRequestWhileServicing : Obligations.NoRequestWhileServicing := by
  intro s t ht hr hl
  have ha : s.nextAgent = .tgt := by
    by_contra hg
    simp [step_rdyT_of_other ht hg, hr] at hl
  cases hd : s.clock.interruptDue with
  | true =>
    rw [step_of_due hd] at ht
    cases ht
    exact absurd (hr.symm.trans hl) (by decide)
  | false =>
    rw [step_of_tgt hd ha] at ht
    obtain ⟨hbusen, hfsm⟩ := State.targetMayRequest_iff.mp (tgtTurn_pulls_rdyT (s := s.popTurn) ht hr hl)
    exact ⟨ha, State.owner_target_iff.mpr hbusen, hfsm⟩

/-- Settles O46: the counter's turn is a Tick, with no increment owed before it, and no other step moves the time. -/
theorem timeMovesOnlyByTicks : Obligations.TimeMovesOnlyByTicks := by
  intro s t h ht
  refine ⟨fun ha => ?_, step_time_of_other ht⟩
  rw [step_of_not_due (Clock.interruptDue_of_clear _ h.noneDue), ha] at ht
  cases ht
  exact s.clock.tick_time h.noneDue

end
